-- ==== Sys2Proof/Word.lean ====
section
/-! DEFINITION. The widths of the CORE's values (spec 00 R14: `u8`, `u16`, `u32`). -/

namespace Sys2Proof

/-- A `u8` (00 R14): a byte of `DIN`, `DOUT`, a key, a block; a GF(2^8) element (40 R140). -/
abbrev Byte := BitVec 8

/-- A `u16` (00 R14): a Cipher B register or round-key word. -/
abbrev Half := BitVec 16

/-- A `u32` (00 R14): a Cipher A word, the command word, `LEN`. -/
abbrev Word := BitVec 32

end Sys2Proof
end

