-- ==== Sys2Proof/Machine/Primitives.lean ====
section
/-! DEFINITION. The Field and Bit Primitives unit (spec 40, part 1) and the byte-sequence operators of
00 R16: pure functions that the decoder, both ciphers and the session call. -/

namespace Sys2Proof.Machine

/-- The vector of `f 0`, `f 1`, …: a table given by its entries, in a form the kernel evaluates. -/
def tabulate {α : Type} {n : Nat} (f : Fin n → α) : Vector α n :=
  ⟨((List.finRange n).map f).toArray, by simp⟩

/-- `GF_POLY` = 0x169 (00 R12, 40 R141). -/
def gfPoly : BitVec 9 := 0x169

/-- `RS_POLY` = 0x169 (00 R12, 41 R188; 90 C7). -/
def rsPoly : BitVec 9 := 0x169

/-- The carry-less product of 40 R141's first loop. -/
def clmul (a b : Byte) : BitVec 15 :=
  [0, 1, 2, 3, 4, 5, 6, 7].foldl
    (fun r i => if b.getLsbD i then r ^^^ (a.setWidth 15 <<< i) else r) 0

/-- The reduction of 40 R141's second loop, bits 14 down to 8. -/
def gfReduce (r : BitVec 15) (p : BitVec 9) : BitVec 15 :=
  [14, 13, 12, 11, 10, 9, 8].foldl
    (fun r i => if r.getLsbD i then r ^^^ (p.setWidth 15 <<< (i - 8)) else r) r

/-- `gf_mul(a, b, p)` (40 R141). -/
def gfMul (a b : Byte) (p : BitVec 9) : Byte := (gfReduce (clmul a b) p).setWidth 8

/-- `multiplyGF(a, b)` (40 R141). -/
def multiplyGF (a b : Byte) : Byte := gfMul a b gfPoly

/-- `rot(x, n)` for any integer `n` (40 R144): left for a positive `n`, right for a negative one. -/
def rot (x : Word) (n : Int) : Word :=
  let m := (n % 32).toNat
  if m = 0 then x else (x <<< m) ||| (x >>> (32 - m))

/-- Big-endian packing of four bytes (40 R146). -/
def beWord (b0 b1 b2 b3 : Byte) : Word :=
  b0.setWidth 32 <<< 24 ||| b1.setWidth 32 <<< 16 ||| b2.setWidth 32 <<< 8 ||| b3.setWidth 32

/-- `bytesToWords` (40 R146): refused on a length that is not a multiple of 4 (40 R149). -/
def bytesToWords : List Byte → Option (List Word)
  | [] => some []
  | b0 :: b1 :: b2 :: b3 :: rest => (bytesToWords rest).map (beWord b0 b1 b2 b3 :: ·)
  | _ => none

/-- The four bytes of a word, most significant first (40 R147). -/
def wordBytes (w : Word) : List Byte :=
  [w.extractLsb' 24 8, w.extractLsb' 16 8, w.extractLsb' 8 8, w.extractLsb' 0 8]

/-- `wordsToBytes` (40 R147). -/
def wordsToBytes (ws : List Word) : List Byte := ws.flatMap wordBytes

/-- Little-endian packing of a byte pair (40 R148, 20 R78). -/
def leHalf (b0 b1 : Byte) : Half := b0.setWidth 16 ||| b1.setWidth 16 <<< 8

/-- `pairsToHalves` (40 R148): refused on an odd length. -/
def pairsToHalves : List Byte → Option (List Half)
  | [] => some []
  | b0 :: b1 :: rest => (pairsToHalves rest).map (leHalf b0 b1 :: ·)
  | _ => none

/-- The byte pair of a half, least significant first (40 R148). -/
def halfBytes (h : Half) : List Byte := [h.extractLsb' 0 8, h.extractLsb' 8 8]

/-- `halvesToPairs` (40 R148). -/
def halvesToPairs (hs : List Half) : List Byte := hs.flatMap halfBytes

/-- `PHT(a, b)` = `(a + b, a + 2b)`, modulo 2^32 (40 R150, R151). -/
def pht (a b : Word) : Word × Word := (a + b, a + 2 * b)

/-- `A (+) B`, the byte-wise exclusive-or of two sequences of equal length (00 R16). -/
def xorBytes (a b : List Byte) : List Byte := List.zipWith (· ^^^ ·) a b

/-- A byte sequence as one big-endian unsigned number (20 R80). -/
def beNat (bs : List Byte) : Nat := bs.foldl (fun n b => n * 256 + b.toNat) 0

/-- The low `n` bytes of a number, big-endian (20 R80). -/
def natBytes : Nat → Nat → List Byte
  | 0, _ => []
  | n + 1, v => natBytes n (v / 256) ++ [BitVec.ofNat 8 v]

/-- `inc(X)` (45 R322): the big-endian number `X` plus one, modulo 2^(8|X|). -/
def incBytes (bs : List Byte) : List Byte :=
  natBytes bs.length ((beNat bs + 1) % 2 ^ (8 * bs.length))

end Sys2Proof.Machine
end

