-- ==== Sys2Proof/Machine/CipherA.lean ====
section
/-! DEFINITION. Cipher A (Twofish-style): its constant tables, key schedule (spec 41) and block engine
(spec 42). The tables are the spec's own, which marks them as general knowledge (93 G1 to G8;
notes/assumptions/15). -/

namespace Sys2Proof.Machine

/-- A permutation of the 4-bit values, entry 0 first. -/
abbrev NibbleTable := Vector (BitVec 4) 16

/-- The four nibble permutations of one `q` (41 R181). -/
structure QTable where
  t0 : NibbleTable
  t1 : NibbleTable
  t2 : NibbleTable
  t3 : NibbleTable

/-- `Q0T` (41 R181). -/
def q0T : QTable where
  t0 := #v[0x8, 0x1, 0x7, 0xD, 0x6, 0xF, 0x3, 0x2, 0x0, 0xB, 0x5, 0x9, 0xE, 0xC, 0xA, 0x4]
  t1 := #v[0xE, 0xC, 0xB, 0x8, 0x1, 0x2, 0x3, 0x5, 0xF, 0x4, 0xA, 0x6, 0x7, 0x0, 0x9, 0xD]
  t2 := #v[0xB, 0xA, 0x5, 0xE, 0x6, 0xD, 0x9, 0x0, 0xC, 0x8, 0xF, 0x3, 0x2, 0x4, 0x7, 0x1]
  t3 := #v[0xD, 0x7, 0xF, 0x4, 0x1, 0x2, 0x6, 0xE, 0x9, 0xB, 0x3, 0x0, 0x8, 0x5, 0xC, 0xA]

/-- `Q1T` (41 R181). -/
def q1T : QTable where
  t0 := #v[0x2, 0x8, 0xB, 0xD, 0xF, 0x7, 0x6, 0xE, 0x3, 0x1, 0x9, 0x4, 0x0, 0xA, 0xC, 0x5]
  t1 := #v[0x1, 0xE, 0x2, 0xB, 0x4, 0xC, 0x3, 0x7, 0x6, 0xD, 0xA, 0x5, 0xF, 0x9, 0x0, 0x8]
  t2 := #v[0x4, 0xC, 0x7, 0x5, 0x1, 0x6, 0x9, 0xA, 0x0, 0xE, 0xD, 0x8, 0x2, 0xB, 0x3, 0xF]
  t3 := #v[0xB, 0x9, 0x5, 0x1, 0xC, 0x3, 0xD, 0xE, 0x6, 0x4, 0x7, 0xF, 0x2, 0x0, 0x8, 0xA]

/-- `T[a]`: a nibble indexes all sixteen entries (20 R73). -/
def nibbleAt (t : NibbleTable) (a : BitVec 4) : BitVec 4 := t.get a.toFin

/-- `ror4(v, 1)` (41 R182). -/
def ror4 (v : BitVec 4) : BitVec 4 := v >>> 1 ||| (v &&& 1) <<< 3

/-- `q(T, x)` (41 R182). -/
def qPerm (t : QTable) (x : Byte) : Byte :=
  let a0 : BitVec 4 := x.extractLsb' 4 4
  let b0 : BitVec 4 := x.extractLsb' 0 4
  let a1 := a0 ^^^ b0
  let b1 := a0 ^^^ ror4 b0 ^^^ 8 * a0
  let a2 := nibbleAt t.t0 a1
  let b2 := nibbleAt t.t1 b1
  let a3 := a2 ^^^ b2
  let b3 := a2 ^^^ ror4 b2 ^^^ 8 * a2
  let a4 := nibbleAt t.t2 a3
  let b4 := nibbleAt t.t3 b3
  b4.setWidth 8 <<< 4 ||| a4.setWidth 8

/-- `q0[x]` (41 R182). -/
def q0 (x : Byte) : Byte := qPerm q0T x

/-- `q1[x]` (41 R182). -/
def q1 (x : Byte) : Byte := qPerm q1T x

/-- `lane(X, j) = X[8j+7 : 8j]` (41 R184, 20 R77). -/
def lane (x : Word) (j : Fin 4) : Byte := x.extractLsb' (8 * j.val) 8

/-- `word(z_0, z_1, z_2, z_3)` (41 R184). -/
def laneWord (z : Vector Byte 4) : Word :=
  z[0].setWidth 32 ||| z[1].setWidth 32 <<< 8 ||| z[2].setWidth 32 <<< 16 ||| z[3].setWidth 32 <<< 24

/-- `x * rho`: the byte `x` in all four lanes (00 R23). -/
def timesRho (x : Byte) : Word := x.setWidth 32 * 0x01010101

/-- The matrix `MDS` (41 R185), by rows. -/
def mdsMatrix : Vector (Vector Byte 4) 4 :=
  #v[#v[0x01, 0xEF, 0x5B, 0x5B],
     #v[0x5B, 0xEF, 0xEF, 0x01],
     #v[0xEF, 0x5B, 0x01, 0xEF],
     #v[0xEF, 0x01, 0xEF, 0x5B]]

/-- The matrix `RS` (41 R187), by rows. -/
def rsMatrix : Vector (Vector Byte 8) 4 :=
  #v[#v[0x01, 0xA4, 0x55, 0x87, 0x5A, 0x58, 0xDB, 0x9E],
     #v[0xA4, 0x56, 0x82, 0xF3, 0x1E, 0xC6, 0x68, 0xE5],
     #v[0x02, 0xA1, 0xFC, 0xC1, 0x47, 0xAE, 0x3D, 0x19],
     #v[0xA4, 0x55, 0x87, 0x5A, 0x58, 0xDB, 0x9E, 0x03]]

/-- One row of a matrix times a column of bytes over GF(2^8), modulo the polynomial `p`. -/
def gfDot {n : Nat} (p : BitVec 9) (row col : Vector Byte n) : Byte :=
  (List.finRange n).foldl (fun z j => z ^^^ gfMul (row.get j) (col.get j) p) 0

/-- `mds(y)` (41 R186). -/
def mds (y : Vector Byte 4) : Word := laneWord (tabulate fun i => gfDot gfPoly (mdsMatrix.get i) y)

/-- The RS projection of one 8-byte key chunk (41 R188). -/
def rsProject (chunk : Vector Byte 8) : Word :=
  laneWord (tabulate fun i => gfDot rsPoly (rsMatrix.get i) chunk)

/-- A vector of `k` words, `k` in {2, 3, 4}: the key argument of `hq` (41 R191). -/
inductive KeyVec where
  | k2 (l0 l1 : Word)
  | k3 (l0 l1 l2 : Word)
  | k4 (l0 l1 l2 l3 : Word)
  deriving DecidableEq, Repr

/-- `k` words as a key vector, `k` in {2, 3, 4} (41 R180). -/
def keyVec : List Word → Option KeyVec
  | [l0, l1] => some (.k2 l0 l1)
  | [l0, l1, l2] => some (.k3 l0 l1 l2)
  | [l0, l1, l2, l3] => some (.k4 l0 l1 l2 l3)
  | _ => none

/-- `L[0]`, which every key length has. -/
def keyWord0 : KeyVec → Word
  | .k2 l0 _ | .k3 l0 _ _ | .k4 l0 _ _ _ => l0

/-- `L[1]`, which every key length has. -/
def keyWord1 : KeyVec → Word
  | .k2 _ l1 | .k3 _ l1 _ | .k4 _ l1 _ _ => l1

/-- The layer of 41 R191 that only `k` = 4 has. -/
def hqLayer4 (l : KeyVec) (y : Vector Byte 4) : Vector Byte 4 :=
  match l with
  | .k4 _ _ _ l3 =>
    #v[q1 y[0] ^^^ lane l3 0, q0 y[1] ^^^ lane l3 1, q0 y[2] ^^^ lane l3 2, q1 y[3] ^^^ lane l3 3]
  | .k3 _ _ _ | .k2 _ _ => y

/-- The layer of 41 R191 that `k` = 3 and `k` = 4 have. -/
def hqLayer3 (l : KeyVec) (y : Vector Byte 4) : Vector Byte 4 :=
  match l with
  | .k4 _ _ l2 _ | .k3 _ _ l2 =>
    #v[q1 y[0] ^^^ lane l2 0, q1 y[1] ^^^ lane l2 1, q0 y[2] ^^^ lane l2 2, q0 y[3] ^^^ lane l2 3]
  | .k2 _ _ => y

/-- The last two layers of 41 R191, which every key length has. -/
def hqLayer2 (l0 l1 : Word) (y : Vector Byte 4) : Vector Byte 4 :=
  #v[q1 (q0 (q0 y[0] ^^^ lane l1 0) ^^^ lane l0 0),
     q0 (q0 (q1 y[1] ^^^ lane l1 1) ^^^ lane l0 1),
     q1 (q1 (q0 y[2] ^^^ lane l1 2) ^^^ lane l0 2),
     q0 (q1 (q1 y[3] ^^^ lane l1 3) ^^^ lane l0 3)]

/-- `hq(X, L)` (41 R191): the four pre-MDS lanes. -/
def hq (x : Word) (l : KeyVec) : Vector Byte 4 :=
  hqLayer2 (keyWord0 l) (keyWord1 l)
    (hqLayer3 l (hqLayer4 l #v[lane x 0, lane x 1, lane x 2, lane x 3]))

/-- `h(X, L) = mds(hq(X, L))` (41 R192). -/
def hWord (x : Word) (l : KeyVec) : Word := mds (hq x l)

/-- The pair `K[2i]`, `K[2i+1]` (41 R193). -/
def roundKeyPair (me mo : KeyVec) (i : Nat) : Word × Word :=
  let a := hWord (timesRho (BitVec.ofNat 8 (2 * i))) me
  let b := rot (hWord (timesRho (BitVec.ofNat 8 (2 * i + 1))) mo) 8
  let pq := pht a b
  (pq.1, rot pq.2 9)

/-- The forty round-key words (41 R193). -/
def roundKeys (me mo : KeyVec) : Vector Word 40 :=
  tabulate fun m =>
    let pair := roundKeyPair me mo (m.val / 2)
    if m.val % 2 = 0 then pair.1 else pair.2

/-- The four key-dependent S-boxes, the pre-MDS bytes (41 R194; 90 C4). -/
def keySBoxes (svec : KeyVec) : Vector (Vector Byte 256) 4 :=
  tabulate fun i => tabulate fun x : Fin 256 => (hq (timesRho (BitVec.ofFin x)) svec).get i

/-- The words at the even positions: `Me` (41 R190). -/
def evens : List Word → List Word
  | [] => []
  | [w] => [w]
  | w :: _ :: rest => w :: evens rest

/-- The words at the odd positions: `Mo` (41 R190). -/
def odds : List Word → List Word
  | [] => []
  | [_] => []
  | _ :: w :: rest => w :: odds rest

/-- The RS projections of a key's 8-byte chunks, in key order: `Sw_0`, `Sw_1`, … (41 R188). -/
def rsWords : List Byte → List Word
  | b0 :: b1 :: b2 :: b3 :: b4 :: b5 :: b6 :: b7 :: rest =>
    rsProject #v[b0, b1, b2, b3, b4, b5, b6, b7] :: rsWords rest
  | _ => []

/-- The schedule of Cipher A (10 R41). -/
structure ScheduleA where
  k : Vector Word 40
  sb : Vector (Vector Byte 256) 4
  deriving DecidableEq, Repr

/-- The Cipher A schedule derivation (41 R200). A key whose length is not 16, 24 or 32 bytes never reaches it
(41 R180, R201); DESIGN CHOICE: on every such key, also one of 20 or 28 bytes, it is refused, `none`
(notes/assumptions/12). -/
def deriveA (key : List Byte) : Option ScheduleA :=
  if key.length = 16 ∨ key.length = 24 ∨ key.length = 32 then do
    let m ← bytesToWords key
    let me ← keyVec (evens m)
    let mo ← keyVec (odds m)
    let svec ← keyVec (rsWords key).reverse
    return ⟨roundKeys me mo, keySBoxes svec⟩
  else none

/-- `g(X)` (42 R220). -/
def gWord (sb : Vector (Vector Byte 256) 4) (x : Word) : Word :=
  mds (tabulate fun i => (sb.get i).get (lane x i).toFin)

/-- The four words `w0..w3` of the Cipher A engine (10 R45). -/
structure Words4 where
  w0 : Word
  w1 : Word
  w2 : Word
  w3 : Word
  deriving DecidableEq, Repr

/-- Whitening with four key words (42 R222, R223). -/
def whiten (k0 k1 k2 k3 : Word) (w : Words4) : Words4 :=
  ⟨w.w0 ^^^ k0, w.w1 ^^^ k1, w.w2 ^^^ k2, w.w3 ^^^ k3⟩

/-- `(w0, w1, w2, w3) <- (w2, w3, w0, w1)` (42 R222). -/
def swapHalves (w : Words4) : Words4 := ⟨w.w2, w.w3, w.w0, w.w1⟩

/-- `(f0, f1)` of a round (42 R222): `PHT` of `g(w0)` and `g(rot(w1, 8))`. -/
def roundF (sb : Vector (Vector Byte 256) 4) (w : Words4) : Word × Word :=
  pht (gWord sb w.w0) (gWord sb (rot w.w1 8))

/-- The update of `w2` and `w3` in encryption round `r` (42 R222). -/
def mixEncA (s : ScheduleA) (r : Fin 16) (w : Words4) : Words4 :=
  let f := roundF s.sb w
  { w with
    w2 := rot (w.w2 ^^^ (f.1 + s.k[2 * r.val + 8])) (-1)
    w3 := rot w.w3 1 ^^^ (f.2 + s.k[2 * r.val + 9]) }

/-- The update of `w2` and `w3` in decryption round `r` (42 R223; 90 C3). -/
def mixDecA (s : ScheduleA) (r : Fin 16) (w : Words4) : Words4 :=
  let f := roundF s.sb w
  { w with
    w2 := rot w.w2 1 ^^^ (f.1 + s.k[2 * r.val + 8])
    w3 := rot (w.w3 ^^^ (f.2 + s.k[2 * r.val + 9])) (-1) }

/-- Encryption round `r`: the mix, then the swap, except after the last round (42 R222). -/
def roundEncA (s : ScheduleA) (r : Fin 16) (w : Words4) : Words4 :=
  let w := mixEncA s r w
  if r = 15 then w else swapHalves w

/-- Decryption round `r`: the swap undone, except for round 15, then the mix (42 R223). -/
def roundDecA (s : ScheduleA) (r : Fin 16) (w : Words4) : Words4 :=
  mixDecA s r (if r = 15 then w else swapHalves w)

/-- `EA` on the four words of a block (42 R222). -/
def encWordsA (s : ScheduleA) (w : Words4) : Words4 :=
  let w := whiten s.k[0] s.k[1] s.k[2] s.k[3] w
  let w := (List.finRange 16).foldl (fun w r => roundEncA s r w) w
  whiten s.k[4] s.k[5] s.k[6] s.k[7] w

/-- `DA` on the four words of a block (42 R223). -/
def decWordsA (s : ScheduleA) (w : Words4) : Words4 :=
  let w := whiten s.k[4] s.k[5] s.k[6] s.k[7] w
  let w := (List.finRange 16).reverse.foldl (fun w r => roundDecA s r w) w
  whiten s.k[0] s.k[1] s.k[2] s.k[3] w

/-- A transform of four words as a transform of a 16-byte block, big-endian (20 R75). A sequence of
another length is refused: no bytes come out (42 R225; notes/assumptions/12). -/
def onWords (f : Words4 → Words4) (b : List Byte) : List Byte :=
  match bytesToWords b with
  | some [w0, w1, w2, w3] =>
    let w := f ⟨w0, w1, w2, w3⟩
    wordsToBytes [w.w0, w.w1, w.w2, w.w3]
  | _ => []

/-- `EA(B)` (42 R222). -/
def encA (s : ScheduleA) (b : List Byte) : List Byte := onWords (encWordsA s) b

/-- `DA(B)` (42 R223). -/
def decA (s : ScheduleA) (b : List Byte) : List Byte := onWords (decWordsA s) b

end Sys2Proof.Machine
end

