-- ==== Sys2Proof/Machine/CipherB.lean ====
section
/-! DEFINITION. Cipher B (MacGuffin-style): its constant tables, key schedule (spec 43) and block engine
(spec 44). Everything takes the open S-boxes `MCG_SBOX` (44 R272) as an argument. -/

namespace Sys2Proof.Machine

/-- `MCG_SBOX`: eight S-boxes of 64 two-bit entries (44 R272). -/
abbrev SBoxes := Vector (Vector (BitVec 2) 64) 8

/-- The four registers `r0..r3` of the Cipher B engine (44 R270). -/
abbrev Regs := Vector Half 4

/-- A table of 96 round-key words (43 R252, 10 R42). -/
abbrev TableB := Vector Half 96

/-- `SBITS` (44 R271): the six input bit positions of each S-box. -/
def sbits : Vector (Vector Nat 6) 8 :=
  #v[#v[2, 5, 6, 9, 11, 13],
     #v[1, 4, 7, 10, 8, 14],
     #v[3, 6, 8, 13, 0, 15],
     #v[12, 14, 1, 2, 4, 10],
     #v[0, 10, 3, 14, 6, 12],
     #v[7, 8, 12, 15, 1, 5],
     #v[9, 15, 5, 11, 2, 7],
     #v[11, 13, 0, 4, 3, 9]]

/-- `LMASK` (44 R273): the lookup masks of each slice for `a`, `b`, `c`. -/
def lmask : Vector (Vector Half 3) 4 :=
  #v[#v[0x0036, 0x06C0, 0x6900],
     #v[0x5048, 0x2106, 0x8411],
     #v[0x8601, 0x4828, 0x10C4],
     #v[0x2980, 0x9011, 0x022A]]

/-- `OMASK` (44 R273): the output mask of each slice. -/
def omask : Vector Half 4 := #v[0x000F, 0x00F0, 0x3300, 0xCC00]

/-- `v_s(i)` (44 R274): the six index bits that S-box `s` reads. -/
def sboxInput (s : Fin 8) (i : Half) : BitVec 6 :=
  (List.finRange 6).foldl
    (fun v p => v ||| (BitVec.ofBool (i.getLsbD ((sbits.get s).get p))).setWidth 6 <<< p.val) 0

/-- `STABLE[i]` (44 R274), computed from the S-boxes. -/
def stable (sb : SBoxes) (i : Half) : Half :=
  (List.finRange 8).foldl
    (fun v s => v ||| ((sb.get s).get (sboxInput s i).toFin).setWidth 16 <<< (2 * s.val)) 0

/-- The table index of slice `t` (44 R275). -/
def sliceIndex (t : Fin 4) (a b c : Half) : Half :=
  a &&& (lmask.get t)[0] ||| b &&& (lmask.get t)[1] ||| c &&& (lmask.get t)[2]

/-- `F(a, b, c)` (44 R275). -/
def fB (sb : SBoxes) (a b c : Half) : Half :=
  (List.finRange 4).foldl (fun res t => res ||| omask.get t &&& stable sb (sliceIndex t a b c)) 0

/-- The register that sub-round `s` updates: `d = s mod 4` (44 R277). -/
def updatedReg (s : Fin 32) : Fin 4 := Fin.ofNat 4 s.val

/-- What sub-round `s` exclusive-ors into its register: `F` of the three other registers, each keyed with
one word (44 R277; 90 C1). -/
def subRoundF (sb : SBoxes) (ek : TableB) (s : Fin 32) (r : Regs) : Half :=
  let d := updatedReg s
  fB sb (r.get (d + 1) ^^^ ek[3 * s.val]) (r.get (d + 2) ^^^ ek[3 * s.val + 1])
    (r.get (d + 3) ^^^ ek[3 * s.val + 2])

/-- Sub-round `s` (44 R277). -/
def subRound (sb : SBoxes) (ek : TableB) (s : Fin 32) (r : Regs) : Regs :=
  let d := updatedReg s
  r.set d.val (r.get d ^^^ subRoundF sb ek s r)

/-- `EB` on the four registers: the sub-rounds in order (44 R277). -/
def encRegsB (sb : SBoxes) (ek : TableB) (r : Regs) : Regs :=
  (List.finRange 32).foldl (fun r s => subRound sb ek s r) r

/-- `DB` on the four registers: the sub-rounds in reverse order (44 R278). -/
def decRegsB (sb : SBoxes) (ek : TableB) (r : Regs) : Regs :=
  (List.finRange 32).reverse.foldl (fun r s => subRound sb ek s r) r

/-- A transform of four registers as a transform of an 8-byte block, in little-endian pairs (20 R78). A
sequence of another length is refused: no bytes come out (44 R281; notes/assumptions/12). -/
def onRegs (f : Regs → Regs) (b : List Byte) : List Byte :=
  match pairsToHalves b with
  | some [r0, r1, r2, r3] => halvesToPairs (f #v[r0, r1, r2, r3]).toList
  | _ => []

/-- `EB(B, ek)` (44 R277). -/
def encB (sb : SBoxes) (ek : TableB) (b : List Byte) : List Byte := onRegs (encRegsB sb ek) b

/-- `DB(B, ek)` (44 R278). -/
def decB (sb : SBoxes) (ek : TableB) (b : List Byte) : List Byte := onRegs (decRegsB sb ek) b

/-- The two halves and the table while the schedule is built: the half being encrypted in place, and the
working table (43 R252, R254). -/
structure BuilderB where
  blk : Regs
  ek : TableB
  deriving DecidableEq, Repr

/-- Iteration `j` of the bootstrap (43 R252, R253): encrypt the half in place under the working table,
then fold the first three pairs of the result into `ek[3j..3j+3)`. -/
def bootstrapStep (sb : SBoxes) (st : BuilderB) (j : Fin 32) : BuilderB :=
  let blk := encRegsB sb st.ek st.blk
  let ek := st.ek.set (3 * j.val) (st.ek[3 * j.val] ^^^ blk[0])
  let ek := ek.set (3 * j.val + 1) (ek[3 * j.val + 1] ^^^ blk[1])
  let ek := ek.set (3 * j.val + 2) (ek[3 * j.val + 2] ^^^ blk[2])
  ⟨blk, ek⟩

/-- The 32 iterations of one half, from the working table the earlier half left (43 R252, R253). -/
def bootstrapHalf (sb : SBoxes) (ek : TableB) (half : Regs) : TableB :=
  ((List.finRange 32).foldl (bootstrapStep sb) ⟨half, ek⟩).ek

/-- The Cipher B schedule derivation (43 R252): `k0`, then `k1`, from an all-zero working table. A key that
is not 16 bytes never reaches it (43 R250); DESIGN CHOICE: on such a key it is refused, `none`
(notes/assumptions/12). -/
def deriveB (sb : SBoxes) (key : List Byte) : Option TableB :=
  match pairsToHalves key with
  | some [a0, a1, a2, a3, b0, b1, b2, b3] =>
    some (bootstrapHalf sb (bootstrapHalf sb (Vector.replicate 96 0) #v[a0, a1, a2, a3]) #v[b0, b1, b2, b3])
  | _ => none

end Sys2Proof.Machine
end

