-- ==== Sys2Proof/Config.lean ====
section
/-! DEFINITION. What the spec leaves to the implementation or to the outside: free values, each an
opaque constant, so that nothing proved of the model rests on one of them. -/

namespace Sys2Proof

/-- The OPEN parameter `MCG_SBOX` (44 R272, 00 R12, 92 D13): entry `v` of S-box `s`, a 2-bit value. Free
value, notes/assumptions/7. -/
opaque Config.mcgSbox : Vector (Vector (BitVec 2) 64) 8

/-- Byte `n` of the random source `RND`, counted from reset (00 R11: a draw, any values, under no law).
Free value, notes/assumptions/6. -/
opaque Config.rndByte : Nat → BitVec 8

/-- What `CHAIN` holds after the `n`-th reset: unspecified (10 R40, R50; 70 R451). Free value,
notes/assumptions/4. -/
opaque Config.resetChain : Nat → Vector (BitVec 8) 16

/-- What `K` holds after the `n`-th reset: unspecified (10 R41, R50; 70 R451). Free value,
notes/assumptions/4. -/
opaque Config.resetK : Nat → Vector (BitVec 32) 40

/-- What `SB` holds after the `n`-th reset: unspecified (10 R41, R50; 70 R451). Free value,
notes/assumptions/4. -/
opaque Config.resetSB : Nat → Vector (Vector (BitVec 8) 256) 4

/-- What `EK` holds after the `n`-th reset: unspecified (10 R42, R50; 70 R451). Free value,
notes/assumptions/4. -/
opaque Config.resetEK : Nat → Vector (BitVec 16) 96

end Sys2Proof
end

