-- ==== Sys2Proof/Syntax.lean ====
section
/-! DEFINITION. The commands of the CORE: the thirteen operations with their operands (30 R105), the
transaction a host sends (30 R100), and the operation codes. -/

namespace Sys2Proof

/-- A command with its operands (30 R104, R105, R109): one constructor per row of the opcode table.
`sel` is the `SEL` field where the row makes it a field; a byte list is the command's `DIN`, whose
length is `LEN` (30 R102). -/
inductive Instr where
  | selfam (sel : Byte)
  | setkey (key : List Byte)
  | setmode (sel : Byte)
  | setpad (sel : Byte)
  | setiv (iv : List Byte)
  | rdreg (sel : Byte)
  | encb (block : List Byte)
  | decb (block : List Byte)
  | encm (msg : List Byte)
  | decm (text : List Byte)
  | gfmul (a b : Byte)
  | rot (sel : Byte) (x : Word)
  | pht (a b : Word)
  deriving DecidableEq, Repr

/-- The operation codes of 30 R105, by name. -/
inductive Opcode where
  | selfam | setkey | setmode | setpad | setiv | rdreg | encb | decb | encm | decm | gfmul | rot | pht
  deriving DecidableEq, Repr

/-- One transaction of the host (00 R9, 30 R100): the command word `CW`, the length word `LEN` where
the host sent one, and the bytes `DIN`. -/
structure Command where
  cw : Word
  len : Option Word
  din : List Byte
  deriving DecidableEq, Repr

end Sys2Proof
end

