-- ==== Sys2Proof/WellFormed.lean ====
section
/-! DEFINITION. Which instructions can be sent at all: those whose data fits the 32-bit `LEN`. -/

namespace Sys2Proof

/-- `LEN_MAX` (00 R12, 30 R102). -/
def lenMax : Nat := 2 ^ 32 - 1

/-- A byte sequence that a `LEN` word can count (30 R102). -/
def fitsLen (din : List Byte) : Bool := decide (din.length ≤ lenMax)

/-- An instruction the host can send: its `DIN` is at most `LEN_MAX` bytes (30 R102). A selector out of
its legal range is well formed: the command runs and reports its error (30 R104). -/
def Instr.wf : Instr → Bool
  | .selfam _ => true
  | .setkey key => fitsLen key
  | .setmode _ => true
  | .setpad _ => true
  | .setiv iv => fitsLen iv
  | .rdreg _ => true
  | .encb block => fitsLen block
  | .decb block => fitsLen block
  | .encm msg => fitsLen msg
  | .decm text => fitsLen text
  | .gfmul _ _ => true
  | .rot _ _ => true
  | .pht _ _ => true

end Sys2Proof
end

