-- ==== Sys2Proof/Decode.lean ====
section
/-! DEFINITION. Decoding a host transaction, from words (30 R100 to R107) and from bytes (30 R101), the
encoder, and the opcode table's view of both. -/

namespace Sys2Proof

/-- Why a transaction is not a command: the first three are the illegal command words of 30 R106 and
R107, which raise `UnsupportedCommand`; the others break the framing of 30 R102 and R103, by which the
host has issued no command (60 R446). -/
inductive DecodeError where
  /-- `RSV` (bits 31:16) is not 0. -/
  | reservedBitsSet
  /-- `OPC` is no operation code of 30 R105. -/
  | unknownOpcode
  /-- `SEL` is not 0 where 30 R105 says 0. -/
  | selectorNotZero
  /-- `LEN` is absent where 30 R102 requires it. -/
  | lenMissing
  /-- `LEN` is present where 30 R102 has none. -/
  | lenUnexpected
  /-- `DIN` has not the length of 30 R103. -/
  | dinLengthWrong
  /-- A byte stream ends inside the command. -/
  | truncated
  deriving DecidableEq, Repr

/-- The command word itself is illegal (30 R106, R107): the CORE reports `UnsupportedCommand`. -/
def DecodeError.illegal : DecodeError → Bool
  | .reservedBitsSet | .unknownOpcode | .selectorNotZero => true
  | .lenMissing | .lenUnexpected | .dinLengthWrong | .truncated => false

/-- The `OPC` byte of each operation (30 R105). -/
def Opcode.byte : Opcode → Byte
  | .selfam => 0x01
  | .setkey => 0x02
  | .setmode => 0x03
  | .setpad => 0x04
  | .setiv => 0x05
  | .rdreg => 0x06
  | .encb => 0x10
  | .decb => 0x11
  | .encm => 0x20
  | .decm => 0x21
  | .gfmul => 0x30
  | .rot => 0x31
  | .pht => 0x32

/-- Every operation, in the opcode table's order. -/
def Opcode.all : List Opcode :=
  [.selfam, .setkey, .setmode, .setpad, .setiv, .rdreg, .encb, .decb, .encm, .decm, .gfmul, .rot, .pht]

/-- The operation an `OPC` byte names, if any (30 R105, R107). -/
def Opcode.ofByte (b : Byte) : Option Opcode := Opcode.all.find? fun op => op.byte == b

/-- `SEL` is a field of the command, not required to be 0 (30 R104). -/
def Opcode.selIsField : Opcode → Bool
  | .selfam | .setmode | .setpad | .rdreg | .rot => true
  | .setkey | .setiv | .encb | .decb | .encm | .decm | .gfmul | .pht => false

/-- `LEN` is present (30 R102). -/
def Opcode.hasLen : Opcode → Bool
  | .setkey | .setiv | .encb | .decb | .encm | .decm => true
  | .selfam | .setmode | .setpad | .rdreg | .gfmul | .rot | .pht => false

/-- The number of `DIN` bytes, given `LEN` where it is present (30 R103). -/
def Opcode.dinLen : Opcode → Nat → Nat
  | .setkey, len | .setiv, len | .encb, len | .decb, len | .encm, len | .decm, len => len
  | .selfam, _ | .setmode, _ | .setpad, _ | .rdreg, _ => 0
  | .gfmul, _ => 2
  | .rot, _ => 4
  | .pht, _ => 8

/-- The operation of an instruction. -/
def Instr.opcode : Instr → Opcode
  | .selfam _ => .selfam
  | .setkey _ => .setkey
  | .setmode _ => .setmode
  | .setpad _ => .setpad
  | .setiv _ => .setiv
  | .rdreg _ => .rdreg
  | .encb _ => .encb
  | .decb _ => .decb
  | .encm _ => .encm
  | .decm _ => .decm
  | .gfmul _ _ => .gfmul
  | .rot _ _ => .rot
  | .pht _ _ => .pht

/-- The `SEL` field of an instruction: its selector or amount, 0 where there is none (30 R104). -/
def Instr.sel : Instr → Byte
  | .selfam sel | .setmode sel | .setpad sel | .rdreg sel | .rot sel _ => sel
  | .setkey _ | .setiv _ | .encb _ | .decb _ | .encm _ | .decm _ | .gfmul _ _ | .pht _ _ => 0

/-- The `DIN` bytes of an instruction (30 R109). -/
def Instr.din : Instr → List Byte
  | .selfam _ | .setmode _ | .setpad _ | .rdreg _ => []
  | .setkey din | .setiv din | .encb din | .decb din | .encm din | .decm din => din
  | .gfmul a b => [a, b]
  | .rot _ x => Machine.wordsToBytes [x]
  | .pht a b => Machine.wordsToBytes [a, b]

/-- `OPC` = bits 7:0 (30 R100). -/
def Command.opc (c : Command) : Byte := c.cw.extractLsb' 0 8

/-- `SEL` = bits 15:8 (30 R100). -/
def Command.sel (c : Command) : Byte := c.cw.extractLsb' 8 8

/-- `RSV` = bits 31:16 (30 R100). -/
def Command.rsv (c : Command) : Half := c.cw.extractLsb' 16 16

/-- The command word of an operation and a selector: `(SEL << 8) | OPC`, `RSV` 0 (30 R100, R111). -/
def commandWord (op : Opcode) (sel : Byte) : Word := sel.setWidth 32 <<< 8 ||| op.byte.setWidth 32

/-- The operands of a command whose word is legal and whose framing is right (30 R104, R105, R109). -/
def operands (op : Opcode) (sel : Byte) (din : List Byte) : Except DecodeError Instr :=
  match op, din with
  | .selfam, [] => .ok (.selfam sel)
  | .setkey, _ => .ok (.setkey din)
  | .setmode, [] => .ok (.setmode sel)
  | .setpad, [] => .ok (.setpad sel)
  | .setiv, _ => .ok (.setiv din)
  | .rdreg, [] => .ok (.rdreg sel)
  | .encb, _ => .ok (.encb din)
  | .decb, _ => .ok (.decb din)
  | .encm, _ => .ok (.encm din)
  | .decm, _ => .ok (.decm din)
  | .gfmul, [a, b] => .ok (.gfmul a b)
  | .rot, [b0, b1, b2, b3] => .ok (.rot sel (Machine.beWord b0 b1 b2 b3))
  | .pht, [a0, a1, a2, a3, b0, b1, b2, b3] =>
    .ok (.pht (Machine.beWord a0 a1 a2 a3) (Machine.beWord b0 b1 b2 b3))
  | _, _ => .error .dinLengthWrong

/-- The decode checks on the command word alone (60 R420 step 0; 30 R106, R107): its operation. -/
def decodeWord (c : Command) : Except DecodeError Opcode :=
  if c.rsv ≠ 0 then .error .reservedBitsSet
  else
    match Opcode.ofByte c.opc with
    | none => .error .unknownOpcode
    | some op => if !op.selIsField && c.sel != 0 then .error .selectorNotZero else .ok op

/-- Whether the host framed the transaction as 30 R102 and R103 require for the operation. -/
def checkFraming (op : Opcode) (c : Command) : Except DecodeError Unit :=
  match c.len, op.hasLen with
  | none, true => .error .lenMissing
  | some _, false => .error .lenUnexpected
  | none, false => if c.din.length = op.dinLen 0 then .ok () else .error .dinLengthWrong
  | some n, true => if c.din.length = op.dinLen n.toNat then .ok () else .error .dinLengthWrong

/-- Decoding a transaction (30 R100 to R107): the command word first (an illegal word is illegal whatever
`LEN` and `DIN` came with it, 30 R108), then the framing, then the operands. -/
def decode (c : Command) : Except DecodeError Instr :=
  match decodeWord c with
  | .error e => .error e
  | .ok op =>
    match checkFraming op c with
    | .error e => .error e
    | .ok () => operands op c.sel c.din

/-- The transaction of an instruction: its command word, its `LEN` where it has one, its `DIN`. -/
def encode (i : Instr) : Command where
  cw := commandWord i.opcode i.sel
  len := if i.opcode.hasLen then some (BitVec.ofNat 32 i.din.length) else none
  din := i.din

/-- The number of `DIN` bytes of the command whose operation code is `opc` (30 R103); none for an
unknown code (notes/assumptions/13). -/
def streamDinLen (opc : Byte) (len : Nat) : Nat :=
  match Opcode.ofByte opc with
  | none => 0
  | some op => op.dinLen len

/-- Whether a `LEN` word follows the command word, from `OPC` alone (30 R102). -/
def streamHasLen (opc : Byte) : Bool :=
  match Opcode.ofByte opc with
  | none => false
  | some op => op.hasLen

/-- A transaction as bytes: command word, `LEN` where present, both most significant byte first, then
`DIN` (30 R101). -/
def Command.toBytes (c : Command) : List Byte :=
  Machine.wordBytes c.cw ++ (match c.len with | none => [] | some n => Machine.wordBytes n) ++ c.din

/-- The `DIN` of a command at the front of a byte stream, and the bytes after it. -/
def takeDin (cw : Word) (len : Option Word) (n : Nat) (bs : List Byte) :
    Except DecodeError (Command × List Byte) :=
  if n ≤ bs.length then .ok (⟨cw, len, bs.take n⟩, bs.drop n) else .error .truncated

/-- The transaction at the front of a byte stream, and the bytes after it: its length follows from
`OPC` alone, and from `LEN` where `OPC` has one (30 R101, R102). -/
def splitCommand : List Byte → Except DecodeError (Command × List Byte)
  | c0 :: c1 :: c2 :: opc :: rest =>
    let cw := Machine.beWord c0 c1 c2 opc
    if streamHasLen opc then
      match rest with
      | l0 :: l1 :: l2 :: l3 :: rest' =>
        let len := Machine.beWord l0 l1 l2 l3
        takeDin cw (some len) (streamDinLen opc len.toNat) rest'
      | _ => .error .truncated
    else takeDin cw none (streamDinLen opc 0) rest
  | _ => .error .truncated

/-- Decoding the command at the front of a byte stream, with the bytes after it. -/
def decodeBytes (bs : List Byte) : Except DecodeError (Instr × List Byte) :=
  match splitCommand bs with
  | .error e => .error e
  | .ok (c, rest) =>
    match decode c with
    | .error e => .error e
    | .ok i => .ok (i, rest)

/-- An instruction as bytes (30 R101). -/
def encodeBytes (i : Instr) : List Byte := (encode i).toBytes

/-- Word `k` of an instruction whose bits are `w`, numbered as the opcode table numbers them. -/
def tableWord (w k : Nat) : Word := BitVec.ofNat 32 (w >>> (32 * k))

/-- The bytes of an instruction whose `nbits` bits are `w`, every bit above them 0: whole words, each
most significant byte first, at least three of them (the longest fixed-length command), then as many
zero bytes as its `LEN` counts. -/
def tableBytes (nbits w : Nat) : List Byte :=
  let v := w % 2 ^ nbits
  let words := (List.range (max 3 ((nbits + 31) / 32))).map (tableWord v)
  Machine.wordsToBytes words ++
    List.replicate (if streamHasLen (BitVec.ofNat 8 v) then (tableWord v 1).toNat else 0) 0

/-- The transaction of an instruction whose bits are `w` (see `tableBytes`). -/
def tableCommand (nbits w : Nat) : Option Command :=
  match splitCommand (tableBytes nbits w) with
  | .ok (c, _) => some c
  | .error _ => none

/-- The instruction the decoder reads from an instruction whose bits are `w`. -/
def decodeTableWord (nbits w : Nat) : Option Instr :=
  match decodeBytes (tableBytes nbits w) with
  | .ok (i, _) => some i
  | .error _ => none

end Sys2Proof
end

