-- ==== Sys2Proof/Machine/State.lean ====
section
/-! DEFINITION. The state of the CORE (spec 10) with the transactions of its host (00 R9, 60 R446), the
state after reset (70 R451), and the reasons a step can stop. -/

namespace Sys2Proof.Machine

/-- The cipher families `FAMILY` can hold (10 R31). -/
inductive Family where
  | a | b
  deriving DecidableEq, Repr

/-- The chaining modes `MODE` can hold (10 R32). -/
inductive Mode where
  | ecb | cbc | pcbc | cfb | ofb | ctr
  deriving DecidableEq, Repr

/-- The padding schemes `PAD` can hold (10 R33). -/
inductive Padding where
  | zeros | ansix923 | pkcs7 | iso10126
  deriving DecidableEq, Repr

/-- The outcomes of a command, which `ERR` and the status byte report (60 R400). -/
inductive Status where
  | ok
  | invalidKeyLength
  | invalidIvLength
  | missingIv
  | misalignedCiphertext
  | unsupportedMode
  | unsupportedPadding
  | paddingValidationFailed
  | missingKey
  | invalidBlockLength
  | unsupportedCommand
  | unsupportedFamily
  deriving DecidableEq, Repr

/-- What the CORE returns for a command: the status byte and `DOUT` (00 R9, 60 R446). -/
structure Response where
  status : Status
  dout : List Byte
  deriving DecidableEq, Repr

/-- What the host can do to the CORE: assert reset between commands (70 R450) or issue a command
(60 R446). -/
inductive HostAction where
  | reset
  | command (c : Command)
  deriving DecidableEq, Repr

/-- The reasons a step stops the machine. -/
inductive Fault where
  /-- Raised by `step` when the host's next transaction is no command: its `LEN` or `DIN` is not framed as
  30 R102 and R103 require, so the host has issued no command and the model has no move (60 R446, 93 U9).
  Safe: the hardware's behaviour there is not claimed at all (notes/assumptions/3). -/
  | noCommand (why : DecodeError)
  deriving DecidableEq, Repr

/-- The reasons a step refuses an instruction. -/
inductive Refusal where
  /-- Raised by `exec` for an instruction that has no meaning yet. Safe. No arm of this model raises it. -/
  | notModelled (mnemonic : String)
  deriving DecidableEq, Repr

/-- The state of the CORE. The fields up to `mcgSbox` are the spec's (10 R30, R44); the others are the
model's own, for the host's transactions and the free values. -/
structure State where
  /-- `FAMILY` (10 R31). -/
  family : Family
  /-- `MODE` (10 R32). -/
  mode : Mode
  /-- `PAD` (10 R33). -/
  pad : Padding
  /-- `KEY_VALID`, bit 0 of `STATUS` (10 R34). -/
  keyValid : Bool
  /-- `IV_VALID`, bit 1 of `STATUS` (10 R34). -/
  ivValid : Bool
  /-- `ERR` (10 R35). -/
  err : Status
  /-- `KEYLEN` (10 R38). -/
  keyLen : Byte
  /-- `CHAIN` (10 R40). -/
  chain : Vector (BitVec 8) 16
  /-- `K` (10 R41). -/
  k : Vector (BitVec 32) 40
  /-- `SB` (10 R41). -/
  sb : Vector (Vector (BitVec 8) 256) 4
  /-- `EK` (10 R42). -/
  ek : Vector (BitVec 16) 96
  /-- The constant table `MCG_SBOX` (10 R44, 44 R272), which no step writes. -/
  mcgSbox : Vector (Vector (BitVec 2) 64) 8
  /-- What the host does next, the next action first (60 R446). -/
  pending : List HostAction
  /-- What the CORE has returned, oldest first (60 R446). -/
  responses : List Response
  /-- The `RND` bytes the host is known to supply next (00 R11, 60 R446). -/
  rnd : List Byte
  /-- The `RND` bytes drawn so far: the index of the next free draw. -/
  rndCount : Nat
  /-- The host's resets so far: the index of the next free reset values. -/
  resets : Nat
  deriving DecidableEq, Repr

/-- The CORE right after reset (70 R451), with nothing pending. What the spec leaves unspecified is a free
value (notes/assumptions/4, 7). -/
def State.reset : State where
  family := .a
  mode := .ecb
  pad := .zeros
  keyValid := false
  ivValid := false
  err := .ok
  keyLen := 0
  chain := Config.resetChain 0
  k := Config.resetK 0
  sb := Config.resetSB 0
  ek := Config.resetEK 0
  mcgSbox := Config.mcgSbox
  pending := []
  responses := []
  rnd := []
  rndCount := 0
  resets := 0

end Sys2Proof.Machine
end

