-- ==== Sys2Proof/Machine/Operands.lean ====
section
/-! DEFINITION. Operand forms: the selectors of 30 R104, the codes of the control registers (spec 10),
the status codes (60 R400), the lengths each family allows, and the register map of `RDREG`. -/

namespace Sys2Proof.Machine

/-- The 8-bit value of `FAMILY` (10 R31). -/
def familyCode : Family → Byte
  | .a => 0
  | .b => 1

/-- The family a selector names (30 R104). -/
def familyOfSel (sel : Byte) : Option Family := [Family.a, .b].find? fun f => familyCode f == sel

/-- The 8-bit value of `MODE` (10 R32). -/
def modeCode : Mode → Byte
  | .ecb => 0
  | .cbc => 1
  | .pcbc => 2
  | .cfb => 3
  | .ofb => 4
  | .ctr => 5

/-- The mode a selector names (30 R104). -/
def modeOfSel (sel : Byte) : Option Mode :=
  [Mode.ecb, .cbc, .pcbc, .cfb, .ofb, .ctr].find? fun m => modeCode m == sel

/-- The 8-bit value of `PAD` (10 R33). -/
def padCode : Padding → Byte
  | .zeros => 0
  | .ansix923 => 1
  | .pkcs7 => 2
  | .iso10126 => 3

/-- The padding scheme a selector names (30 R104). -/
def padOfSel (sel : Byte) : Option Padding :=
  [Padding.zeros, .ansix923, .pkcs7, .iso10126].find? fun p => padCode p == sel

/-- The status codes (60 R400). -/
def statusCode : Status → Byte
  | .ok => 0
  | .invalidKeyLength => 1
  | .invalidIvLength => 2
  | .missingIv => 3
  | .misalignedCiphertext => 4
  | .unsupportedMode => 5
  | .unsupportedPadding => 6
  | .paddingValidationFailed => 7
  | .missingKey => 8
  | .invalidBlockLength => 9
  | .unsupportedCommand => 10
  | .unsupportedFamily => 11

/-- `ROT`'s amount: `SEL` as `s8` (30 R104, 40 R161). -/
def rotAmount (sel : Byte) : Int := if sel.toNat ≥ 128 then (sel.toNat : Int) - 256 else sel.toNat

/-- `BS_A` = 16, `BS_B` = 8 (00 R12, R13). -/
def blockSize : Family → Nat
  | .a => 16
  | .b => 8

/-- `BS` of the CORE (00 R13). -/
def State.bs (s : State) : Nat := blockSize s.family

/-- `KEYLEN_A` = {16, 24, 32}, `KEYLEN_B` = {16} (00 R12). -/
def keyLengths : Family → List Nat
  | .a => [16, 24, 32]
  | .b => [16]

/-- The length check of `ENCB` (45 R315). -/
def encbLengthError (bs len : Nat) : Option Status :=
  if len = bs then none else some .invalidBlockLength

/-- The length checks of `DECB`, alignment first (45 R315, 60 R420). -/
def decbLengthError (bs len : Nat) : Option Status :=
  if len % bs ≠ 0 then some .misalignedCiphertext
  else if len = bs then none
  else some .invalidBlockLength

/-- The length check of `DECM` (45 R315). -/
def decmLengthError (bs len : Nat) : Option Status :=
  if len % bs = 0 then none else some .misalignedCiphertext

/-- The registers `RDREG` reads, by number (10 R31 to R38). -/
inductive Register where
  | family | mode | pad | status | err | bsize | keylen
  deriving DecidableEq, Repr

/-- The numbers of the control registers (10 R31 to R38). -/
def registerNumber : Register → Byte
  | .family => 0
  | .mode => 1
  | .pad => 2
  | .status => 3
  | .err => 4
  | .bsize => 5
  | .keylen => 6

/-- The register a selector names; numbers 7 to 255 name none (10 R39, 30 R104). -/
def registerOfSel (sel : Byte) : Option Register :=
  [Register.family, .mode, .pad, .status, .err, .bsize, .keylen].find? fun r => registerNumber r == sel

end Sys2Proof.Machine
end

