-- ==== Sys2Proof/Machine/Flags.lean ====
section
/-! DEFINITION. The flags `KEY_VALID` and `IV_VALID` (10 R34): the `STATUS` register, the value of every
control register, and the checks the flags decide (45 R313, R314, R316). -/

namespace Sys2Proof.Machine

/-- `STATUS`: bit 0 `KEY_VALID`, bit 1 `IV_VALID`, bits 7:2 zero (10 R34). -/
def State.statusByte (s : State) : Byte :=
  (BitVec.ofBool s.keyValid).setWidth 8 ||| (BitVec.ofBool s.ivValid).setWidth 8 <<< 1

/-- What `RDREG` reads of each register (45 R306). -/
def State.readReg (s : State) : Register → Byte
  | .family => familyCode s.family
  | .mode => modeCode s.mode
  | .pad => padCode s.pad
  | .status => s.statusByte
  | .err => statusCode s.err
  | .bsize => BitVec.ofNat 8 s.bs
  | .keylen => s.keyLen

/-- The modes that require an IV: every mode but ECB (45 R314). -/
def modeNeedsIv (m : Mode) : Bool := m != .ecb

/-- The IV a command needs is missing (45 R316). -/
def State.ivMissing (s : State) : Bool := modeNeedsIv s.mode && !s.ivValid

/-- The first error of a block or message command, in the order of 60 R420: the key (45 R313), the length
(45 R315), the IV (45 R316). -/
def State.cipherError (s : State) (lengthError : Option Status) : Option Status :=
  if s.keyValid then
    match lengthError with
    | some e => some e
    | none => if s.ivMissing then some .missingIv else none
  else some .missingKey

end Sys2Proof.Machine
end

