-- ==== Sys2Proof/Machine/Ops.lean ====
section
/-! DEFINITION. The named operations on the state: ending a command with success or with an error (60 R410
to R412), the chaining register, the key schedules, the random source, the host's queue and reset. -/

namespace Sys2Proof.Machine

/-- The CORE returns a status byte and `DOUT` (00 R9, 60 R446). -/
def State.respond (s : State) (status : Status) (dout : List Byte) : State :=
  { s with responses := s.responses ++ [⟨status, dout⟩] }

/-- The end of a command other than `RDREG` that succeeds: `ERR` 0, status 0, its `DOUT` (60 R411). -/
def State.finish (s : State) (dout : List Byte) : State := { s with err := .ok }.respond .ok dout

/-- `raise Err(code)` of a command other than `RDREG` (60 R410 to R412): `ERR` and the status byte are the
code, `DOUT` is empty. The state it is given is the state the command leaves. -/
def State.raise (s : State) (code : Status) : State := { s with err := code }.respond code []

/-- The chaining value `CH` = `CHAIN[0..BS)` (10 R40). -/
def State.ch (s : State) : List Byte := s.chain.toList.take s.bs

/-- The sequence `c` with the bytes of `v` written over its first `|v|` bytes. -/
def overlay : List Byte → List Byte → List Byte
  | _, [] => []
  | [], c => c
  | b :: v, _ :: c => b :: overlay v c

theorem overlay_length (v c : List Byte) : (overlay v c).length = c.length := by
  induction c generalizing v with
  | nil => cases v <;> rfl
  | cons x c ih => cases v <;> simp [overlay, ih]

/-- `CHAIN[i] <- v[i]` for every `i` below `|v|`; the bytes above are not written (45 R305). -/
def writeChain (chain : Vector (BitVec 8) 16) (v : List Byte) : Vector (BitVec 8) 16 :=
  ⟨(overlay v chain.toList).toArray, by simp [overlay_length]⟩

/-- `CH <- v` (45 R311). -/
def State.setCh (s : State) (v : List Byte) : State := { s with chain := writeChain s.chain v }

/-- `K`, `SB` and the flags of a derived Cipher A schedule (41 R200). -/
def State.bindA (s : State) (sch : ScheduleA) (len : Byte) : State :=
  { s with k := sch.k, sb := sch.sb, keyValid := true, keyLen := len }

/-- `EK` and the flags of a derived Cipher B schedule (43 R252). -/
def State.bindB (s : State) (ek : TableB) (len : Byte) : State :=
  { s with ek := ek, keyValid := true, keyLen := len }

/-- Deriving and binding the schedule of the current family (45 R302); `none` for a key length that the
family does not allow. -/
def State.bindKey (s : State) (key : List Byte) : Option State :=
  match s.family with
  | .a => (deriveA key).map fun sch => s.bindA sch (BitVec.ofNat 8 key.length)
  | .b => (deriveB s.mcgSbox key).map fun ek => s.bindB ek (BitVec.ofNat 8 key.length)

/-- Byte `i` of the next `RND` bytes: the host's known bytes first, then free values (00 R11). -/
def State.rndAt (s : State) (i : Nat) : Byte := s.rnd.getD i (Config.rndByte (s.rndCount + i))

/-- The bytes that `RndRead(n)` returns (00 R19). -/
def State.rndBytes (s : State) (n : Nat) : List Byte := (List.range n).map s.rndAt

/-- The state after `RndRead(n)`: `n` bytes consumed (20 R86). -/
def State.rndDrop (s : State) (n : Nat) : State :=
  { s with rnd := s.rnd.drop n, rndCount := s.rndCount + n }

/-- The host's next action taken off the queue. -/
def State.popAction (s : State) : State := { s with pending := s.pending.tail }

/-- The reset input (70 R450, R451): every register at its reset value, the unspecified ones at fresh
free values. The constant table, the host's queue, what the host has received and the random source are
not state of the CORE (10 R49) and stay. -/
def State.applyReset (s : State) : State :=
  { s with
    family := .a
    mode := .ecb
    pad := .zeros
    keyValid := false
    ivValid := false
    err := .ok
    keyLen := 0
    chain := Config.resetChain (s.resets + 1)
    k := Config.resetK (s.resets + 1)
    sb := Config.resetSB (s.resets + 1)
    ek := Config.resetEK (s.resets + 1)
    resets := s.resets + 1 }

end Sys2Proof.Machine
end

