-- ==== Sys2Proof/Machine/Modes.lean ====
section
/-! DEFINITION. The mode engine (45 R310 to R322): the block transforms of the session, and one block
step of each mode in each direction, as functions from the chaining value and the block to the output and
the next chaining value. -/

namespace Sys2Proof.Machine

/-- The capability set the modes are written against (45 R310): the block transforms `E` and `D`. -/
structure BlockEngine where
  enc : List Byte → List Byte
  dec : List Byte → List Byte

/-- `E` and `D` of the current family under its schedule (45 R310). -/
def State.engine (s : State) : BlockEngine :=
  match s.family with
  | .a => ⟨encA ⟨s.k, s.sb⟩, decA ⟨s.k, s.sb⟩⟩
  | .b => ⟨encB s.mcgSbox s.ek, decB s.mcgSbox s.ek⟩

/-- What a block step gives: the output block and the next chaining value. -/
structure BlockOut where
  out : List Byte
  ch : List Byte
  deriving DecidableEq, Repr

/-- `encStep(P)` from the chaining value `ch` (45 R311, R317 to R322). -/
def encStep (e : BlockEngine) (m : Mode) (ch p : List Byte) : BlockOut :=
  match m with
  | .ecb => ⟨e.enc p, ch⟩
  | .cbc => let c := e.enc (xorBytes p ch); ⟨c, c⟩
  | .pcbc => let c := e.enc (xorBytes p ch); ⟨c, xorBytes p c⟩
  | .cfb => let c := xorBytes p (e.enc ch); ⟨c, c⟩
  | .ofb => let o := e.enc ch; ⟨xorBytes p o, o⟩
  | .ctr => let o := e.enc ch; ⟨xorBytes p o, incBytes ch⟩

/-- `decStep(C)` from the chaining value `ch` (45 R312, R317 to R322). -/
def decStep (e : BlockEngine) (m : Mode) (ch c : List Byte) : BlockOut :=
  match m with
  | .ecb => ⟨e.dec c, ch⟩
  | .cbc => let p := xorBytes (e.dec c) ch; ⟨p, c⟩
  | .pcbc => let p := xorBytes (e.dec c) ch; ⟨p, xorBytes p c⟩
  | .cfb => let p := xorBytes c (e.enc ch); ⟨p, c⟩
  | .ofb => let o := e.enc ch; ⟨xorBytes c o, o⟩
  | .ctr => let o := e.enc ch; ⟨xorBytes c o, incBytes ch⟩

/-- The first `n` blocks of a sequence: `X[0..BS)`, `X[BS..2·BS)`, … (46 R360). -/
def chunks (bs : Nat) : Nat → List Byte → List (List Byte)
  | 0, _ => []
  | n + 1, x => x.take bs :: chunks bs n (x.drop bs)

/-- The blocks of a message: `|X| / BS` of them (46 R360, R361). -/
def blocksOf (bs : Nat) (x : List Byte) : List (List Byte) := chunks bs (x.length / bs) x

/-- A block step run over blocks in order, the chaining value carried along: all output bytes and the last
chaining value (46 R360, R361). -/
def runBlocks (step : List Byte → List Byte → BlockOut) : List Byte → List (List Byte) → BlockOut
  | ch, [] => ⟨[], ch⟩
  | ch, b :: rest =>
    let r := step ch b
    let t := runBlocks step r.ch rest
    ⟨r.out ++ t.out, t.ch⟩

end Sys2Proof.Machine
end

