-- ==== Sys2Proof/Machine/Block.lean ====
section
/-! DEFINITION. The single-block commands (45, part 4): `ENCB` and `DECB`. They never pad (92 D41). -/

namespace Sys2Proof.Machine

/-- `ENCB` (45 R330). -/
def execEncb (block : List Byte) (s : State) : Host.Outcome State Fault Refusal :=
  match s.cipherError (encbLengthError s.bs block.length) with
  | some e => .next (s.raise e)
  | none =>
    let r := encStep s.engine s.mode s.ch block
    .next ((s.setCh r.ch).finish r.out)

/-- `DECB` (45 R331). -/
def execDecb (block : List Byte) (s : State) : Host.Outcome State Fault Refusal :=
  match s.cipherError (decbLengthError s.bs block.length) with
  | some e => .next (s.raise e)
  | none =>
    let r := decStep s.engine s.mode s.ch block
    .next ((s.setCh r.ch).finish r.out)

end Sys2Proof.Machine
end

