-- ==== Sys2Proof/Machine/Diagnostic.lean ====
section
/-! DEFINITION. The diagnostic commands, which expose the primitives (40, part 2). They write `ERR` only. -/

namespace Sys2Proof.Machine

/-- `GFMUL` (40 R160). -/
def execGfmul (a b : Byte) (s : State) : Host.Outcome State Fault Refusal :=
  .next (s.finish [multiplyGF a b])

/-- `ROT` (40 R161). -/
def execRot (sel : Byte) (x : Word) (s : State) : Host.Outcome State Fault Refusal :=
  .next (s.finish (wordsToBytes [rot x (rotAmount sel)]))

/-- `PHT` (40 R162). -/
def execPht (a b : Word) (s : State) : Host.Outcome State Fault Refusal :=
  let pq := pht a b
  .next (s.finish (wordsToBytes [pq.1, pq.2]))

end Sys2Proof.Machine
end

