-- ==== Sys2Proof/Machine/Padding.lean ====
section
/-! DEFINITION. The padding schemes (46 R350 to R359, R362): pure functions of the message, the block size
and, for ISO10126, the fill bytes. -/

namespace Sys2Proof.Machine

/-- The pad length `n = BS - (L mod BS)` (46 R351). -/
def padLength (bs len : Nat) : Nat := bs - len % bs

/-- `padZeros(M)` (46 R352). -/
def padZeros (bs : Nat) (m : List Byte) : List Byte := m ++ List.replicate (padLength bs m.length) 0

/-- `padAnsi(M)` (46 R354). -/
def padAnsi (bs : Nat) (m : List Byte) : List Byte :=
  let n := padLength bs m.length
  m ++ List.replicate (n - 1) 0 ++ [BitVec.ofNat 8 n]

/-- `padPkcs7(M)` (46 R356). -/
def padPkcs7 (bs : Nat) (m : List Byte) : List Byte :=
  let n := padLength bs m.length
  m ++ List.replicate n (BitVec.ofNat 8 n)

/-- `padIso(M)` with the fill bytes `fill` (46 R358). -/
def padIso (bs : Nat) (fill m : List Byte) : List Byte :=
  m ++ fill ++ [BitVec.ofNat 8 (padLength bs m.length)]

/-- The number of `RND` bytes `ENCM` draws: `n - 1` for ISO10126, none for the others (46 R358, R360). -/
def fillLength (pad : Padding) (bs len : Nat) : Nat :=
  match pad with
  | .iso10126 => padLength bs len - 1
  | .zeros | .ansix923 | .pkcs7 => 0

/-- The padded message of `ENCM` (46 R360); `fill` is read by ISO10126 alone. -/
def padMessage (pad : Padding) (bs : Nat) (fill m : List Byte) : List Byte :=
  match pad with
  | .zeros => padZeros bs m
  | .ansix923 => padAnsi bs m
  | .pkcs7 => padPkcs7 bs m
  | .iso10126 => padIso bs fill m

/-- `unpadZeros(X)`: every trailing zero byte removed (46 R353). -/
def unpadZeros (x : List Byte) : List Byte := (x.reverse.dropWhile (· == 0)).reverse

/-- The pad length `X[|X| - 1]`, if it is in `[1, BS]` and at most `|X|` (46 R355, R357, R359); none of an
empty `X` (46 R362). -/
def readPadLength (bs : Nat) (x : List Byte) : Option Nat :=
  match x.getLast? with
  | none => none
  | some b => if 1 ≤ b.toNat ∧ b.toNat ≤ bs ∧ b.toNat ≤ x.length then some b.toNat else none

/-- The last `n` bytes of `X`. -/
def lastBytes (n : Nat) (x : List Byte) : List Byte := x.drop (x.length - n)

/-- Removal with a length byte: the pad length is read, the pad bytes are checked, and `X[0 .. |X| - n)` is
what is left. -/
def unpadWith (check : Nat → List Byte → Bool) (bs : Nat) (x : List Byte) : Option (List Byte) :=
  match readPadLength bs x with
  | none => none
  | some n => if check n (lastBytes n x) then some (x.take (x.length - n)) else none

/-- `unpadAnsi(X)`: all but the last pad byte are 0 (46 R355). -/
def unpadAnsi (bs : Nat) (x : List Byte) : Option (List Byte) :=
  unpadWith (fun _ pad => pad.dropLast.all (· == 0)) bs x

/-- `unpadPkcs7(X)`: every pad byte is the pad length (46 R357). -/
def unpadPkcs7 (bs : Nat) (x : List Byte) : Option (List Byte) :=
  unpadWith (fun n pad => pad.all (·.toNat == n)) bs x

/-- `unpadIso(X)`: the length byte alone is checked (46 R359). -/
def unpadIso (bs : Nat) (x : List Byte) : Option (List Byte) := unpadWith (fun _ _ => true) bs x

/-- The removal of `DECM` (46 R361); `none` is a padding failure. -/
def unpadMessage (pad : Padding) (bs : Nat) (x : List Byte) : Option (List Byte) :=
  match pad with
  | .zeros => some (unpadZeros x)
  | .ansix923 => unpadAnsi bs x
  | .pkcs7 => unpadPkcs7 bs x
  | .iso10126 => unpadIso bs x

end Sys2Proof.Machine
end

