-- ==== Sys2Proof/Machine/Message.lean ====
section
/-! DEFINITION. The whole-message commands (46, part 2): `ENCM` and `DECM`. -/

namespace Sys2Proof.Machine

/-- The padded message `ENCM` encrypts: for ISO10126 with the next `n - 1` bytes of `RND` (46 R360). -/
def State.padded (s : State) (msg : List Byte) : List Byte :=
  padMessage s.pad s.bs (s.rndBytes (fillLength s.pad s.bs msg.length)) msg

/-- What `ENCM` computes: all ciphertext blocks and the last chaining value (46 R360). -/
def State.encryptMessage (s : State) (msg : List Byte) : BlockOut :=
  runBlocks (encStep s.engine s.mode) s.ch (blocksOf s.bs (s.padded msg))

/-- What `DECM` computes before the padding is removed: all plaintext blocks and the last chaining value
(46 R361). -/
def State.decryptMessage (s : State) (text : List Byte) : BlockOut :=
  runBlocks (decStep s.engine s.mode) s.ch (blocksOf s.bs text)

/-- `ENCM` (46 R360): there is no length check. -/
def execEncm (msg : List Byte) (s : State) : Host.Outcome State Fault Refusal :=
  match s.cipherError none with
  | some e => .next (s.raise e)
  | none =>
    let r := s.encryptMessage msg
    .next (((s.rndDrop (fillLength s.pad s.bs msg.length)).setCh r.ch).finish r.out)

/-- `DECM` (46 R361): on a padding failure the advanced chain is kept (60 R413). -/
def execDecm (text : List Byte) (s : State) : Host.Outcome State Fault Refusal :=
  match s.cipherError (decmLengthError s.bs text.length) with
  | some e => .next (s.raise e)
  | none =>
    let r := s.decryptMessage text
    match unpadMessage s.pad s.bs r.out with
    | none => .next ((s.setCh r.ch).raise .paddingValidationFailed)
    | some m => .next ((s.setCh r.ch).finish m)

end Sys2Proof.Machine
end

