-- ==== Sys2Proof/Machine/Session.lean ====
section
/-! DEFINITION. The configuration commands of the session (45, part 1): `SELFAM`, `SETKEY`, `SETMODE`,
`SETPAD`, `SETIV`, `RDREG`. -/

namespace Sys2Proof.Machine

/-- `SELFAM` (45 R301): the family is selected, the key and the IV are no longer valid. -/
def execSelfam (sel : Byte) (s : State) : Host.Outcome State Fault Refusal :=
  match familyOfSel sel with
  | none => .next (s.raise .unsupportedFamily)
  | some f => .next ({ s with family := f, keyValid := false, keyLen := 0, ivValid := false }.finish [])

/-- `SETKEY` (45 R302): the length is checked before any derivation begins (41 R201); on an error an earlier
key stays bound. -/
def execSetkey (key : List Byte) (s : State) : Host.Outcome State Fault Refusal :=
  if key.length ∈ keyLengths s.family then
    match s.bindKey key with
    | some t => .next (t.finish [])
    | none => .next (s.raise .invalidKeyLength)
  else .next (s.raise .invalidKeyLength)

/-- `SETMODE` (45 R303). -/
def execSetmode (sel : Byte) (s : State) : Host.Outcome State Fault Refusal :=
  match modeOfSel sel with
  | none => .next (s.raise .unsupportedMode)
  | some m => .next ({ s with mode := m }.finish [])

/-- `SETPAD` (45 R304). -/
def execSetpad (sel : Byte) (s : State) : Host.Outcome State Fault Refusal :=
  match padOfSel sel with
  | none => .next (s.raise .unsupportedPadding)
  | some p => .next ({ s with pad := p }.finish [])

/-- `SETIV` (45 R305): no bytes clear the IV, `BS` bytes supply one. -/
def execSetiv (iv : List Byte) (s : State) : Host.Outcome State Fault Refusal :=
  if iv.length = 0 then .next ({ s with ivValid := false }.finish [])
  else if iv.length = s.bs then .next ({ s.setCh iv with ivValid := true }.finish [])
  else .next (s.raise .invalidIvLength)

/-- `RDREG` (45 R306): it never writes `ERR`, on success or failure (60 R411). -/
def execRdreg (sel : Byte) (s : State) : Host.Outcome State Fault Refusal :=
  match registerOfSel sel with
  | none => .next (s.respond .unsupportedCommand [])
  | some r => .next (s.respond .ok [s.readReg r])

end Sys2Proof.Machine
end

