-- ==== Sys2Proof/Machine/Dispatch.lean ====
section
/-! DEFINITION. The one dispatch of an instruction to its meaning. -/

namespace Sys2Proof.Machine

def exec (i : Instr) (s : State) : Host.Outcome State Fault Refusal :=
  match i with
  | .selfam sel => Sys2Proof.Machine.execSelfam sel s
  | .setkey key => Sys2Proof.Machine.execSetkey key s
  | .setmode sel => Sys2Proof.Machine.execSetmode sel s
  | .setpad sel => Sys2Proof.Machine.execSetpad sel s
  | .setiv iv => Sys2Proof.Machine.execSetiv iv s
  | .rdreg sel => Sys2Proof.Machine.execRdreg sel s
  | .encb block => Sys2Proof.Machine.execEncb block s
  | .decb block => Sys2Proof.Machine.execDecb block s
  | .encm msg => Sys2Proof.Machine.execEncm msg s
  | .decm text => Sys2Proof.Machine.execDecm text s
  | .gfmul a b => Sys2Proof.Machine.execGfmul a b s
  | .rot sel x => Sys2Proof.Machine.execRot sel x s
  | .pht a b => Sys2Proof.Machine.execPht a b s

end Sys2Proof.Machine
end

