-- ==== Sys2Proof/Machine/Transaction.lean ====
section
/-! DEFINITION. The host's transactions (60 R446): what the CORE takes next, and what it does with a
transaction whose decoding fails. -/

namespace Sys2Proof.Machine

/-- The host's next action, if any (60 R446). -/
def State.nextAction (s : State) : Option HostAction := s.pending.head?

/-- The end of a transaction that does not decode: an illegal command word raises `UnsupportedCommand`,
`ERR` included, whatever its `OPC` (30 R106 to R108, 60 R411); a transaction that is no command has no
move (60 R446; notes/assumptions/3). -/
def State.rejectCommand (s : State) (e : DecodeError) : Host.Outcome State Fault Refusal :=
  if e.illegal then .next (s.raise .unsupportedCommand) else .fault (.noCommand e)

/-- The host's queue with one more command at its front. -/
def State.pushCommand (s : State) (c : Command) : State := { s with pending := .command c :: s.pending }

end Sys2Proof.Machine
end

