-- ==== Sys2Proof/Machine/Step.lean ====
section
/-! DEFINITION. One step of the CORE: the host's next action (60 R446). -/

namespace Sys2Proof.Machine

/-- One step. With nothing pending the CORE is idle and holds its state (60 R445; notes/assumptions/2). A
reset is applied (70 R450). A command is decoded and executed. -/
def step (s : State) : Host.Outcome State Fault Refusal :=
  match s.nextAction with
  | none => .next s
  | some .reset => .next s.popAction.applyReset
  | some (.command c) =>
    match decode c with
    | .ok i => exec i s.popAction
    | .error e => s.popAction.rejectCommand e

/-- `s` with the instruction whose bits are `w` as the host's next command (notes/assumptions/10). -/
def State.withFetchWord (s : State) (nbits w : Nat) : State :=
  match tableCommand nbits w with
  | some c => s.pushCommand c
  | none => s

end Sys2Proof.Machine
end

