-- ==== Sys2Proof/Safety.lean ====
section
/-! DEFINITION. What claims about runs are stated in: the invariant of the key state, hosts that keep
their side of the interface, and states that no command can tell apart. -/

namespace Sys2Proof.Machine

/-- The schedule tables of the current family are those derived from `key` (41 R200, 43 R252). -/
def State.holdsScheduleOf (s : State) (key : List Byte) : Prop :=
  match s.family with
  | .a => deriveA key = some ⟨s.k, s.sb⟩
  | .b => deriveB s.mcgSbox key = some s.ek

/-- The invariant of the key state (10 R34, R38): without a valid key `KEYLEN` is 0; with one, the tables of
the current family are the schedule of some key of an allowed length, and `KEYLEN` is that length. -/
def State.KeyCoherent (s : State) : Prop :=
  (s.keyValid = false → s.keyLen = 0) ∧
  (s.keyValid = true → ∃ key : List Byte, key.length ∈ keyLengths s.family ∧
    s.keyLen = BitVec.ofNat 8 key.length ∧ s.holdsScheduleOf key)

/-- A transaction the host may send: it decodes, or its command word is illegal, which the CORE reports; what
is left out is wrong framing (60 R446). -/
def Command.conforms (c : Command) : Bool :=
  match decode c with
  | .ok _ => true
  | .error e => e.illegal

/-- A host action inside the interface (60 R446). -/
def HostAction.conforms : HostAction → Bool
  | .reset => true
  | .command c => Machine.Command.conforms c

/-- Everything the host has lined up is inside the interface (60 R446). -/
def State.HostConforms (s : State) : Prop := ∀ a ∈ s.pending, a.conforms = true

/-- Two states that differ at most in what no command can read (10 R50, R40 to R42): `CH` while no IV is
valid, `CHAIN[BS..16)`, and the tables of a family that is not current or has no valid key. -/
structure State.SameView (s t : State) : Prop where
  family : s.family = t.family
  mode : s.mode = t.mode
  pad : s.pad = t.pad
  keyValid : s.keyValid = t.keyValid
  ivValid : s.ivValid = t.ivValid
  err : s.err = t.err
  keyLen : s.keyLen = t.keyLen
  mcgSbox : s.mcgSbox = t.mcgSbox
  pending : s.pending = t.pending
  responses : s.responses = t.responses
  rnd : s.rnd = t.rnd
  rndCount : s.rndCount = t.rndCount
  resets : s.resets = t.resets
  ch : s.ivValid = true → s.ch = t.ch
  scheduleA : s.keyValid = true → s.family = .a → s.k = t.k ∧ s.sb = t.sb
  scheduleB : s.keyValid = true → s.family = .b → s.ek = t.ek

end Sys2Proof.Machine
end

