-- ==== Sys2Proof/Certificates/Slice0/Obligations.lean ====
section
/-! DEFINITION. The statements for the provers. Each docstring names the rules of spec/ it formalises. The
first part defines what the statements are written in. -/

namespace Sys2Proof.Claims

open Sys2Proof.Machine

/-- The command succeeds in state `s`: it answers `dout` and leaves `t`, with `ERR` 0 (60 R411). What `t` shares
with `s` is the command's frame. -/
def Succeeds (i : Instr) (s t : State) (dout : List Byte) : Prop :=
  exec i s = .next { t with err := .ok, responses := s.responses ++ [⟨.ok, dout⟩] }

/-- The command fails in state `s`: nothing changes but `ERR`, and `DOUT` is empty (60 R410 to R412). -/
def Fails (i : Instr) (s : State) (code : Status) : Prop :=
  exec i s = .next { s with err := code, responses := s.responses ++ [⟨code, []⟩] }

/-- The next action is the command `c`, and `rest` comes after it. -/
def Next (s : State) (c : Command) (rest : List HostAction) : Prop := s.pending = .command c :: rest

/-- The IV a command needs is there: the mode is ECB, or an IV is valid (45 R314, R316). -/
def IvReady (s : State) : Prop := s.mode = .ecb ∨ s.ivValid = true

/-- The operation codes with a `LEN` word (30 R102). -/
def lenOpcodes : List Byte := [0x02, 0x05, 0x10, 0x11, 0x20, 0x21]

/-- The operation codes whose `SEL` must be 0 (30 R104, R105). -/
def zeroSelOpcodes : List Byte := [0x02, 0x05, 0x10, 0x11, 0x20, 0x21, 0x30, 0x32]

/-- The operation codes of no command (30 R107). -/
def UnknownOpcode (opc : Byte) : Prop :=
  opc.toNat = 0 ∨ (0x07 ≤ opc.toNat ∧ opc.toNat ≤ 0x0F) ∨ (0x12 ≤ opc.toNat ∧ opc.toNat ≤ 0x1F) ∨
  (0x22 ≤ opc.toNat ∧ opc.toNat ≤ 0x2F) ∨ 0x33 ≤ opc.toNat

/-- An illegal command word (30 R106, R107): `RSV` not 0, `OPC` unknown, or `SEL` not 0 where it must be. -/
def IllegalWord (cw : Word) : Prop :=
  cw.extractLsb' 16 16 ≠ 0 ∨ UnknownOpcode (cw.extractLsb' 0 8) ∨
  (cw.extractLsb' 0 8 ∈ zeroSelOpcodes ∧ cw.extractLsb' 8 8 ≠ 0)

/-- The framing of 30 R103: `LEN` bytes of `DIN` where `LEN` is present, else the fixed number of the command. -/
def Framed (c : Command) : Prop :=
  let opc := c.cw.extractLsb' 0 8
  if opc ∈ lenOpcodes then ∃ n, c.len = some n ∧ c.din.length = n.toNat
  else c.len = none ∧ c.din.length =
    (if opc = 0x30 then 2 else if opc = 0x31 then 4 else if opc = 0x32 then 8 else 0)

/-- `xtime(v)` modulo the polynomial `p` (40 R143). -/
def xtime (p : BitVec 9) (v : Byte) : Byte := v <<< 1 ^^^ (if v.getLsbD 7 then p.setWidth 8 else 0)

/-- Two key vectors have the same length, and lane `i` of each word agrees (41 R195). -/
def SameLane (i : Fin 4) : KeyVec → KeyVec → Prop
  | .k2 a0 a1, .k2 b0 b1 => lane a0 i = lane b0 i ∧ lane a1 i = lane b1 i
  | .k3 a0 a1 a2, .k3 b0 b1 b2 => lane a0 i = lane b0 i ∧ lane a1 i = lane b1 i ∧ lane a2 i = lane b2 i
  | .k4 a0 a1 a2 a3, .k4 b0 b1 b2 b3 =>
    lane a0 i = lane b0 i ∧ lane a1 i = lane b1 i ∧ lane a2 i = lane b2 i ∧ lane a3 i = lane b3 i
  | _, _ => False

/-- The S-boxes of each slice of `F` (44 R273). -/
def sliceBoxes : Vector (Fin 8 × Fin 8) 4 := #v[(0, 1), (2, 3), (4, 6), (5, 7)]

/-- Every entry of `STABLE` is 0 (43 R256, 44 R280). -/
def StableZero (sb : SBoxes) : Prop := ∀ i : Half, stable sb i = 0

/-- The table `q0` of 41 R183, row by row. -/
def q0Table : List Byte :=
  [0xA9, 0x67, 0xB3, 0xE8, 0x04, 0xFD, 0xA3, 0x76, 0x9A, 0x92, 0x80, 0x78, 0xE4, 0xDD, 0xD1, 0x38] ++
  [0x0D, 0xC6, 0x35, 0x98, 0x18, 0xF7, 0xEC, 0x6C, 0x43, 0x75, 0x37, 0x26, 0xFA, 0x13, 0x94, 0x48] ++
  [0xF2, 0xD0, 0x8B, 0x30, 0x84, 0x54, 0xDF, 0x23, 0x19, 0x5B, 0x3D, 0x59, 0xF3, 0xAE, 0xA2, 0x82] ++
  [0x63, 0x01, 0x83, 0x2E, 0xD9, 0x51, 0x9B, 0x7C, 0xA6, 0xEB, 0xA5, 0xBE, 0x16, 0x0C, 0xE3, 0x61] ++
  [0xC0, 0x8C, 0x3A, 0xF5, 0x73, 0x2C, 0x25, 0x0B, 0xBB, 0x4E, 0x89, 0x6B, 0x53, 0x6A, 0xB4, 0xF1] ++
  [0xE1, 0xE6, 0xBD, 0x45, 0xE2, 0xF4, 0xB6, 0x66, 0xCC, 0x95, 0x03, 0x56, 0xD4, 0x1C, 0x1E, 0xD7] ++
  [0xFB, 0xC3, 0x8E, 0xB5, 0xE9, 0xCF, 0xBF, 0xBA, 0xEA, 0x77, 0x39, 0xAF, 0x33, 0xC9, 0x62, 0x71] ++
  [0x81, 0x79, 0x09, 0xAD, 0x24, 0xCD, 0xF9, 0xD8, 0xE5, 0xC5, 0xB9, 0x4D, 0x44, 0x08, 0x86, 0xE7] ++
  [0xA1, 0x1D, 0xAA, 0xED, 0x06, 0x70, 0xB2, 0xD2, 0x41, 0x7B, 0xA0, 0x11, 0x31, 0xC2, 0x27, 0x90] ++
  [0x20, 0xF6, 0x60, 0xFF, 0x96, 0x5C, 0xB1, 0xAB, 0x9E, 0x9C, 0x52, 0x1B, 0x5F, 0x93, 0x0A, 0xEF] ++
  [0x91, 0x85, 0x49, 0xEE, 0x2D, 0x4F, 0x8F, 0x3B, 0x47, 0x87, 0x6D, 0x46, 0xD6, 0x3E, 0x69, 0x64] ++
  [0x2A, 0xCE, 0xCB, 0x2F, 0xFC, 0x97, 0x05, 0x7A, 0xAC, 0x7F, 0xD5, 0x1A, 0x4B, 0x0E, 0xA7, 0x5A] ++
  [0x28, 0x14, 0x3F, 0x29, 0x88, 0x3C, 0x4C, 0x02, 0xB8, 0xDA, 0xB0, 0x17, 0x55, 0x1F, 0x8A, 0x7D] ++
  [0x57, 0xC7, 0x8D, 0x74, 0xB7, 0xC4, 0x9F, 0x72, 0x7E, 0x15, 0x22, 0x12, 0x58, 0x07, 0x99, 0x34] ++
  [0x6E, 0x50, 0xDE, 0x68, 0x65, 0xBC, 0xDB, 0xF8, 0xC8, 0xA8, 0x2B, 0x40, 0xDC, 0xFE, 0x32, 0xA4] ++
  [0xCA, 0x10, 0x21, 0xF0, 0xD3, 0x5D, 0x0F, 0x00, 0x6F, 0x9D, 0x36, 0x42, 0x4A, 0x5E, 0xC1, 0xE0]

/-- The table `q1` of 41 R183, row by row. -/
def q1Table : List Byte :=
  [0x75, 0xF3, 0xC6, 0xF4, 0xDB, 0x7B, 0xFB, 0xC8, 0x4A, 0xD3, 0xE6, 0x6B, 0x45, 0x7D, 0xE8, 0x4B] ++
  [0xD6, 0x32, 0xD8, 0xFD, 0x37, 0x71, 0xF1, 0xE1, 0x30, 0x0F, 0xF8, 0x1B, 0x87, 0xFA, 0x06, 0x3F] ++
  [0x5E, 0xBA, 0xAE, 0x5B, 0x8A, 0x00, 0xBC, 0x9D, 0x6D, 0xC1, 0xB1, 0x0E, 0x80, 0x5D, 0xD2, 0xD5] ++
  [0xA0, 0x84, 0x07, 0x14, 0xB5, 0x90, 0x2C, 0xA3, 0xB2, 0x73, 0x4C, 0x54, 0x92, 0x74, 0x36, 0x51] ++
  [0x38, 0xB0, 0xBD, 0x5A, 0xFC, 0x60, 0x62, 0x96, 0x6C, 0x42, 0xF7, 0x10, 0x7C, 0x28, 0x27, 0x8C] ++
  [0x13, 0x95, 0x9C, 0xC7, 0x24, 0x46, 0x3B, 0x70, 0xCA, 0xE3, 0x85, 0xCB, 0x11, 0xD0, 0x93, 0xB8] ++
  [0xA6, 0x83, 0x20, 0xFF, 0x9F, 0x77, 0xC3, 0xCC, 0x03, 0x6F, 0x08, 0xBF, 0x40, 0xE7, 0x2B, 0xE2] ++
  [0x79, 0x0C, 0xAA, 0x82, 0x41, 0x3A, 0xEA, 0xB9, 0xE4, 0x9A, 0xA4, 0x97, 0x7E, 0xDA, 0x7A, 0x17] ++
  [0x66, 0x94, 0xA1, 0x1D, 0x3D, 0xF0, 0xDE, 0xB3, 0x0B, 0x72, 0xA7, 0x1C, 0xEF, 0xD1, 0x53, 0x3E] ++
  [0x8F, 0x33, 0x26, 0x5F, 0xEC, 0x76, 0x2A, 0x49, 0x81, 0x88, 0xEE, 0x21, 0xC4, 0x1A, 0xEB, 0xD9] ++
  [0xC5, 0x39, 0x99, 0xCD, 0xAD, 0x31, 0x8B, 0x01, 0x18, 0x23, 0xDD, 0x1F, 0x4E, 0x2D, 0xF9, 0x48] ++
  [0x4F, 0xF2, 0x65, 0x8E, 0x78, 0x5C, 0x58, 0x19, 0x8D, 0xE5, 0x98, 0x57, 0x67, 0x7F, 0x05, 0x64] ++
  [0xAF, 0x63, 0xB6, 0xFE, 0xF5, 0xB7, 0x3C, 0xA5, 0xCE, 0xE9, 0x68, 0x44, 0xE0, 0x4D, 0x43, 0x69] ++
  [0x29, 0x2E, 0xAC, 0x15, 0x59, 0xA8, 0x0A, 0x9E, 0x6E, 0x47, 0xDF, 0x34, 0x35, 0x6A, 0xCF, 0xDC] ++
  [0x22, 0xC9, 0xC0, 0x9B, 0x89, 0xD4, 0xED, 0xAB, 0x12, 0xA2, 0x0D, 0x52, 0xBB, 0x02, 0x2F, 0xA9] ++
  [0xD7, 0x61, 0x1E, 0xB4, 0x50, 0x04, 0xF6, 0xC2, 0x16, 0x25, 0x86, 0x56, 0x55, 0x09, 0xBE, 0x91]

/-- The codes each command can return (60 R400); code 10 is also every illegal command word's. -/
def codesOf : Instr → List Status
  | .selfam _ => [.ok, .unsupportedFamily]
  | .setkey _ => [.ok, .invalidKeyLength]
  | .setmode _ => [.ok, .unsupportedMode]
  | .setpad _ => [.ok, .unsupportedPadding]
  | .setiv _ => [.ok, .invalidIvLength]
  | .rdreg _ => [.ok, .unsupportedCommand]
  | .encb _ => [.ok, .missingIv, .missingKey, .invalidBlockLength]
  | .decb _ => [.ok, .missingIv, .misalignedCiphertext, .missingKey, .invalidBlockLength]
  | .encm _ => [.ok, .missingIv, .missingKey]
  | .decm _ => [.ok, .missingIv, .misalignedCiphertext, .paddingValidationFailed, .missingKey]
  | .gfmul _ _ | .rot _ _ | .pht _ _ => [.ok]

/-- `RDREG`, the one command that never writes `ERR` (60 R411). -/
def IsRdreg (i : Instr) : Prop := ∃ sel, i = .rdreg sel

/-- The block and message commands (45 R313). -/
def IsCipher (i : Instr) : Prop :=
  (∃ b, i = .encb b) ∨ (∃ b, i = .decb b) ∨ (∃ m, i = .encm m) ∨ (∃ c, i = .decm c)

end Sys2Proof.Claims

open Sys2Proof Sys2Proof.Machine Sys2Proof.Claims

/-! ### Encoding -/

/-- 30 R111: the command words of the legal forms. -/
def Obligations.LegalFormsEncodeToTheListedWords : Prop :=
  (encode (.selfam 0)).cw = 0x00000001 ∧ (encode (.selfam 1)).cw = 0x00000101 ∧
  (∀ key, (encode (.setkey key)).cw = 0x00000002) ∧
  (encode (.setmode 0)).cw = 0x00000003 ∧ (encode (.setmode 1)).cw = 0x00000103 ∧
  (encode (.setmode 2)).cw = 0x00000203 ∧ (encode (.setmode 3)).cw = 0x00000303 ∧
  (encode (.setmode 4)).cw = 0x00000403 ∧ (encode (.setmode 5)).cw = 0x00000503 ∧
  (encode (.setpad 0)).cw = 0x00000004 ∧ (encode (.setpad 1)).cw = 0x00000104 ∧
  (encode (.setpad 2)).cw = 0x00000204 ∧ (encode (.setpad 3)).cw = 0x00000304 ∧
  (∀ iv, (encode (.setiv iv)).cw = 0x00000005) ∧
  (∀ n : Nat, n ≤ 6 → (encode (.rdreg (BitVec.ofNat 8 n))).cw = BitVec.ofNat 32 (n <<< 8 ||| 0x06)) ∧
  (∀ b, (encode (.encb b)).cw = 0x00000010) ∧ (∀ b, (encode (.decb b)).cw = 0x00000011) ∧
  (∀ m, (encode (.encm m)).cw = 0x00000020) ∧ (∀ c, (encode (.decm c)).cw = 0x00000021) ∧
  (∀ a b, (encode (.gfmul a b)).cw = 0x00000030) ∧
  (∀ (n : Int) (x : Word), -128 ≤ n → n ≤ 127 →
    (encode (.rot (BitVec.ofInt 8 n) x)).cw = BitVec.ofNat 32 ((n % 256).toNat <<< 8 ||| 0x31)) ∧
  (∀ x, (encode (.rot (BitVec.ofInt 8 8) x)).cw = 0x00000831) ∧
  (∀ x, (encode (.rot (BitVec.ofInt 8 (-1)) x)).cw = 0x0000FF31) ∧
  (∀ a b, (encode (.pht a b)).cw = 0x00000032)

/-- 30 sections 1 to 3: the transaction of a well-formed instruction decodes to it, every operand at every value. -/
def Obligations.DecodeInvertsEncode : Prop :=
  ∀ i : Instr, i.wf = true → decode (encode i) = .ok i

/-- 30 section 1 (R101, R102): the bytes of a well-formed instruction, whatever follows them in the stream, decode to
it and leave what follows. -/
def Obligations.DecodeBytesInvertsEncodeBytes : Prop :=
  encodeBytes (.setmode 1) = [0x00, 0x00, 0x01, 0x03] ∧
  ∀ (i : Instr) (rest : List Byte), i.wf = true → decodeBytes (encodeBytes i ++ rest) = .ok (i, rest)

/-- 30 sections 1 to 4: a transaction that decodes is the transaction of the instruction it decodes to, so no two
transactions decode to one instruction, and what decodes is well formed. -/
def Obligations.EncodeInvertsDecode : Prop :=
  ∀ (c : Command) (i : Instr), decode c = .ok i → encode i = c ∧ i.wf = true

/-- 30 R106, R107, R108: an illegal command word, whatever `LEN` and `DIN` came with it, raises `UnsupportedCommand`
and changes nothing but `ERR`; every other command word is one of 30 R105. -/
def Obligations.IllegalWordsRaiseUnsupportedCommand : Prop :=
  (∀ (s : State) (c : Command) (rest : List HostAction), Next s c rest → IllegalWord c.cw →
    step s = .next { s with
      pending := rest
      err := .unsupportedCommand
      responses := s.responses ++ [⟨.unsupportedCommand, []⟩] }) ∧
  (∀ c : Command, ¬ IllegalWord c.cw → ∃ op : Opcode, decodeWord c = .ok op ∧ c.cw.extractLsb' 0 8 = op.byte)

/-- 30 section 1 (R103), 60 section 6 (R446): a legal command word with `DIN` of the length of R103 is a command and has
a step; with another number of bytes, or with `LEN` against R102, it is no command and has no step: that this is the
fault `noCommand` is the model's choice (notes/assumptions/3). -/
def Obligations.OnlyFramedTransactionsHaveAStep : Prop :=
  ∀ (s : State) (c : Command) (rest : List HostAction), Next s c rest → ¬ IllegalWord c.cw →
    (Framed c → ∃ t, step s = .next t) ∧ (¬ Framed c → ∃ e, step s = .fault (.noCommand e))

/-- 00 section 3 (R9), 10 R36: a step at a state whose next transaction decodes to `i` is `exec i` at that state with
the transaction taken off the host's queue. With nothing pending the step leaves the state as it is (60 R445), the
model's choice of notes/assumptions/2. -/
def Obligations.StepRunsTheDecodedInstruction : Prop :=
  (∀ (s : State) (c : Command) (rest : List HostAction) (i : Instr), Next s c rest → decode c = .ok i →
    step s = exec i { s with pending := rest }) ∧
  (∀ s : State, s.pending = [] → step s = .next s)

/-- 30 sections 1 to 3: words and bytes written out from the encoding tables decode to the instructions they stand
for. -/
def Obligations.WrittenWordsDecode : Prop :=
  decode ⟨0x00000101, none, []⟩ = .ok (.selfam 1) ∧
  decode ⟨0x00000005, some 2, [0xF0, 0xF1]⟩ = .ok (.setiv [0xF0, 0xF1]) ∧
  decodeBytes [0x00, 0x00, 0x00, 0x10, 0x00, 0x00, 0x00, 0x01, 0xAB, 0x77] = .ok (.encb [0xAB], [0x77]) ∧
  decodeBytes [0x00, 0x00, 0x00, 0x21, 0x00, 0x00, 0x00, 0x00] = .ok (.decm [], []) ∧
  decodeBytes [0x00, 0x00, 0xF8, 0x31, 0x12, 0x34, 0x56, 0x78] = .ok (.rot 0xF8 0x12345678, [])

/-! ### Reset and the idle CORE -/

/-- 70 section 1: the reset values that the spec gives, and that `BSIZE` then reads 16. -/
def Obligations.ResetHoldsTheStatedValues : Prop :=
  State.reset.family = .a ∧ State.reset.mode = .ecb ∧ State.reset.pad = .zeros ∧ State.reset.keyValid = false ∧
  State.reset.ivValid = false ∧ State.reset.err = .ok ∧ State.reset.keyLen = 0 ∧
  (∀ r : Register, State.reset.readReg r = if r = .bsize then 16 else 0)

/-- 70 R452: after reset there is no key and no IV, and `SELFAM A` changes nothing. -/
def Obligations.SelfamAfterResetChangesNothing : Prop :=
  State.reset.family = .a ∧ State.reset.keyValid = false ∧ State.reset.ivValid = false ∧
  Succeeds (.selfam 0) State.reset State.reset []

/-- 70 section 1: the host's reset puts every register at its reset value, from every state. That the host's queue, what
it has received, the random source and the constant table stay is the model's choice (notes/assumptions/5). -/
def Obligations.HostResetPutsRegistersAtTheirResetValues : Prop :=
  ∀ (s : State) (rest : List HostAction), s.pending = .reset :: rest →
    ∃ t, step s = .next t ∧ t.family = .a ∧ t.mode = .ecb ∧ t.pad = .zeros ∧ t.keyValid = false ∧
      t.ivValid = false ∧ t.err = .ok ∧ t.keyLen = 0 ∧ t.readReg .bsize = 16 ∧
      t.pending = rest ∧ t.responses = s.responses ∧ t.mcgSbox = s.mcgSbox ∧ t.rnd = s.rnd ∧
      t.rndCount = s.rndCount

/-! ### Configuration commands -/

/-- 45 R301. -/
def Obligations.SelfamSelectsTheFamilyAndClearsKeyAndIv : Prop :=
  (∀ sel : Byte, decode ⟨sel.setWidth 32 <<< 8 ||| 0x01, none, []⟩ = .ok (.selfam sel)) ∧
  (∀ s : State, Succeeds (.selfam 0) s
    { s with family := .a, keyValid := false, keyLen := 0, ivValid := false } []) ∧
  (∀ s : State, Succeeds (.selfam 1) s
    { s with family := .b, keyValid := false, keyLen := 0, ivValid := false } []) ∧
  (∀ (s : State) (sel : Byte), 2 ≤ sel.toNat → Fails (.selfam sel) s .unsupportedFamily) ∧
  (∀ s t : State, exec (.selfam 1) s = .next t → t.readReg .bsize = 0x08 ∧ t.readReg .status = 0x00)

/-- 45 R302, 60 R401: a key of a length the family allows is bound, with the schedule derived from it; a key of another
length changes nothing but `ERR`. -/
def Obligations.SetkeyBindsAKeyOfAnAllowedLength : Prop :=
  (∀ key : List Byte, key.length < 2 ^ 32 →
    decode ⟨0x00000002, some (BitVec.ofNat 32 key.length), key⟩ = .ok (.setkey key)) ∧
  (∀ (s : State) (key : List Byte), s.family = .a →
    key.length = 16 ∨ key.length = 24 ∨ key.length = 32 →
    ∃ sch, deriveA key = some sch ∧ Succeeds (.setkey key) s
      { s with k := sch.k, sb := sch.sb, keyValid := true, keyLen := BitVec.ofNat 8 key.length } []) ∧
  (∀ (s : State) (key : List Byte), s.family = .b → key.length = 16 →
    ∃ ek, deriveB s.mcgSbox key = some ek ∧ Succeeds (.setkey key) s
      { s with ek := ek, keyValid := true, keyLen := 16 } []) ∧
  (∀ (s : State) (key : List Byte), s.family = .a →
    ¬ (key.length = 16 ∨ key.length = 24 ∨ key.length = 32) → Fails (.setkey key) s .invalidKeyLength) ∧
  (∀ (s : State) (key : List Byte), s.family = .b → key.length ≠ 16 → Fails (.setkey key) s .invalidKeyLength)

/-- 45 R303: the six mode codes, and `UnsupportedMode` for the others. -/
def Obligations.SetmodeSelectsTheMode : Prop :=
  (∀ sel : Byte, decode ⟨sel.setWidth 32 <<< 8 ||| 0x03, none, []⟩ = .ok (.setmode sel)) ∧
  (∀ s : State,
    Succeeds (.setmode 0) s { s with mode := .ecb } [] ∧ Succeeds (.setmode 1) s { s with mode := .cbc } [] ∧
    Succeeds (.setmode 2) s { s with mode := .pcbc } [] ∧ Succeeds (.setmode 3) s { s with mode := .cfb } [] ∧
    Succeeds (.setmode 4) s { s with mode := .ofb } [] ∧ Succeeds (.setmode 5) s { s with mode := .ctr } []) ∧
  (∀ (s : State) (sel : Byte), 5 < sel.toNat → Fails (.setmode sel) s .unsupportedMode) ∧
  (∀ s t : State, exec (.setmode 5) s = .next t → t.readReg .mode = 0x05)

/-- 45 section 1 (R304): the four padding codes, and `UnsupportedPadding` for the others. -/
def Obligations.SetpadSelectsThePadding : Prop :=
  (∀ s : State,
    Succeeds (.setpad 0) s { s with pad := .zeros } [] ∧ Succeeds (.setpad 1) s { s with pad := .ansix923 } [] ∧
    Succeeds (.setpad 2) s { s with pad := .pkcs7 } [] ∧ Succeeds (.setpad 3) s { s with pad := .iso10126 } []) ∧
  (∀ (s : State) (sel : Byte), 3 < sel.toNat → Fails (.setpad sel) s .unsupportedPadding) ∧
  (∀ s t : State, exec (.setpad 2) s = .next t → t.readReg .pad = 0x02)

/-- 45 R305, 60 R402: `BS` bytes are written to `CHAIN[0..BS)` and no others, no bytes clear `IV_VALID`, any other
length fails. -/
def Obligations.SetivWritesOrClearsTheIv : Prop :=
  (∀ iv : List Byte, iv.length < 2 ^ 32 →
    decode ⟨0x00000005, some (BitVec.ofNat 32 iv.length), iv⟩ = .ok (.setiv iv)) ∧
  (∀ s : State, Succeeds (.setiv []) s { s with ivValid := false } []) ∧
  (∀ (s : State) (iv : List Byte), iv.length = s.bs →
    ∃ chain : Vector (BitVec 8) 16,
      (∀ (i : Nat) (hi : i < 16) (hv : i < iv.length), chain[i] = iv[i]) ∧
      (∀ (i : Nat) (hi : i < 16), s.bs ≤ i → chain[i] = s.chain[i]) ∧
      Succeeds (.setiv iv) s { s with chain := chain, ivValid := true } []) ∧
  (∀ (s : State) (iv : List Byte), iv.length ≠ 0 → iv.length ≠ s.bs → Fails (.setiv iv) s .invalidIvLength)

/-- 45 R306, 10 R39, R34: `RDREG` reads each control register and writes nothing, not even `ERR`; a number from 7 up
fails, with `ERR` unwritten; a word with `RSV` not 0 is no `RDREG` and writes `ERR`. -/
def Obligations.RdregReadsControlRegistersAndWritesNothing : Prop :=
  (∀ sel : Byte, decode ⟨sel.setWidth 32 <<< 8 ||| 0x06, none, []⟩ = .ok (.rdreg sel)) ∧
  (∀ s : State,
    let reads (n v : Byte) := exec (.rdreg n) s = .next { s with responses := s.responses ++ [⟨.ok, [v]⟩] }
    reads 0 (familyCode s.family) ∧ reads 1 (modeCode s.mode) ∧ reads 2 (padCode s.pad) ∧
    reads 3 (BitVec.ofNat 8 (s.keyValid.toNat + 2 * s.ivValid.toNat)) ∧ reads 4 (statusCode s.err) ∧
    reads 5 (if s.family = .a then 16 else 8) ∧ reads 6 s.keyLen) ∧
  (∀ (s : State) (n : Byte), 7 ≤ n.toNat →
    exec (.rdreg n) s = .next { s with responses := s.responses ++ [⟨.unsupportedCommand, []⟩] }) ∧
  (∀ (s : State) (c : Command) (rest : List HostAction), Next s c rest → c.cw.extractLsb' 0 8 = 0x06 →
    c.cw.extractLsb' 16 16 ≠ 0 → ∃ t, step s = .next t ∧ t.err = .unsupportedCommand) ∧
  State.reset.readReg .status = 0x00 ∧ State.reset.readReg .bsize = 0x10

/-! ### Diagnostic commands and primitives -/

/-- 40 R160. -/
def Obligations.GfmulMultipliesAndWritesErrOnly : Prop :=
  (∀ a b : Byte, decode ⟨0x00000030, none, [a, b]⟩ = .ok (.gfmul a b)) ∧
  (∀ (s : State) (a b : Byte), Succeeds (.gfmul a b) s s [gfMul a b 0x169]) ∧
  (∀ b : Byte, gfMul 0 b 0x169 = 0 ∧ gfMul b 0 0x169 = 0 ∧ gfMul 1 b 0x169 = b ∧ gfMul b 1 0x169 = b) ∧
  gfMul 0x02 0x80 0x169 = 0x69

/-- 40 R161. -/
def Obligations.RotRotatesAndWritesErrOnly : Prop :=
  (∀ sel b0 b1 b2 b3 : Byte,
    decode ⟨sel.setWidth 32 <<< 8 ||| 0x31, none, [b0, b1, b2, b3]⟩ = .ok (.rot sel (b0 ++ b1 ++ b2 ++ b3))) ∧
  (∀ (s : State) (sel : Byte) (x : Word),
    Succeeds (.rot sel x) s s
      (wordsToBytes [Machine.rot x (if 128 ≤ sel.toNat then (sel.toNat : Int) - 256 else sel.toNat)])) ∧
  (∀ x : Word, ∀ n ∈ [(0 : Int), 32, 64, 96, -32, -64, -96, -128], Machine.rot x n = x) ∧
  (∀ x : Word, Machine.rot x (-1) = Machine.rot x 31 ∧ Machine.rot x 127 = Machine.rot x 31) ∧
  wordsToBytes [Machine.rot 0x12345678 8] = [0x34, 0x56, 0x78, 0x12] ∧
  wordsToBytes [Machine.rot 0x12345678 (-8)] = [0x78, 0x12, 0x34, 0x56]

/-- 40 R162, R151. -/
def Obligations.PhtTransformsAndWritesErrOnly : Prop :=
  (∀ a0 a1 a2 a3 b0 b1 b2 b3 : Byte,
    decode ⟨0x00000032, none, [a0, a1, a2, a3, b0, b1, b2, b3]⟩ =
      .ok (.pht (a0 ++ a1 ++ a2 ++ a3) (b0 ++ b1 ++ b2 ++ b3))) ∧
  (∀ (s : State) (a b : Word), Succeeds (.pht a b) s s (wordsToBytes [a + b, a + 2 * b])) ∧
  wordsToBytes [(0x12345678 : Word) + 0x9ABCDEF0, (0x12345678 : Word) + 2 * 0x9ABCDEF0] =
    [0xAC, 0xF1, 0x35, 0x68, 0x47, 0xAE, 0x14, 0x58]

/-- 40 R143: the shift-and-add form gives the same product, for every degree-8 polynomial. -/
def Obligations.GfMulEqualsShiftAndAdd : Prop :=
  ∀ (a b : Byte) (p : BitVec 9), p.getLsbD 8 = true →
    gfMul a b p =
      [0, 1, 2, 3, 4, 5, 6, 7].foldl (fun r i => if b.getLsbD i then r ^^^ (xtime p)^[i] a else r) 0

/-- 40 R142. -/
def Obligations.MultiplyGFObeysTheFieldLaws : Prop :=
  (∀ a b : Byte, multiplyGF a b = multiplyGF b a) ∧
  (∀ a b c : Byte, multiplyGF (multiplyGF a b) c = multiplyGF a (multiplyGF b c)) ∧
  (∀ a b c : Byte, multiplyGF a (b ^^^ c) = multiplyGF a b ^^^ multiplyGF a c) ∧
  (∀ b : Byte, multiplyGF 0 b = 0 ∧ multiplyGF 1 b = b) ∧
  ((multiplyGF 2)^[255] 1 = 1 ∧ ∀ n : Nat, 0 < n → n < 255 → (multiplyGF 2)^[n] 1 ≠ 1) ∧
  multiplyGF 0x02 0x80 = 0x69 ∧ multiplyGF 0x80 0x80 = 0xEE ∧ multiplyGF 0xFF 0xFF = 0x90

/-- 40 R144, R145: rotation by the amount modulo 32, left for a positive amount and right for a negative one. -/
def Obligations.RotIsRotationModulo32 : Prop :=
  (∀ (x : Word) (n : Int),
    Machine.rot x n = if n % 32 = 0 then x else x <<< (n % 32).toNat ||| x >>> (32 - (n % 32).toNat)) ∧
  (∀ (x : Word) (n : Nat),
    Machine.rot x n = x.rotateLeft (n % 32) ∧ Machine.rot x (-(n : Int)) = x.rotateRight (n % 32)) ∧
  (∀ x : Word, Machine.rot x 0 = x ∧ Machine.rot x 32 = x ∧ Machine.rot x (-32) = x ∧
    Machine.rot x (-1) = Machine.rot x 31 ∧ Machine.rot x 40 = Machine.rot x 8) ∧
  Machine.rot 0x80000001 1 = 0x00000003 ∧ Machine.rot 0x80000001 (-1) = 0xC0000000

/-- 40 R146, R147: the big-endian packers, byte by byte, and that they invert each other; other lengths are refused
(40 R149). -/
def Obligations.PackersAreBigEndianAndInverse : Prop :=
  (∀ (b : List Byte) (ws : List Word), bytesToWords b = some ws →
    b.length = 4 * ws.length ∧
    (∀ j, j < ws.length →
      ws[j]? = some (b.getD (4 * j) 0 ++ b.getD (4 * j + 1) 0 ++ b.getD (4 * j + 2) 0 ++ b.getD (4 * j + 3) 0)) ∧
    wordsToBytes ws = b) ∧
  (∀ ws : List Word, bytesToWords (wordsToBytes ws) = some ws ∧ (wordsToBytes ws).length = 4 * ws.length ∧
    ∀ (j : Nat) (hj : j < ws.length),
      (wordsToBytes ws)[4 * j]? = some (ws[j].extractLsb' 24 8) ∧
      (wordsToBytes ws)[4 * j + 1]? = some (ws[j].extractLsb' 16 8) ∧
      (wordsToBytes ws)[4 * j + 2]? = some (ws[j].extractLsb' 8 8) ∧
      (wordsToBytes ws)[4 * j + 3]? = some (ws[j].extractLsb' 0 8)) ∧
  (∀ b : List Byte, bytesToWords b = none ↔ b.length % 4 ≠ 0)

/-- 40 R151, R152. -/
def Obligations.PhtIsABijection : Prop :=
  (∀ a b : Word, Machine.pht a b = (a + b, a + 2 * b)) ∧
  (∀ a b p q : Word, (p, q) = Machine.pht a b → b = q - p ∧ a = 2 * p - q) ∧
  Function.Bijective (fun ab : Word × Word => Machine.pht ab.1 ab.2) ∧
  Machine.pht 0xFFFFFFFF 1 = (0, 1) ∧ Machine.pht 0x80000000 0x80000000 = (0, 0x80000000) ∧
  Machine.pht 0xFFFFFFFF 0xFFFFFFFF = (0xFFFFFFFE, 0xFFFFFFFD)

/-! ### Cipher A -/

/-- 41 R183: the full tables that R182 gives, and that both are permutations. -/
def Obligations.QPermutationsAreTheListedTables : Prop :=
  (List.range 256).map (fun n => q0 (BitVec.ofNat 8 n)) = q0Table ∧
  (List.range 256).map (fun n => q1 (BitVec.ofNat 8 n)) = q1Table ∧
  Function.Bijective q0 ∧ Function.Bijective q1

/-- 41 R195: each S-box entry depends on its own lane of the key words alone, and the S-boxes followed by MDS
give `h`. -/
def Obligations.SBoxesAreTheLanesOfH : Prop :=
  (∀ (i : Fin 4) (l l' : KeyVec) (x : Fin 256), SameLane i l l' →
    ((keySBoxes l).get i).get x = ((keySBoxes l').get i).get x) ∧
  (∀ (svec : KeyVec) (x : Word),
    hWord x svec = mds #v[((keySBoxes svec).get 0).get (lane x 0).toFin, ((keySBoxes svec).get 1).get (lane x 1).toFin,
      ((keySBoxes svec).get 2).get (lane x 2).toFin, ((keySBoxes svec).get 3).get (lane x 3).toFin]) ∧
  (∀ (svec : KeyVec) (x : Word), gWord (keySBoxes svec) x = hWord x svec)

/-- 41 section 5 (R190, R193, R194, R200): a key of 16, 24 or 32 bytes derives a schedule, and every entry of it. That
a key of another length, which no command hands over, derives none is the model's choice (notes/assumptions/12). -/
def Obligations.ScheduleAHoldsRoundKeysAndSBoxes : Prop :=
  (∀ key : List Byte, (∃ sch, deriveA key = some sch) ↔ key.length = 16 ∨ key.length = 24 ∨ key.length = 32) ∧
  ∀ (key : List Byte) (sch : ScheduleA), deriveA key = some sch →
    ∃ (m : List Word) (me mo svec : KeyVec),
      bytesToWords key = some m ∧ keyVec (evens m) = some me ∧ keyVec (odds m) = some mo ∧
      keyVec (rsWords key).reverse = some svec ∧
      (∀ (i : Nat) (hi : i < 20),
        let a := hWord (timesRho (BitVec.ofNat 8 (2 * i))) me
        let b := Machine.rot (hWord (timesRho (BitVec.ofNat 8 (2 * i + 1))) mo) 8
        sch.k[2 * i] = a + b ∧ sch.k[2 * i + 1] = Machine.rot (a + 2 * b) 9) ∧
      (∀ (i : Fin 4) (x : Fin 256), (sch.sb.get i).get x = (hq (timesRho (BitVec.ofFin x)) svec).get i)

/-- 42 R220, R222, R223, R224: `g`; the whitening and the sixteen rounds of `EA` on the words of a block, `v r` the words
before round `r`; those of `DA`, `v r` the words after round `r`; the packing of both; and that each undoes the other. -/
def Obligations.CipherADecryptionInvertsEncryption : Prop :=
  (∀ (sb : Vector (Vector (BitVec 8) 256) 4) (x : Word),
    gWord sb x = mds #v[(sb.get 0).get (lane x 0).toFin, (sb.get 1).get (lane x 1).toFin,
      (sb.get 2).get (lane x 2).toFin, (sb.get 3).get (lane x 3).toFin]) ∧
  (∀ (sch : ScheduleA) (w : Words4), ∃ v : Nat → Words4,
    v 0 = ⟨w.w0 ^^^ sch.k[0], w.w1 ^^^ sch.k[1], w.w2 ^^^ sch.k[2], w.w3 ^^^ sch.k[3]⟩ ∧
    (∀ (r : Nat) (hr : r < 16),
      let u := v r
      let t0 := gWord sch.sb u.w0
      let t1 := gWord sch.sb (Machine.rot u.w1 8)
      let w2 := Machine.rot (u.w2 ^^^ ((t0 + t1) + sch.k[2 * r + 8])) (-1)
      let w3 := Machine.rot u.w3 1 ^^^ ((t0 + 2 * t1) + sch.k[2 * r + 9])
      v (r + 1) = if r = 15 then ⟨u.w0, u.w1, w2, w3⟩ else ⟨w2, w3, u.w0, u.w1⟩) ∧
    encWordsA sch w = ⟨(v 16).w0 ^^^ sch.k[4], (v 16).w1 ^^^ sch.k[5], (v 16).w2 ^^^ sch.k[6], (v 16).w3 ^^^ sch.k[7]⟩) ∧
  (∀ (sch : ScheduleA) (w : Words4), ∃ v : Nat → Words4,
    v 16 = ⟨w.w0 ^^^ sch.k[4], w.w1 ^^^ sch.k[5], w.w2 ^^^ sch.k[6], w.w3 ^^^ sch.k[7]⟩ ∧
    (∀ (r : Nat) (hr : r < 16),
      let u : Words4 := if r = 15 then v 16 else ⟨(v (r + 1)).w2, (v (r + 1)).w3, (v (r + 1)).w0, (v (r + 1)).w1⟩
      let t0 := gWord sch.sb u.w0
      let t1 := gWord sch.sb (Machine.rot u.w1 8)
      v r = ⟨u.w0, u.w1, Machine.rot u.w2 1 ^^^ ((t0 + t1) + sch.k[2 * r + 8]),
        Machine.rot (u.w3 ^^^ ((t0 + 2 * t1) + sch.k[2 * r + 9])) (-1)⟩) ∧
    decWordsA sch w = ⟨(v 0).w0 ^^^ sch.k[0], (v 0).w1 ^^^ sch.k[1], (v 0).w2 ^^^ sch.k[2], (v 0).w3 ^^^ sch.k[3]⟩) ∧
  (∀ (sch : ScheduleA) (b : List Byte) (w0 w1 w2 w3 : Word), bytesToWords b = some [w0, w1, w2, w3] →
    let x := encWordsA sch ⟨w0, w1, w2, w3⟩
    let y := decWordsA sch ⟨w0, w1, w2, w3⟩
    encA sch b = wordsToBytes [x.w0, x.w1, x.w2, x.w3] ∧ decA sch b = wordsToBytes [y.w0, y.w1, y.w2, y.w3]) ∧
  (∀ (sch : ScheduleA) (b : List Byte), b.length = 16 → decA sch (encA sch b) = b ∧ encA sch (decA sch b) = b)

/-! ### Cipher B -/

/-- 44 R273: the masks, and their agreement with the S-box inputs of 44 R271. -/
def Obligations.MasksAgreeWithTheSBoxInputs : Prop :=
  lmask = #v[#v[0x0036, 0x06C0, 0x6900], #v[0x5048, 0x2106, 0x8411], #v[0x8601, 0x4828, 0x10C4],
    #v[0x2980, 0x9011, 0x022A]] ∧
  omask = #v[0x000F, 0x00F0, 0x3300, 0xCC00] ∧
  (∀ (t : Fin 4) (r : Fin 3),
    let bit (s : Fin 8) (p : Nat) : Half := (1 : Half) <<< ((sbits.get s).toList.getD p 0)
    let boxes := sliceBoxes.get t
    (lmask.get t).get r = bit boxes.1 (2 * r.val) ||| bit boxes.1 (2 * r.val + 1) |||
      bit boxes.2 (2 * r.val) ||| bit boxes.2 (2 * r.val + 1)) ∧
  (∀ (t : Fin 4) (r r' : Fin 3), r ≠ r' → (lmask.get t).get r &&& (lmask.get t).get r' = 0) ∧
  (∀ t : Fin 4, omask.get t =
    (3 : Half) <<< (2 * (sliceBoxes.get t).1.val) ||| (3 : Half) <<< (2 * (sliceBoxes.get t).2.val))

/-- 44 R275: `F` slice by slice, and that output bits `2s+1 : 2s` are the S-box `s` entry that bits of `a`, `b` and `c`
select. -/
def Obligations.FOutputBitsComeFromTheSBoxes : Prop :=
  (∀ (sb : SBoxes) (a b c : Half),
    let slice (t : Fin 4) : Half := omask.get t &&&
      stable sb (a &&& (lmask.get t).get 0 ||| b &&& (lmask.get t).get 1 ||| c &&& (lmask.get t).get 2)
    fB sb a b c = slice 0 ||| slice 1 ||| slice 2 ||| slice 3) ∧
  (∀ (sb : SBoxes) (a b c : Half) (s : Fin 8) (v : BitVec 6),
    (∀ p : Fin 6, v.getLsbD p.val =
      (if p.val < 2 then a else if p.val < 4 then b else c).getLsbD ((sbits.get s).get p)) →
    (fB sb a b c).extractLsb' (2 * s.val) 2 = (sb.get s).get v.toFin)

/-- 44 R277, R278, R279: sub-round `s` updates register `s mod 4` with `F` of the three others, keyed with the words `3s`
to `3s + 2`; it changes that register alone, reads it nowhere in `F`, and is an involution. `EB` runs the sub-rounds 0
to 31, `v s` the registers before sub-round `s`, and `DB` runs them 31 to 0, `v s` the registers after sub-round `s`,
both on the little-endian pairs of the block; and each undoes the other, whatever the S-boxes hold. -/
def Obligations.CipherBDecryptionInvertsEncryption : Prop :=
  (∀ j : Fin 32, (updatedReg j).val = j.val % 4) ∧
  (∀ (sb : SBoxes) (ek : TableB) (j : Fin 32) (r : Regs),
    (let d := updatedReg j
     let a := r.get (d + 1) ^^^ ek[3 * j.val]
     let b := r.get (d + 2) ^^^ ek[3 * j.val + 1]
     let c := r.get (d + 3) ^^^ ek[3 * j.val + 2]
     (subRound sb ek j r).get d = r.get d ^^^ fB sb a b c) ∧
    (∀ i : Fin 4, i ≠ updatedReg j → (subRound sb ek j r).get i = r.get i) ∧
    (∀ v : Half, subRoundF sb ek j (r.set (updatedReg j).val v) = subRoundF sb ek j r) ∧
    subRound sb ek j (subRound sb ek j r) = r) ∧
  (∀ (sb : SBoxes) (ek : TableB) (r : Regs), ∃ v : Nat → Regs,
    v 0 = r ∧ (∀ s : Fin 32, v (s.val + 1) = subRound sb ek s (v s.val)) ∧ encRegsB sb ek r = v 32) ∧
  (∀ (sb : SBoxes) (ek : TableB) (r : Regs), ∃ v : Nat → Regs,
    v 32 = r ∧ (∀ s : Fin 32, v s.val = subRound sb ek s (v (s.val + 1))) ∧ decRegsB sb ek r = v 0) ∧
  (∀ (sb : SBoxes) (ek : TableB) (b0 b1 b2 b3 b4 b5 b6 b7 : Byte),
    let r : Regs := #v[b1 ++ b0, b3 ++ b2, b5 ++ b4, b7 ++ b6]
    let bytes (x : Regs) : List Byte := [x[0].extractLsb' 0 8, x[0].extractLsb' 8 8, x[1].extractLsb' 0 8,
      x[1].extractLsb' 8 8, x[2].extractLsb' 0 8, x[2].extractLsb' 8 8, x[3].extractLsb' 0 8, x[3].extractLsb' 8 8]
    encB sb ek [b0, b1, b2, b3, b4, b5, b6, b7] = bytes (encRegsB sb ek r) ∧
    decB sb ek [b0, b1, b2, b3, b4, b5, b6, b7] = bytes (decRegsB sb ek r)) ∧
  (∀ (sb : SBoxes) (ek : TableB) (b : List Byte), b.length = 8 →
    decB sb ek (encB sb ek b) = b ∧ encB sb ek (decB sb ek b) = b)

/-- 44 R280. -/
def Obligations.ZeroStableMakesCipherBTheIdentity : Prop :=
  ∀ sb : SBoxes, StableZero sb →
    (∀ a b c : Half, fB sb a b c = 0) ∧
    (∀ (ek : TableB) (b : List Byte), b.length = 8 → encB sb ek b = b ∧ decB sb ek b = b)

/-- 43 R252, R253: the 64 bootstrap encryptions, for every content of the S-boxes: `blk h j` and `ek h j` are the carried
block and the working table before iteration `j` of half `h`; `SETKEY` binds the table they end in. 43 R256: the folded
halves of the key with an all-zero `STABLE`. -/
def Obligations.ZeroStableScheduleFoldsTheKeyHalves : Prop :=
  (∀ (sb : SBoxes) (key : List Byte), key.length = 16 →
    ∃ (blk : Nat → Nat → List Byte) (ek : Nat → Nat → TableB),
      blk 0 0 = key.take 8 ∧ blk 1 0 = key.drop 8 ∧ ek 0 0 = Vector.replicate 96 0 ∧ ek 1 0 = ek 0 32 ∧
      (∀ h j : Nat, h < 2 → j < 32 →
        blk h (j + 1) = encB sb (ek h j) (blk h j) ∧
        ∀ (m : Nat) (hm : m < 96), (ek h (j + 1))[m] =
          if m / 3 = j then
            (ek h j)[m] ^^^ ((blk h (j + 1)).getD (2 * (m % 3) + 1) 0 ++ (blk h (j + 1)).getD (2 * (m % 3)) 0)
          else (ek h j)[m]) ∧
      deriveB sb key = some (ek 1 32)) ∧
  (∀ (s : State) (key : List Byte), s.family = .b → key.length = 16 →
    ∃ ek, deriveB s.mcgSbox key = some ek ∧
      Succeeds (.setkey key) s { s with ek := ek, keyValid := true, keyLen := 16 } []) ∧
  ∀ sb : SBoxes, StableZero sb →
    (∀ key : List Byte, key.length = 16 → ∃ ek, deriveB sb key = some ek ∧
      ∀ (j m : Nat) (hj : j < 32) (hm : m < 3),
        ek[3 * j + m] = (key.getD (2 * m + 1) 0 ++ key.getD (2 * m) 0) ^^^
          (key.getD (8 + 2 * m + 1) 0 ++ key.getD (8 + 2 * m) 0)) ∧
    deriveB sb [0, 1, 2, 3, 4, 5, 6, 7, 8, 9, 10, 11, 12, 13, 14, 15] = some (Vector.replicate 96 0x0808)

/-! ### The session's block commands -/

/-- 60 R420, R421; 45 R313, R315, R316: the first failing check, in the order of R420, is the one reported, for every
command. -/
def Obligations.ErrorsAreReportedInTheOrderOfTheChecks : Prop :=
  (∀ (s : State) (c : Command) (rest : List HostAction), Next s c rest → IllegalWord c.cw →
    ∃ t, step s = .next t ∧ t.responses = s.responses ++ [⟨.unsupportedCommand, []⟩]) ∧
  (∀ (s : State) (n : Byte),
    (2 ≤ n.toNat → Fails (.selfam n) s .unsupportedFamily) ∧ (6 ≤ n.toNat → Fails (.setmode n) s .unsupportedMode) ∧
    (4 ≤ n.toNat → Fails (.setpad n) s .unsupportedPadding) ∧
    (7 ≤ n.toNat → ∃ t, exec (.rdreg n) s = .next t ∧ t.responses = s.responses ++ [⟨.unsupportedCommand, []⟩])) ∧
  (∀ (s : State) (i : Instr), IsCipher i → s.keyValid = false → Fails i s .missingKey) ∧
  (∀ (s : State) (d : List Byte),
    (d.length ∉ keyLengths s.family → Fails (.setkey d) s .invalidKeyLength) ∧
    (d.length ≠ 0 → d.length ≠ s.bs → Fails (.setiv d) s .invalidIvLength)) ∧
  (∀ (s : State) (d : List Byte), s.keyValid = true →
    (d.length % s.bs ≠ 0 → Fails (.decb d) s .misalignedCiphertext ∧ Fails (.decm d) s .misalignedCiphertext) ∧
    (d.length % s.bs = 0 → d.length ≠ s.bs → Fails (.decb d) s .invalidBlockLength) ∧
    (d.length ≠ s.bs → Fails (.encb d) s .invalidBlockLength)) ∧
  (∀ (s : State) (d : List Byte), s.keyValid = true → s.mode ≠ .ecb → s.ivValid = false →
    Fails (.encm d) s .missingIv ∧
    (d.length = s.bs → Fails (.encb d) s .missingIv ∧ Fails (.decb d) s .missingIv) ∧
    (d.length % s.bs = 0 → Fails (.decm d) s .missingIv)) ∧
  (∀ (s : State) (d : List Byte), s.keyValid = true → IvReady s → d.length % s.bs = 0 →
    unpadMessage s.pad s.bs (s.decryptMessage d).out = none →
    ∃ t, exec (.decm d) s = .next t ∧ t.responses = s.responses ++ [⟨.paddingValidationFailed, []⟩]) ∧
  (∀ (s : State) (d : List Byte), d.length = 5 → s.mode = .cbc → s.ivValid = false →
    (s.keyValid = false → Fails (.decb d) s .missingKey) ∧
    (s.keyValid = true → Fails (.decb d) s .misalignedCiphertext))

/-- 45 section 4 (R330, R331): with a key, a block of `BS` bytes and the IV the mode needs, `ENCB` and `DECB` complete
with a block of `BS` bytes, and write nothing but `CHAIN[0..BS)` and `ERR`. -/
def Obligations.SingleBlockCommandsComplete : Prop :=
  ∀ (s : State) (b : List Byte), s.keyValid = true → b.length = s.bs → IvReady s →
    (∃ chain out, out.length = s.bs ∧ (∀ (i : Nat) (hi : i < 16), s.bs ≤ i → chain[i] = s.chain[i]) ∧
      Succeeds (.encb b) s { s with chain := chain } out) ∧
    (∃ chain out, out.length = s.bs ∧ (∀ (i : Nat) (hi : i < 16), s.bs ≤ i → chain[i] = s.chain[i]) ∧
      Succeeds (.decb b) s { s with chain := chain } out)

/-- 45 R310: `E` and `D` are `EA` and `DA` under `K` and `SB` in family A, `EB` and `DB` under `EK` in family B. 45 R317,
R323: in ECB the block goes through `E` or `D` alone; no command of a cipher checks, reads or writes the
chain or `IV_VALID`. -/
def Obligations.EcbNeitherReadsNorWritesTheChain : Prop :=
  (∀ (s : State) (b : List Byte), s.family = .a →
    s.engine.enc b = encA ⟨s.k, s.sb⟩ b ∧ s.engine.dec b = decA ⟨s.k, s.sb⟩ b) ∧
  (∀ (s : State) (b : List Byte), s.family = .b →
    s.engine.enc b = encB s.mcgSbox s.ek b ∧ s.engine.dec b = decB s.mcgSbox s.ek b) ∧
  (∀ (s : State) (b : List Byte), s.mode = .ecb → s.keyValid = true → b.length = s.bs →
    Succeeds (.encb b) s s (s.engine.enc b) ∧ Succeeds (.decb b) s s (s.engine.dec b)) ∧
  (∀ (s : State) (i : Instr), s.mode = .ecb → IsCipher i →
    ∃ t, exec i s = .next t ∧ t.chain = s.chain ∧ t.ivValid = s.ivValid ∧
      ∀ (chain : Vector (BitVec 8) 16) (v : Bool),
        exec i { s with chain := chain, ivValid := v } = .next { t with chain := chain, ivValid := v })

/-- 45 R318, R319, R320: the block commands in CBC, PCBC and CFB. The chain written is `writeChain` of the new `CH`
over the old chain, the expression the meaning itself uses. -/
def Obligations.FeedbackModesChainTheCiphertextSide : Prop :=
  ∀ (s : State) (b : List Byte), s.keyValid = true → s.ivValid = true → b.length = s.bs →
    (s.mode = .cbc →
      (let c := s.engine.enc (xorBytes b s.ch)
       Succeeds (.encb b) s { s with chain := writeChain s.chain c } c) ∧
      (let p := xorBytes (s.engine.dec b) s.ch
       Succeeds (.decb b) s { s with chain := writeChain s.chain b } p)) ∧
    (s.mode = .pcbc →
      (let c := s.engine.enc (xorBytes b s.ch)
       Succeeds (.encb b) s { s with chain := writeChain s.chain (xorBytes b c) } c) ∧
      (let p := xorBytes (s.engine.dec b) s.ch
       Succeeds (.decb b) s { s with chain := writeChain s.chain (xorBytes p b) } p)) ∧
    (s.mode = .cfb →
      (let c := xorBytes b (s.engine.enc s.ch)
       Succeeds (.encb b) s { s with chain := writeChain s.chain c } c) ∧
      (let p := xorBytes b (s.engine.enc s.ch)
       Succeeds (.decb b) s { s with chain := writeChain s.chain b } p))

/-- 45 R321, R322: the block commands in OFB and CTR, and what `inc` is: one more, as a big-endian number modulo
2^(8·BS), `BS` bytes. 45 R332: in CFB, OFB and CTR no step applies `D`. -/
def Obligations.KeystreamModesAreSymmetric : Prop :=
  (∀ (s : State) (b : List Byte), s.keyValid = true → s.ivValid = true → b.length = s.bs →
    (s.mode = .ofb →
      let o := s.engine.enc s.ch
      Succeeds (.encb b) s { s with chain := writeChain s.chain o } (xorBytes b o) ∧
      Succeeds (.decb b) s { s with chain := writeChain s.chain o } (xorBytes b o)) ∧
    (s.mode = .ctr →
      let o := s.engine.enc s.ch
      Succeeds (.encb b) s { s with chain := writeChain s.chain (incBytes s.ch) } (xorBytes b o) ∧
      Succeeds (.decb b) s { s with chain := writeChain s.chain (incBytes s.ch) } (xorBytes b o))) ∧
  (∀ x : List Byte, (incBytes x).length = x.length ∧ beNat (incBytes x) = (beNat x + 1) % 2 ^ (8 * x.length)) ∧
  (∀ n : Nat, incBytes (List.replicate n 0xFF) = List.replicate n 0x00) ∧
  (∀ (e e' : BlockEngine) (m : Mode) (ch b : List Byte), e.enc = e'.enc → m = .cfb ∨ m = .ofb ∨ m = .ctr →
    encStep e m ch b = encStep e' m ch b ∧ decStep e m ch b = decStep e' m ch b)

/-- 45 section 4 (R333 a), with 42 R224 and 44 R279: in every mode and family, the decryption step from the same `CH`
gives back the block, and leaves the same `CH`. -/
def Obligations.DecryptionStepInvertsEncryptionStep : Prop :=
  ∀ (s : State) (m : Mode) (ch b : List Byte), ch.length = s.bs → b.length = s.bs →
    decStep s.engine m ch (encStep s.engine m ch b).out = ⟨b, (encStep s.engine m ch b).ch⟩

/-- 45 section 4 (R333 b): error propagation. In CBC a change `d` of a ciphertext block flips the same bits of the next
decrypted block and reaches no further; in CFB, OFB and CTR it flips the same bits of its own block, in CFB it
reaches the next block alone, in OFB and CTR no other block. -/
def Obligations.CiphertextChangesPropagateAsTheModeSays : Prop :=
  (∀ (e : BlockEngine) (ch c c' d : List Byte), c.length = d.length → c'.length = d.length →
    let good := decStep e .cbc (decStep e .cbc ch c).ch c'
    let bad := decStep e .cbc (decStep e .cbc ch (xorBytes c d)).ch c'
    bad.out = xorBytes good.out d ∧ bad.ch = good.ch) ∧
  (∀ (e : BlockEngine) (ch c c' d : List Byte), c.length = d.length →
    (decStep e .cfb ch (xorBytes c d)).out = xorBytes (decStep e .cfb ch c).out d ∧
    (decStep e .cfb (decStep e .cfb ch (xorBytes c d)).ch c').ch =
      (decStep e .cfb (decStep e .cfb ch c).ch c').ch) ∧
  (∀ (e : BlockEngine) (m : Mode) (ch c d : List Byte), m = .ofb ∨ m = .ctr → c.length = d.length →
    (decStep e m ch (xorBytes c d)).out = xorBytes (decStep e m ch c).out d ∧
    (decStep e m ch (xorBytes c d)).ch = (decStep e m ch c).ch)

/-- 45 section 4 (R333 c), 93 U14: block `i` uses counter `v + i` modulo 2^(8·BS), and counters fewer than 2^(8·BS)
blocks apart differ. -/
def Obligations.CounterValuesAreDistinct : Prop :=
  (∀ (v : List Byte) (i : Nat),
    (incBytes^[i] v).length = v.length ∧ beNat (incBytes^[i] v) = (beNat v + i) % 2 ^ (8 * v.length)) ∧
  (∀ (v : List Byte) (i j : Nat), i < j → j - i < 2 ^ (8 * v.length) → incBytes^[i] v ≠ incBytes^[j] v)

/-! ### Padding and messages -/

/-- 46 R351: the pad length, for all four schemes; `fill` are the `n - 1` bytes that ISO10126 draws. -/
def Obligations.EveryPaddedMessageIsWholeBlocks : Prop :=
  ∀ (f : Family) (p : Padding) (m fill : List Byte),
    let bs := blockSize f
    let n := bs - m.length % bs
    let x := padMessage p bs fill m
    fill.length = n - 1 →
      1 ≤ n ∧ n ≤ bs ∧ (m.length % bs = 0 → n = bs) ∧ padLength bs m.length = n ∧
      x.length = m.length + n ∧ x.length % bs = 0 ∧ x ≠ [] ∧
      (p ≠ .zeros → x.getLast? = some (BitVec.ofNat 8 n))

/-- 46 R352, R354, R356, R358: what each scheme appends; the fill bytes of ISO10126 are what `RND` supplies, any values. -/
def Obligations.PaddingAppendsWhatTheSchemeSays : Prop :=
  ∀ (s : State) (m : List Byte),
    let n := s.bs - m.length % s.bs
    (s.pad = .zeros → s.padded m = m ++ List.replicate n 0x00) ∧
    (s.pad = .ansix923 → s.padded m = m ++ List.replicate (n - 1) 0x00 ++ [BitVec.ofNat 8 n]) ∧
    (s.pad = .pkcs7 → s.padded m = m ++ List.replicate n (BitVec.ofNat 8 n)) ∧
    (s.pad = .iso10126 → s.padded m = m ++ s.rndBytes (n - 1) ++ [BitVec.ofNat 8 n]) ∧
    (s.pad = .iso10126 → ∀ fill : List Byte, fill.length = n - 1 →
      ({ s with rnd := fill } : State).padded m = m ++ fill ++ [BitVec.ofNat 8 n])

/-- 46 R353, R355, R357, R359: what each scheme removes, and when it fails. -/
def Obligations.PaddingRemovalFollowsTheScheme : Prop :=
  ∀ (f : Family) (x r : List Byte),
    let bs := blockSize f
    (unpadMessage .zeros bs x = some r ↔ r.getLast? ≠ some 0 ∧ ∃ n, x = r ++ List.replicate n 0) ∧
    (unpadMessage .ansix923 bs x = some r ↔
      ∃ n, 1 ≤ n ∧ n ≤ bs ∧ x = r ++ List.replicate (n - 1) 0 ++ [BitVec.ofNat 8 n]) ∧
    (unpadMessage .pkcs7 bs x = some r ↔ ∃ n, 1 ≤ n ∧ n ≤ bs ∧ x = r ++ List.replicate n (BitVec.ofNat 8 n)) ∧
    (unpadMessage .iso10126 bs x = some r ↔
      ∃ n fill, 1 ≤ n ∧ n ≤ bs ∧ fill.length = n - 1 ∧ x = r ++ fill ++ [BitVec.ofNat 8 n]) ∧
    unpadMessage .zeros bs x ≠ none

/-- 46 R362: removal of an empty sequence, and removal after padding. -/
def Obligations.UnpaddingInvertsPadding : Prop :=
  (∀ f : Family, unpadMessage .zeros (blockSize f) [] = some [] ∧ unpadMessage .ansix923 (blockSize f) [] = none ∧
    unpadMessage .pkcs7 (blockSize f) [] = none ∧ unpadMessage .iso10126 (blockSize f) [] = none) ∧
  (∀ (f : Family) (m fill : List Byte), fill.length = blockSize f - m.length % blockSize f - 1 →
    (∀ p, p ≠ .zeros → unpadMessage p (blockSize f) (padMessage p (blockSize f) fill m) = some m) ∧
    (unpadMessage .zeros (blockSize f) (padMessage .zeros (blockSize f) fill m) = some m ↔
      m = [] ∨ m.getLast? ≠ some 0))

/-- 46 section 2 (R360): with a key and the IV the mode needs, `ENCM` completes for every message: the padded message
goes block by block through the mode's step, `DOUT` has `L + n` bytes, and `RND` is read only for ISO10126, `n - 1`
bytes. The chain written is `writeChain` of the last `CH`. -/
def Obligations.EncmPadsAndEncryptsTheMessage : Prop :=
  ∀ (s : State) (m : List Byte), s.keyValid = true → IvReady s →
    let n := s.bs - m.length % s.bs
    let drawn := if s.pad = .iso10126 then n - 1 else 0
    let r := runBlocks (encStep s.engine s.mode) s.ch (blocksOf s.bs (s.padded m))
    r.out.length = m.length + n ∧
    Succeeds (.encm m) s
      { s with chain := writeChain s.chain r.ch, rnd := s.rnd.drop drawn, rndCount := s.rndCount + drawn } r.out

/-- 46 section 2 (R361), 60 R413: with a key, whole blocks and the IV the mode needs, `DECM` decrypts every block and
removes the padding; when the removal fails it reports `PaddingValidationFailed` with the advanced chain kept. -/
def Obligations.DecmDecryptsAndRemovesThePadding : Prop :=
  ∀ (s : State) (c : List Byte), s.keyValid = true → IvReady s → c.length % s.bs = 0 →
    let r := runBlocks (decStep s.engine s.mode) s.ch (blocksOf s.bs c)
    r.out.length = c.length ∧
    (∀ m, unpadMessage s.pad s.bs r.out = some m →
      Succeeds (.decm c) s { s with chain := writeChain s.chain r.ch } m) ∧
    (unpadMessage s.pad s.bs r.out = none →
      exec (.decm c) s = .next { s with
        chain := writeChain s.chain r.ch
        err := .paddingValidationFailed
        responses := s.responses ++ [⟨.paddingValidationFailed, []⟩] })

/-- 46 R363: `ENCM`, then `SETIV` with the same IV, then `DECM` of the output returns the message, in every mode, family
and padding, for Zeros with the proviso of 46 R362; both commands end with the same `CH`; in ECB no `SETIV` is needed. -/
def Obligations.MessagesRoundTrip : Prop :=
  ∀ (s : State) (m : List Byte), s.keyValid = true → IvReady s →
    (s.pad = .zeros → m = [] ∨ m.getLast? ≠ some 0) →
    ∃ (c : List Byte) (s1 s2 s3 : State),
      exec (.encm m) s = .next s1 ∧ s1.responses = s.responses ++ [⟨.ok, c⟩] ∧
      exec (.setiv s.ch) s1 = .next s2 ∧
      exec (.decm c) s2 = .next s3 ∧ s3.responses = s2.responses ++ [⟨.ok, m⟩] ∧ s3.ch = s1.ch ∧
      (s.mode = .ecb → ∃ s4, exec (.decm c) s1 = .next s4 ∧ s4.responses = s1.responses ++ [⟨.ok, m⟩] ∧
        s4.ch = s1.ch)

/-! ### Errors -/

/-- 60 R400: the codes, who raises each, and that no other code is ever produced. -/
def Obligations.StatusCodesAreTheListedOnes : Prop :=
  statusCode .ok = 0 ∧ statusCode .invalidKeyLength = 1 ∧ statusCode .invalidIvLength = 2 ∧
  statusCode .missingIv = 3 ∧ statusCode .misalignedCiphertext = 4 ∧ statusCode .unsupportedMode = 5 ∧
  statusCode .unsupportedPadding = 6 ∧ statusCode .paddingValidationFailed = 7 ∧ statusCode .missingKey = 8 ∧
  statusCode .invalidBlockLength = 9 ∧ statusCode .unsupportedCommand = 10 ∧ statusCode .unsupportedFamily = 11 ∧
  (∀ (i : Instr) (s t : State), exec i s = .next t →
    ∃ r : Response, t.responses = s.responses ++ [r] ∧ r.status ∈ codesOf i) ∧
  (∀ (s : State) (c : Command) (rest : List HostAction), Next s c rest → IllegalWord c.cw →
    ∃ t, step s = .next t ∧ t.responses = s.responses ++ [⟨.unsupportedCommand, []⟩])

/-- 60 R411: every command but `RDREG` sets `ERR` to the status it returns, `RDREG` never writes it, and a word that fails
decoding writes it whatever its `OPC`. -/
def Obligations.ErrReportsTheLastCommandButRdreg : Prop :=
  (∀ (i : Instr) (s t : State), exec i s = .next t →
    ∃ r : Response, t.responses = s.responses ++ [r] ∧ (¬ IsRdreg i → t.err = r.status) ∧
      (IsRdreg i → t.err = s.err)) ∧
  (∀ (s : State) (c : Command) (rest : List HostAction), Next s c rest → IllegalWord c.cw →
    ∃ t, step s = .next t ∧ t.err = .unsupportedCommand)

/-- 60 R413, with R410 and R412: a command that fails returns no bytes and changes nothing but `ERR` (`RDREG` nothing at
all), except `DECM` with a padding failure, which keeps the chain its blocks wrote. -/
def Obligations.OnlyPaddingFailuresKeepAPartialUpdate : Prop :=
  ∀ (i : Instr) (s t : State) (r : Response), exec i s = .next t → t.responses = s.responses ++ [r] →
    r.status ≠ .ok →
      r.dout = [] ∧
      (r.status ≠ .paddingValidationFailed →
        (IsRdreg i → t = { s with responses := s.responses ++ [r] }) ∧
        (¬ IsRdreg i → t = { s with err := r.status, responses := s.responses ++ [r] })) ∧
      (r.status = .paddingValidationFailed →
        ∃ c, i = .decm c ∧ t = { s with
          chain := writeChain s.chain (s.decryptMessage c).ch
          err := r.status
          responses := s.responses ++ [r] } ∧
        (s.mode = .ecb → t.chain = s.chain))

/-! ### The whole machine -/

/-- 60 section 6 (R446): every command, in every state, completes with exactly one response. -/
def Obligations.EveryCommandReturnsOneResponse : Prop :=
  ∀ (i : Instr) (s : State), ∃ (t : State) (r : Response), exec i s = .next t ∧ t.responses = s.responses ++ [r]

/-- 10 section 7 (R48): which command writes which state. That a cipher command writes `CHAIN` outside ECB alone follows
from 10 section 3, 45 sections 1 and 4 and 46 section 2; that `CHAIN` at and above `BS` keeps its bytes in family B, where
the spec calls them unspecified, is the model's DEDUCED reading (notes/assumptions/9). -/
def Obligations.EachCommandWritesOnlyItsState : Prop :=
  ∀ (i : Instr) (s t : State), exec i s = .next t →
    (t.family ≠ s.family → ∃ sel, i = .selfam sel) ∧
    (t.mode ≠ s.mode → ∃ sel, i = .setmode sel) ∧
    (t.pad ≠ s.pad → ∃ sel, i = .setpad sel) ∧
    (t.keyValid ≠ s.keyValid → (∃ sel, i = .selfam sel ∧ t.keyValid = false) ∨
      ∃ key, i = .setkey key ∧ t.keyValid = true) ∧
    (t.ivValid ≠ s.ivValid → (∃ sel, i = .selfam sel ∧ t.ivValid = false) ∨ ∃ iv, i = .setiv iv) ∧
    (t.err ≠ s.err → ¬ IsRdreg i) ∧
    (t.keyLen ≠ s.keyLen → (∃ sel, i = .selfam sel ∧ t.keyLen = 0) ∨ ∃ key, i = .setkey key) ∧
    (t.chain ≠ s.chain → (∃ iv, i = .setiv iv) ∨ (IsCipher i ∧ s.mode ≠ .ecb)) ∧
    (∀ (j : Nat) (hj : j < 16), s.bs ≤ j → t.chain[j] = s.chain[j]) ∧
    (t.k ≠ s.k ∨ t.sb ≠ s.sb ∨ t.ek ≠ s.ek → ∃ key, i = .setkey key) ∧
    t.mcgSbox = s.mcgSbox ∧ t.pending = s.pending ∧ t.resets = s.resets

/-- 00 section 3 (R11), 46 section 1 (R358): `RND` is read only by the ISO10126 padding of `ENCM`. -/
def Obligations.OnlyIsoPaddingDrawsRandomBytes : Prop :=
  ∀ (i : Instr) (s t : State), exec i s = .next t → t.rndCount ≠ s.rndCount ∨ t.rnd ≠ s.rnd →
    ∃ m, i = .encm m ∧ s.pad = .iso10126 ∧ t.rndCount = s.rndCount + (s.bs - m.length % s.bs - 1)

/-- 10 section 2 (R34, R38): the key state is coherent after reset. -/
def Obligations.KeyStateIsCoherentAtReset : Prop := State.reset.KeyCoherent

/-- 10 sections 2 and 4 (R34, R38, R41, R42): every step keeps the key state coherent: with a valid key the tables of the
family are the schedule of a key whose length `KEYLEN` is. -/
def Obligations.EveryStepKeepsTheKeyStateCoherent : Prop :=
  ∀ s t : State, s.KeyCoherent → step s = .next t → t.KeyCoherent

/-- 10 section 2 (R31 to R38): in every state with a coherent key state, every control register reads a legal value. -/
def Obligations.ControlRegistersReadLegalValues : Prop :=
  ∀ s : State, s.KeyCoherent →
    (s.readReg .family).toNat ≤ 1 ∧ (s.readReg .mode).toNat ≤ 5 ∧ (s.readReg .pad).toNat ≤ 3 ∧
    (s.readReg .status).toNat ≤ 3 ∧ (s.readReg .err).toNat ≤ 11 ∧
    (s.readReg .bsize = if s.readReg .family = 0 then 16 else 8) ∧
    (s.readReg .keylen = 0 ∨ s.readReg .keylen = 16 ∨
      s.readReg .family = 0 ∧ (s.readReg .keylen = 24 ∨ s.readReg .keylen = 32)) ∧
    (s.readReg .keylen = 0 ↔ (s.readReg .status).getLsbD 0 = false)

/-- 60 section 6 (R446), notes/assumptions/3: a host that keeps its side of the interface never meets a fault, and goes
on keeping it. -/
def Obligations.ConformingHostsNeverStopTheCore : Prop :=
  ∀ s : State, s.HostConforms → ∃ t, step s = .next t ∧ t.HostConforms

/-- 10 section 7 (R50), sections 3 and 4 (R40 to R42): what is unspecified after reset cannot be observed. Two states that
differ only in it give the same responses and go on differing only in it, at every step; and reset states with any
contents of `CHAIN`, `K`, `SB` and `EK` are two such states. -/
def Obligations.UnspecifiedStateIsUnobservable : Prop :=
  (∀ s t s' : State, s.SameView t → step s = .next s' → ∃ t', step t = .next t' ∧ s'.SameView t') ∧
  (∀ (chain : Vector (BitVec 8) 16) (k : Vector (BitVec 32) 40) (sb : Vector (Vector (BitVec 8) 256) 4)
    (ek : Vector (BitVec 16) 96),
    State.reset.SameView { State.reset with chain := chain, k := k, sb := sb, ek := ek })
end

