-- ==== Sys2Proof/Laws/Decode.lean ====
section
/-! SUPPORT. What the decoder's parts answer: the opcode map, the fields of an encoded command word, and
one inversion for each decoding function. -/

namespace Sys2Proof

/-- Every operation is found under its own code (30 R105). -/
@[simp] theorem Opcode.ofByte_byte (op : Opcode) : Opcode.ofByte op.byte = some op := by
  cases op <;> decide

/-- No two operations share a code (30 R105). -/
theorem Opcode.byte_injective (a b : Opcode) (hab : a.byte = b.byte) : a = b := by
  simpa using congrArg Opcode.ofByte hab

/-- What an operation code names (30 R105). -/
theorem Opcode.ofByte_eq_some (b : Byte) (op : Opcode) : Opcode.ofByte b = some op ↔ b = op.byte := by
  constructor
  · intro hb
    have := List.find?_some hb
    exact (by simpa using this : op.byte = b).symm
  · rintro rfl
    simp

/-- The codes that name no operation (30 R107). -/
theorem Opcode.ofByte_eq_none (b : Byte) : Opcode.ofByte b = none ↔ ∀ op : Opcode, b ≠ op.byte := by
  constructor
  · intro hb op ho
    simp [ho] at hb
  · intro hb
    cases ho : Opcode.ofByte b with
    | none => rfl
    | some op => exact absurd ((Opcode.ofByte_eq_some b op).mp ho) (hb op)

@[simp] theorem commandWord_opc (op : Opcode) (sel : Byte) : (commandWord op sel).extractLsb' 0 8 = op.byte := by
  apply BitVec.eq_of_getLsbD_eq
  intro i hi
  simp only [commandWord, BitVec.getLsbD_extractLsb', BitVec.getLsbD_or, BitVec.getLsbD_shiftLeft,
    BitVec.getLsbD_setWidth]
  simp [hi, show i < 32 by omega]

@[simp] theorem commandWord_sel (op : Opcode) (sel : Byte) : (commandWord op sel).extractLsb' 8 8 = sel := by
  apply BitVec.eq_of_getLsbD_eq
  intro i hi
  simp only [commandWord, BitVec.getLsbD_extractLsb', BitVec.getLsbD_or, BitVec.getLsbD_shiftLeft,
    BitVec.getLsbD_setWidth]
  simp [hi, show 8 + i < 32 by omega, show i < 32 by omega]

@[simp] theorem commandWord_rsv (op : Opcode) (sel : Byte) : (commandWord op sel).extractLsb' 16 16 = 0 := by
  apply BitVec.eq_of_getLsbD_eq
  intro i hi
  simp only [commandWord, BitVec.getLsbD_extractLsb', BitVec.getLsbD_or, BitVec.getLsbD_shiftLeft,
    BitVec.getLsbD_setWidth]
  simp [show 16 + i < 32 by omega, show (8 : Nat) ≤ 16 + i by omega, show (8 : Nat) ≤ 16 + i - 8 by omega]

/-- A legal command word (60 R420 step 0): `RSV` 0, a known `OPC`, `SEL` 0 unless it is a field. -/
theorem decodeWord_eq_ok (c : Command) (op : Opcode) :
    decodeWord c = .ok op ↔ c.rsv = 0 ∧ c.opc = op.byte ∧ (op.selIsField = true ∨ c.sel = 0) := by
  unfold decodeWord
  by_cases hr : c.rsv = 0
  · cases ho : Opcode.ofByte c.opc with
    | none =>
      have := (Opcode.ofByte_eq_none c.opc).mp ho op
      simp [hr, this]
    | some op' =>
      have h' := (Opcode.ofByte_eq_some c.opc op').mp ho
      by_cases hs : (!op'.selIsField && c.sel != 0) = true
      · simp only [hr, hs, ne_eq, not_true_eq_false, if_false, if_true, reduceCtorEq, true_and, false_iff]
        rintro ⟨h1, h2⟩
        have := Opcode.byte_injective op' op (h'.symm.trans h1)
        subst this
        rcases h2 with h2 | h2 <;> simp [h2] at hs
      · simp only [hr, ne_eq, not_true_eq_false, if_false, hs, Except.ok.injEq, true_and, Bool.false_eq_true]
        simp only [Bool.and_eq_true, not_and, Bool.not_eq_true', bne_iff_ne, ne_eq, not_not] at hs
        constructor
        · rintro rfl
          refine ⟨h', ?_⟩
          cases hf : op'.selIsField
          · exact .inr (hs hf)
          · exact .inl rfl
        · rintro ⟨h1, -⟩
          exact Opcode.byte_injective op' op (h'.symm.trans h1)
  · simp only [ne_eq, hr, not_false_eq_true, if_true, reduceCtorEq, false_and]

/-- A command word that fails decoding fails with an error of an illegal word (30 R106, R107). -/
theorem decodeWord_error_illegal (c : Command) (e : DecodeError) (he : decodeWord c = .error e) :
    e.illegal = true := by
  unfold decodeWord at he
  split at he
  · cases he; rfl
  · split at he
    · cases he; rfl
    · split at he <;> cases he
      rfl

/-- Framing fails only with errors of a transaction that is no command (30 R103). -/
theorem checkFraming_error (op : Opcode) (c : Command) (e : DecodeError) (he : checkFraming op c = .error e) :
    e.illegal = false := by
  unfold checkFraming at he
  split at he
  · cases he; rfl
  · cases he; rfl
  · split at he <;> cases he; rfl
  · split at he <;> cases he; rfl

/-- Right framing (30 R102, R103): `LEN` present exactly where the operation has one, `DIN` of its length. -/
theorem checkFraming_eq_ok (op : Opcode) (c : Command) :
    checkFraming op c = .ok () ↔
      c.len.isSome = op.hasLen ∧ c.din.length = op.dinLen ((c.len.map BitVec.toNat).getD 0) := by
  unfold checkFraming
  cases c.len <;> cases op.hasLen <;> simp

/-- Decoding answers exactly when the word is legal, the framing right, and the operands read. -/
theorem decode_eq_ok (c : Command) (i : Instr) :
    decode c = .ok i ↔
      ∃ op, decodeWord c = .ok op ∧ checkFraming op c = .ok () ∧ operands op c.sel c.din = .ok i := by
  unfold decode
  cases decodeWord c with
  | error e => simp
  | ok op =>
    cases hf : checkFraming op c with
    | error e => simp [hf]
    | ok u => simp [hf]

/-- With right framing the operands read: nothing but the word and the framing can fail. -/
theorem operands_of_framing (op : Opcode) (c : Command) (hf : checkFraming op c = .ok ()) :
    ∃ i, operands op c.sel c.din = .ok i := by
  have hl := ((checkFraming_eq_ok op c).mp hf).2
  cases op <;> simp only [Opcode.dinLen] at hl <;> (try exact ⟨_, rfl⟩) <;>
    match hd : c.din, hl with
    | [], _ => first | exact ⟨_, rfl⟩ | simp_all
    | [_, _], _ => first | exact ⟨_, rfl⟩ | simp_all
    | [_, _, _, _], _ => first | exact ⟨_, rfl⟩ | simp_all
    | [_, _, _, _, _, _, _, _], _ => first | exact ⟨_, rfl⟩ | simp_all

end Sys2Proof
end

