-- ==== Sys2Proof/Laws/Operands.lean ====
section
/-! SUPPORT. What each selector decoding answers, and when the shared checks of a cipher command pass. -/

namespace Sys2Proof.Machine

theorem familyOfSel_eq_some (sel : Byte) (f : Family) : familyOfSel sel = some f ↔ sel = familyCode f := by
  revert sel; cases f <;> decide

theorem familyOfSel_eq_none (sel : Byte) : familyOfSel sel = none ↔ 2 ≤ sel.toNat := by
  revert sel; decide

theorem modeOfSel_eq_some (sel : Byte) (m : Mode) : modeOfSel sel = some m ↔ sel = modeCode m := by
  revert sel; cases m <;> decide

theorem modeOfSel_eq_none (sel : Byte) : modeOfSel sel = none ↔ 6 ≤ sel.toNat := by
  revert sel; decide

theorem padOfSel_eq_some (sel : Byte) (p : Padding) : padOfSel sel = some p ↔ sel = padCode p := by
  revert sel; cases p <;> decide

theorem padOfSel_eq_none (sel : Byte) : padOfSel sel = none ↔ 4 ≤ sel.toNat := by
  revert sel; decide

theorem registerOfSel_eq_some (sel : Byte) (r : Register) :
    registerOfSel sel = some r ↔ sel = registerNumber r := by
  revert sel; cases r <;> decide

theorem registerOfSel_eq_none (sel : Byte) : registerOfSel sel = none ↔ 7 ≤ sel.toNat := by
  revert sel; decide

theorem blockSize_pos (f : Family) : 0 < blockSize f := by cases f <;> decide

theorem blockSize_le (f : Family) : blockSize f ≤ 16 := by cases f <;> decide

theorem State.bs_pos (s : State) : 0 < s.bs := blockSize_pos s.family

theorem State.bs_le (s : State) : s.bs ≤ 16 := blockSize_le s.family

/-- The IV check fails exactly in a mode other than ECB without a valid IV (45 R316). -/
theorem State.ivMissing_eq_true (s : State) : s.ivMissing = true ↔ s.mode ≠ .ecb ∧ s.ivValid = false := by
  simp [State.ivMissing, modeNeedsIv]

/-- The checks before the data is touched pass exactly when none of them fails (60 R420). -/
theorem State.cipherError_eq_none (s : State) (lengthError : Option Status) :
    s.cipherError lengthError = none ↔
      s.keyValid = true ∧ lengthError = none ∧ (s.mode = .ecb ∨ s.ivValid = true) := by
  have hiv := s.ivMissing_eq_true
  unfold State.cipherError
  cases hk : s.keyValid
  · simp
  cases lengthError with
  | some e => simp
  | none =>
    cases hm : s.ivMissing <;> rw [hm] at hiv <;> simp at hiv ⊢ <;> tauto

/-- The first error of a cipher command is the key's, then the length's, then the IV's (60 R420). -/
theorem State.cipherError_eq_some (s : State) (lengthError : Option Status) (e : Status) :
    s.cipherError lengthError = some e ↔
      (s.keyValid = false ∧ e = .missingKey) ∨
      (s.keyValid = true ∧ lengthError = some e) ∨
      (s.keyValid = true ∧ lengthError = none ∧ s.mode ≠ .ecb ∧ s.ivValid = false ∧ e = .missingIv) := by
  have hiv := s.ivMissing_eq_true
  unfold State.cipherError
  cases hk : s.keyValid
  · simp only [Bool.false_eq_true, if_false, Option.some.injEq, false_and, or_false, true_and]
    exact eq_comm
  cases lengthError with
  | some e' => simp
  | none =>
    cases hm : s.ivMissing <;> rw [hm] at hiv <;> simp at hiv ⊢
    · intro h h'; simp [hiv h] at h'
    · simp [hiv, eq_comm]

end Sys2Proof.Machine
end

