-- ==== Sys2Proof/Laws/Packing.lean ====
section
/-! SUPPORT. Lengths through the packers and the block engines, and which keys a schedule derivation takes. -/

namespace Sys2Proof.Machine

@[simp] theorem tabulate_getElem {α : Type} {n : Nat} (f : Fin n → α) (i : Nat) (hi : i < n) :
    (tabulate f)[i] = f ⟨i, hi⟩ := by
  simp [tabulate]

@[simp] theorem tabulate_get {α : Type} {n : Nat} (f : Fin n → α) (i : Fin n) : (tabulate f).get i = f i :=
  tabulate_getElem f i.val i.isLt

/-- Every bit of a packed word (40 R146). -/
theorem beWord_getLsbD (b0 b1 b2 b3 : Byte) (i : Nat) :
    (beWord b0 b1 b2 b3).getLsbD i =
      if i < 8 then b3.getLsbD i else if i < 16 then b2.getLsbD (i - 8)
      else if i < 24 then b1.getLsbD (i - 16) else b0.getLsbD (i - 24) := by
  simp only [beWord, BitVec.getLsbD_or, BitVec.getLsbD_shiftLeft, BitVec.getLsbD_setWidth]
  have h0 : ∀ (b : Byte) j, 8 ≤ j → b.getLsbD j = false := fun b j h => BitVec.getLsbD_of_ge b j h
  by_cases h1 : i < 8
  · simp [h1, show i < 16 by omega, show i < 24 by omega, show i < 32 by omega]
  by_cases h2 : i < 16
  · simp [h1, h2, show i < 24 by omega, show i < 32 by omega, h0 b3 i (by omega), show i - 8 < 32 by omega]
  by_cases h3 : i < 24
  · simp [h1, h2, h3, show i < 32 by omega, h0 b3 i (by omega), h0 b2 (i - 8) (by omega),
      show i - 8 < 32 by omega, show i - 16 < 32 by omega]
  by_cases h4 : i < 32
  · simp [h1, h2, h3, h4, h0 b3 i (by omega), h0 b2 (i - 8) (by omega), h0 b1 (i - 16) (by omega),
      show i - 24 < 32 by omega]
  · simp [h1, h2, h3, h4, h0 b0 (i - 24) (by omega)]

/-- The packer and its inverse, one word (40 R147). -/
@[simp] theorem wordBytes_beWord (b0 b1 b2 b3 : Byte) : wordBytes (beWord b0 b1 b2 b3) = [b0, b1, b2, b3] := by
  simp only [wordBytes, List.cons.injEq, and_true]
  refine ⟨?_, ?_, ?_, ?_⟩ <;>
    (apply BitVec.eq_of_getLsbD_eq; intro i hi
     simp only [BitVec.getLsbD_extractLsb', beWord_getLsbD, hi, decide_true, Bool.true_and])
  · simp [show ¬ 24 + i < 8 by omega, show ¬ 24 + i < 16 by omega, show ¬ 24 + i < 24 by omega]
  · simp [show ¬ 16 + i < 8 by omega, show ¬ 16 + i < 16 by omega, show 16 + i < 24 by omega]
  · simp [show ¬ 8 + i < 8 by omega, show 8 + i < 16 by omega]
  · simp [hi]

/-- The packer and its inverse, the other way (40 R147). -/
@[simp] theorem beWord_wordBytes (w : Word) :
    beWord (w.extractLsb' 24 8) (w.extractLsb' 16 8) (w.extractLsb' 8 8) (w.extractLsb' 0 8) = w := by
  apply BitVec.eq_of_getLsbD_eq
  intro i hi
  simp only [beWord_getLsbD, BitVec.getLsbD_extractLsb']
  split
  · simp [*]
  split
  · simp [show i - 8 < 8 by omega, show 8 + (i - 8) = i by omega]
  split
  · simp [show i - 16 < 8 by omega, show 16 + (i - 16) = i by omega]
  · simp [show i - 24 < 8 by omega, show 24 + (i - 24) = i by omega]

/-- The pair packer and its inverse, one half (40 R148). -/
@[simp] theorem halfBytes_leHalf (b0 b1 : Byte) : halfBytes (leHalf b0 b1) = [b0, b1] := by
  simp only [halfBytes, leHalf, List.cons.injEq, and_true]
  refine ⟨?_, ?_⟩ <;> (apply BitVec.eq_of_getLsbD_eq; intro i hi; simp [hi])
  · intro _; omega
  · simp [show 8 + i < 16 by omega, show i < 16 by omega]

/-- The pair packer and its inverse, the other way (40 R148). -/
@[simp] theorem leHalf_halfBytes (h : Half) : leHalf (h.extractLsb' 0 8) (h.extractLsb' 8 8) = h := by
  apply BitVec.eq_of_getLsbD_eq
  intro i hi
  simp only [leHalf, BitVec.getLsbD_or, BitVec.getLsbD_shiftLeft, BitVec.getLsbD_setWidth,
    BitVec.getLsbD_extractLsb']
  by_cases h1 : i < 8
  · simp [h1, hi]
  · simp [h1, hi, show i - 8 < 8 by omega, show i - 8 < 16 by omega, show 8 + (i - 8) = i by omega]

/-- Big-endian packing is concatenation (40 R146). -/
theorem beWord_eq_append (b0 b1 b2 b3 : Byte) : beWord b0 b1 b2 b3 = b0 ++ b1 ++ b2 ++ b3 := by
  apply BitVec.eq_of_getLsbD_eq
  intro i hi
  rw [beWord_getLsbD]
  simp only [BitVec.getLsbD_append]
  by_cases h1 : i < 8 <;> by_cases h2 : i < 16 <;> by_cases h3 : i < 24 <;>
    simp [h1, h2, h3] <;> (try omega) <;>
    simp [show i - 8 < 8 ↔ i < 16 by omega, h2, Nat.sub_sub] <;> (try omega)

@[simp] theorem wordBytes_length (w : Word) : (wordBytes w).length = 4 := rfl

@[simp] theorem halfBytes_length (h : Half) : (halfBytes h).length = 2 := rfl

@[simp] theorem wordsToBytes_length (ws : List Word) : (wordsToBytes ws).length = 4 * ws.length := by
  induction ws with
  | nil => rfl
  | cons w ws ih =>
    rw [show wordsToBytes (w :: ws) = wordBytes w ++ wordsToBytes ws from rfl]
    simp [ih]; omega

@[simp] theorem halvesToPairs_length (hs : List Half) : (halvesToPairs hs).length = 2 * hs.length := by
  induction hs with
  | nil => rfl
  | cons h hs ih =>
    rw [show halvesToPairs (h :: hs) = halfBytes h ++ halvesToPairs hs from rfl]
    simp [ih]; omega

@[simp] theorem xorBytes_length (a b : List Byte) : (xorBytes a b).length = min a.length b.length := by
  simp [xorBytes]

@[simp] theorem natBytes_length (n v : Nat) : (natBytes n v).length = n := by
  induction n generalizing v with
  | zero => rfl
  | succ n ih => simp [natBytes, ih]

@[simp] theorem incBytes_length (bs : List Byte) : (incBytes bs).length = bs.length := by
  simp [incBytes]

/-- A sequence of `4n` bytes packs into `n` words. -/
theorem bytesToWords_of_length (n : Nat) (bs : List Byte) (hl : bs.length = 4 * n) :
    ∃ ws, bytesToWords bs = some ws ∧ ws.length = n := by
  induction n generalizing bs with
  | zero => exact ⟨[], by rw [List.length_eq_zero_iff.mp hl]; rfl, rfl⟩
  | succ n ih =>
    match bs, hl with
    | b0 :: b1 :: b2 :: b3 :: rest, hl =>
      obtain ⟨ws, hw, hn⟩ := ih rest (by simp at hl; omega)
      exact ⟨beWord b0 b1 b2 b3 :: ws, by simp [bytesToWords, hw], by simp [hn]⟩

/-- A sequence of `2n` bytes packs into `n` halves. -/
theorem pairsToHalves_of_length (n : Nat) (bs : List Byte) (hl : bs.length = 2 * n) :
    ∃ hs, pairsToHalves bs = some hs ∧ hs.length = n := by
  induction n generalizing bs with
  | zero => exact ⟨[], by rw [List.length_eq_zero_iff.mp hl]; rfl, rfl⟩
  | succ n ih =>
    match bs, hl with
    | b0 :: b1 :: rest, hl =>
      obtain ⟨hs, hh, hn⟩ := ih rest (by simp at hl; omega)
      exact ⟨leHalf b0 b1 :: hs, by simp [pairsToHalves, hh], by simp [hn]⟩

theorem bytesToWords_block (b : List Byte) (hb : b.length = 16) :
    ∃ w0 w1 w2 w3, bytesToWords b = some [w0, w1, w2, w3] := by
  obtain ⟨ws, hw, hn⟩ := bytesToWords_of_length 4 b hb
  match ws, hn with
  | [w0, w1, w2, w3], _ => exact ⟨w0, w1, w2, w3, hw⟩

theorem pairsToHalves_block (b : List Byte) (hb : b.length = 8) :
    ∃ r0 r1 r2 r3, pairsToHalves b = some [r0, r1, r2, r3] := by
  obtain ⟨hs, hh, hn⟩ := pairsToHalves_of_length 4 b hb
  match hs, hn with
  | [r0, r1, r2, r3], _ => exact ⟨r0, r1, r2, r3, hh⟩

theorem onWords_length (f : Words4 → Words4) (b : List Byte) (hb : b.length = 16) :
    (onWords f b).length = 16 := by
  obtain ⟨w0, w1, w2, w3, h⟩ := bytesToWords_block b hb
  simp [onWords, h]

theorem onRegs_length (f : Regs → Regs) (b : List Byte) (hb : b.length = 8) : (onRegs f b).length = 8 := by
  obtain ⟨r0, r1, r2, r3, h⟩ := pairsToHalves_block b hb
  simp [onRegs, h]

theorem rsWords_length (n : Nat) (key : List Byte) (hl : key.length = 8 * n) : (rsWords key).length = n := by
  induction n generalizing key with
  | zero => rw [List.length_eq_zero_iff.mp hl]; rfl
  | succ n ih =>
    match key, hl with
    | _ :: _ :: _ :: _ :: _ :: _ :: _ :: _ :: rest, hl =>
      simp [rsWords, ih rest (by simp at hl; omega)]

theorem evens_odds_length (n : Nat) (ws : List Word) (hl : ws.length = 2 * n) :
    (evens ws).length = n ∧ (odds ws).length = n := by
  induction n generalizing ws with
  | zero => rw [List.length_eq_zero_iff.mp hl]; exact ⟨rfl, rfl⟩
  | succ n ih =>
    match ws, hl with
    | _ :: _ :: rest, hl =>
      have := ih rest (by simp at hl; omega)
      simp [evens, odds, this]

/-- A vector of 2, 3 or 4 words is a key vector (41 R180). -/
theorem keyVec_of_length (ws : List Word) (hl : ws.length = 2 ∨ ws.length = 3 ∨ ws.length = 4) :
    ∃ l, keyVec ws = some l := by
  match ws, hl with
  | [l0, l1], _ => exact ⟨.k2 l0 l1, rfl⟩
  | [l0, l1, l2], _ => exact ⟨.k3 l0 l1 l2, rfl⟩
  | [l0, l1, l2, l3], _ => exact ⟨.k4 l0 l1 l2 l3, rfl⟩

/-- The Cipher A derivation takes every key of 16, 24 or 32 bytes (41 R180, R200). -/
theorem deriveA_of_length (key : List Byte) (hl : key.length = 16 ∨ key.length = 24 ∨ key.length = 32) :
    ∃ sch, deriveA key = some sch := by
  obtain ⟨k, hk, hkl⟩ : ∃ k, (k = 2 ∨ k = 3 ∨ k = 4) ∧ key.length = 8 * k := by
    rcases hl with h | h | h
    exacts [⟨2, by simp, h⟩, ⟨3, by simp, h⟩, ⟨4, by simp, h⟩]
  obtain ⟨m, hm, hml⟩ := bytesToWords_of_length (2 * k) key (by omega)
  obtain ⟨he, ho⟩ := evens_odds_length k m hml
  obtain ⟨me, hme⟩ := keyVec_of_length (evens m) (by omega)
  obtain ⟨mo, hmo⟩ := keyVec_of_length (odds m) (by omega)
  obtain ⟨svec, hs⟩ := keyVec_of_length (rsWords key).reverse
    (by rw [List.length_reverse, rsWords_length k key hkl]; omega)
  exact ⟨⟨roundKeys me mo, keySBoxes svec⟩, by simp [deriveA, hl, hm, hme, hmo, hs]⟩

/-- The Cipher A derivation takes keys of 16, 24 and 32 bytes and no others (41 R180; notes/assumptions/12). -/
theorem deriveA_isSome (key : List Byte) :
    (deriveA key).isSome = true ↔ key.length = 16 ∨ key.length = 24 ∨ key.length = 32 := by
  constructor
  · intro h
    by_contra hl
    simp [deriveA, hl] at h
  · intro hl
    obtain ⟨sch, h⟩ := deriveA_of_length key hl
    simp [h]

/-- What a derived Cipher A schedule holds: the round keys and the S-boxes of the key's words (41 R200). -/
theorem deriveA_eq_some {key : List Byte} {sch : ScheduleA} (h : deriveA key = some sch) :
    ∃ m me mo svec, bytesToWords key = some m ∧ keyVec (evens m) = some me ∧ keyVec (odds m) = some mo ∧
      keyVec (rsWords key).reverse = some svec ∧ sch = ⟨roundKeys me mo, keySBoxes svec⟩ := by
  unfold deriveA at h
  split at h
  · simp only [Option.bind_eq_bind, Option.bind_eq_some_iff, Option.pure_def, Option.some.injEq] at h
    obtain ⟨m, hm, me, hme, mo, hmo, svec, hs, rfl⟩ := h
    exact ⟨m, me, mo, svec, hm, hme, hmo, hs, rfl⟩
  · cases h

/-- The Cipher B derivation takes every key of 16 bytes (43 R250, R255). -/
theorem deriveB_of_length (sb : SBoxes) (key : List Byte) (hl : key.length = 16) :
    ∃ ek, deriveB sb key = some ek := by
  obtain ⟨hs, hh, hn⟩ := pairsToHalves_of_length 8 key hl
  match hs, hn with
  | [a0, a1, a2, a3, b0, b1, b2, b3], _ => exact ⟨_, by rw [deriveB, hh]⟩

/-! ### Rounds one after another -/

/-- A run over the rounds in order, as the sequence of its states (42 R222, 44 R277). -/
theorem foldl_finRange_trace {α : Type} (n : Nat) (f : α → Fin n → α) (a : α) :
    ∃ v : Nat → α, v 0 = a ∧ (∀ s : Fin n, v (s.val + 1) = f (v s.val) s) ∧
      (List.finRange n).foldl f a = v n := by
  induction n with
  | zero => exact ⟨fun _ => a, rfl, fun s => s.elim0, rfl⟩
  | succ n ih =>
    obtain ⟨v, h0, hs, hn⟩ := ih fun x s => f x s.castSucc
    refine ⟨fun i => if i ≤ n then v i else f (v n) (Fin.last n), by simpa using h0, fun s => ?_, ?_⟩
    · rcases Fin.eq_castSucc_or_eq_last s with ⟨s, rfl⟩ | rfl
      · have := s.isLt
        simp [hs s, show s.val ≤ n by omega, show s.val + 1 ≤ n by omega]
      · simp
    · rw [List.finRange_succ_last, List.foldl_append, List.foldl_map, hn]
      simp

/-- A run over the rounds in reverse order, as the sequence of its states: `v s` is the state after round `s`
(42 R223, 44 R278). -/
theorem foldl_finRange_reverse_trace {α : Type} (n : Nat) (f : α → Fin n → α) (a : α) :
    ∃ v : Nat → α, v n = a ∧ (∀ s : Fin n, v s.val = f (v (s.val + 1)) s) ∧
      (List.finRange n).reverse.foldl f a = v 0 := by
  induction n generalizing a with
  | zero => exact ⟨fun _ => a, rfl, fun s => s.elim0, rfl⟩
  | succ n ih =>
    obtain ⟨v, hn, hs, h0⟩ := ih (fun x s => f x s.castSucc) (f a (Fin.last n))
    refine ⟨fun i => if i ≤ n then v i else a, by simp, fun s => ?_, ?_⟩
    · rcases Fin.eq_castSucc_or_eq_last s with ⟨s, rfl⟩ | rfl
      · have := s.isLt
        simp [hs s, show s.val ≤ n by omega, show s.val + 1 ≤ n by omega]
      · simp [hn]
    · rw [List.finRange_succ_last, List.reverse_append, List.foldl_append, ← List.map_reverse, List.foldl_map]
      simpa using h0

end Sys2Proof.Machine
end

