-- ==== Sys2Proof/Laws/State.lean ====
section
/-! SUPPORT. What each named update of the state does to each field: one lemma per field per update, so that
no proof unfolds an update. -/

namespace Sys2Proof.Machine

/-! ### `State.respond`: returning a response -/

@[simp] theorem State.respond_family (s : State) (status : Status) (dout : List Byte) :
    (s.respond status dout).family = s.family := rfl
@[simp] theorem State.respond_mode (s : State) (status : Status) (dout : List Byte) :
    (s.respond status dout).mode = s.mode := rfl
@[simp] theorem State.respond_pad (s : State) (status : Status) (dout : List Byte) :
    (s.respond status dout).pad = s.pad := rfl
@[simp] theorem State.respond_keyValid (s : State) (status : Status) (dout : List Byte) :
    (s.respond status dout).keyValid = s.keyValid := rfl
@[simp] theorem State.respond_ivValid (s : State) (status : Status) (dout : List Byte) :
    (s.respond status dout).ivValid = s.ivValid := rfl
@[simp] theorem State.respond_err (s : State) (status : Status) (dout : List Byte) :
    (s.respond status dout).err = s.err := rfl
@[simp] theorem State.respond_keyLen (s : State) (status : Status) (dout : List Byte) :
    (s.respond status dout).keyLen = s.keyLen := rfl
@[simp] theorem State.respond_chain (s : State) (status : Status) (dout : List Byte) :
    (s.respond status dout).chain = s.chain := rfl
@[simp] theorem State.respond_k (s : State) (status : Status) (dout : List Byte) :
    (s.respond status dout).k = s.k := rfl
@[simp] theorem State.respond_sb (s : State) (status : Status) (dout : List Byte) :
    (s.respond status dout).sb = s.sb := rfl
@[simp] theorem State.respond_ek (s : State) (status : Status) (dout : List Byte) :
    (s.respond status dout).ek = s.ek := rfl
@[simp] theorem State.respond_mcgSbox (s : State) (status : Status) (dout : List Byte) :
    (s.respond status dout).mcgSbox = s.mcgSbox := rfl
@[simp] theorem State.respond_pending (s : State) (status : Status) (dout : List Byte) :
    (s.respond status dout).pending = s.pending := rfl
@[simp] theorem State.respond_responses (s : State) (status : Status) (dout : List Byte) :
    (s.respond status dout).responses = s.responses ++ [⟨status, dout⟩] := rfl
@[simp] theorem State.respond_rnd (s : State) (status : Status) (dout : List Byte) :
    (s.respond status dout).rnd = s.rnd := rfl
@[simp] theorem State.respond_rndCount (s : State) (status : Status) (dout : List Byte) :
    (s.respond status dout).rndCount = s.rndCount := rfl
@[simp] theorem State.respond_resets (s : State) (status : Status) (dout : List Byte) :
    (s.respond status dout).resets = s.resets := rfl

/-! ### `State.finish`: ending with success -/

@[simp] theorem State.finish_family (s : State) (dout : List Byte) : (s.finish dout).family = s.family := rfl
@[simp] theorem State.finish_mode (s : State) (dout : List Byte) : (s.finish dout).mode = s.mode := rfl
@[simp] theorem State.finish_pad (s : State) (dout : List Byte) : (s.finish dout).pad = s.pad := rfl
@[simp] theorem State.finish_keyValid (s : State) (dout : List Byte) : (s.finish dout).keyValid = s.keyValid := rfl
@[simp] theorem State.finish_ivValid (s : State) (dout : List Byte) : (s.finish dout).ivValid = s.ivValid := rfl
@[simp] theorem State.finish_err (s : State) (dout : List Byte) : (s.finish dout).err = .ok := rfl
@[simp] theorem State.finish_keyLen (s : State) (dout : List Byte) : (s.finish dout).keyLen = s.keyLen := rfl
@[simp] theorem State.finish_chain (s : State) (dout : List Byte) : (s.finish dout).chain = s.chain := rfl
@[simp] theorem State.finish_k (s : State) (dout : List Byte) : (s.finish dout).k = s.k := rfl
@[simp] theorem State.finish_sb (s : State) (dout : List Byte) : (s.finish dout).sb = s.sb := rfl
@[simp] theorem State.finish_ek (s : State) (dout : List Byte) : (s.finish dout).ek = s.ek := rfl
@[simp] theorem State.finish_mcgSbox (s : State) (dout : List Byte) : (s.finish dout).mcgSbox = s.mcgSbox := rfl
@[simp] theorem State.finish_pending (s : State) (dout : List Byte) : (s.finish dout).pending = s.pending := rfl
@[simp] theorem State.finish_responses (s : State) (dout : List Byte) :
    (s.finish dout).responses = s.responses ++ [⟨.ok, dout⟩] := rfl
@[simp] theorem State.finish_rnd (s : State) (dout : List Byte) : (s.finish dout).rnd = s.rnd := rfl
@[simp] theorem State.finish_rndCount (s : State) (dout : List Byte) : (s.finish dout).rndCount = s.rndCount := rfl
@[simp] theorem State.finish_resets (s : State) (dout : List Byte) : (s.finish dout).resets = s.resets := rfl

/-! ### `State.raise`: ending with an error -/

@[simp] theorem State.raise_family (s : State) (code : Status) : (s.raise code).family = s.family := rfl
@[simp] theorem State.raise_mode (s : State) (code : Status) : (s.raise code).mode = s.mode := rfl
@[simp] theorem State.raise_pad (s : State) (code : Status) : (s.raise code).pad = s.pad := rfl
@[simp] theorem State.raise_keyValid (s : State) (code : Status) : (s.raise code).keyValid = s.keyValid := rfl
@[simp] theorem State.raise_ivValid (s : State) (code : Status) : (s.raise code).ivValid = s.ivValid := rfl
@[simp] theorem State.raise_err (s : State) (code : Status) : (s.raise code).err = code := rfl
@[simp] theorem State.raise_keyLen (s : State) (code : Status) : (s.raise code).keyLen = s.keyLen := rfl
@[simp] theorem State.raise_chain (s : State) (code : Status) : (s.raise code).chain = s.chain := rfl
@[simp] theorem State.raise_k (s : State) (code : Status) : (s.raise code).k = s.k := rfl
@[simp] theorem State.raise_sb (s : State) (code : Status) : (s.raise code).sb = s.sb := rfl
@[simp] theorem State.raise_ek (s : State) (code : Status) : (s.raise code).ek = s.ek := rfl
@[simp] theorem State.raise_mcgSbox (s : State) (code : Status) : (s.raise code).mcgSbox = s.mcgSbox := rfl
@[simp] theorem State.raise_pending (s : State) (code : Status) : (s.raise code).pending = s.pending := rfl
@[simp] theorem State.raise_responses (s : State) (code : Status) :
    (s.raise code).responses = s.responses ++ [⟨code, []⟩] := rfl
@[simp] theorem State.raise_rnd (s : State) (code : Status) : (s.raise code).rnd = s.rnd := rfl
@[simp] theorem State.raise_rndCount (s : State) (code : Status) : (s.raise code).rndCount = s.rndCount := rfl
@[simp] theorem State.raise_resets (s : State) (code : Status) : (s.raise code).resets = s.resets := rfl

/-! ### `State.setCh`: writing `CH` -/

@[simp] theorem State.setCh_family (s : State) (v : List Byte) : (s.setCh v).family = s.family := by
  simp only [State.setCh]
@[simp] theorem State.setCh_mode (s : State) (v : List Byte) : (s.setCh v).mode = s.mode := by
  simp only [State.setCh]
@[simp] theorem State.setCh_pad (s : State) (v : List Byte) : (s.setCh v).pad = s.pad := by
  simp only [State.setCh]
@[simp] theorem State.setCh_keyValid (s : State) (v : List Byte) : (s.setCh v).keyValid = s.keyValid := by
  simp only [State.setCh]
@[simp] theorem State.setCh_ivValid (s : State) (v : List Byte) : (s.setCh v).ivValid = s.ivValid := by
  simp only [State.setCh]
@[simp] theorem State.setCh_err (s : State) (v : List Byte) : (s.setCh v).err = s.err := by
  simp only [State.setCh]
@[simp] theorem State.setCh_keyLen (s : State) (v : List Byte) : (s.setCh v).keyLen = s.keyLen := by
  simp only [State.setCh]
@[simp] theorem State.setCh_chain (s : State) (v : List Byte) : (s.setCh v).chain = writeChain s.chain v := by
  simp only [State.setCh]
@[simp] theorem State.setCh_k (s : State) (v : List Byte) : (s.setCh v).k = s.k := by
  simp only [State.setCh]
@[simp] theorem State.setCh_sb (s : State) (v : List Byte) : (s.setCh v).sb = s.sb := by
  simp only [State.setCh]
@[simp] theorem State.setCh_ek (s : State) (v : List Byte) : (s.setCh v).ek = s.ek := by
  simp only [State.setCh]
@[simp] theorem State.setCh_mcgSbox (s : State) (v : List Byte) : (s.setCh v).mcgSbox = s.mcgSbox := by
  simp only [State.setCh]
@[simp] theorem State.setCh_pending (s : State) (v : List Byte) : (s.setCh v).pending = s.pending := by
  simp only [State.setCh]
@[simp] theorem State.setCh_responses (s : State) (v : List Byte) : (s.setCh v).responses = s.responses := by
  simp only [State.setCh]
@[simp] theorem State.setCh_rnd (s : State) (v : List Byte) : (s.setCh v).rnd = s.rnd := by
  simp only [State.setCh]
@[simp] theorem State.setCh_rndCount (s : State) (v : List Byte) : (s.setCh v).rndCount = s.rndCount := by
  simp only [State.setCh]
@[simp] theorem State.setCh_resets (s : State) (v : List Byte) : (s.setCh v).resets = s.resets := by
  simp only [State.setCh]

/-! ### `State.bindA`: binding a Cipher A schedule -/

@[simp] theorem State.bindA_family (s : State) (sch : ScheduleA) (len : Byte) :
    (s.bindA sch len).family = s.family := rfl
@[simp] theorem State.bindA_mode (s : State) (sch : ScheduleA) (len : Byte) : (s.bindA sch len).mode = s.mode := rfl
@[simp] theorem State.bindA_pad (s : State) (sch : ScheduleA) (len : Byte) : (s.bindA sch len).pad = s.pad := rfl
@[simp] theorem State.bindA_keyValid (s : State) (sch : ScheduleA) (len : Byte) :
    (s.bindA sch len).keyValid = true := rfl
@[simp] theorem State.bindA_ivValid (s : State) (sch : ScheduleA) (len : Byte) :
    (s.bindA sch len).ivValid = s.ivValid := rfl
@[simp] theorem State.bindA_err (s : State) (sch : ScheduleA) (len : Byte) : (s.bindA sch len).err = s.err := rfl
@[simp] theorem State.bindA_keyLen (s : State) (sch : ScheduleA) (len : Byte) :
    (s.bindA sch len).keyLen = len := rfl
@[simp] theorem State.bindA_chain (s : State) (sch : ScheduleA) (len : Byte) :
    (s.bindA sch len).chain = s.chain := rfl
@[simp] theorem State.bindA_k (s : State) (sch : ScheduleA) (len : Byte) : (s.bindA sch len).k = sch.k := rfl
@[simp] theorem State.bindA_sb (s : State) (sch : ScheduleA) (len : Byte) : (s.bindA sch len).sb = sch.sb := rfl
@[simp] theorem State.bindA_ek (s : State) (sch : ScheduleA) (len : Byte) : (s.bindA sch len).ek = s.ek := rfl
@[simp] theorem State.bindA_mcgSbox (s : State) (sch : ScheduleA) (len : Byte) :
    (s.bindA sch len).mcgSbox = s.mcgSbox := rfl
@[simp] theorem State.bindA_pending (s : State) (sch : ScheduleA) (len : Byte) :
    (s.bindA sch len).pending = s.pending := rfl
@[simp] theorem State.bindA_responses (s : State) (sch : ScheduleA) (len : Byte) :
    (s.bindA sch len).responses = s.responses := rfl
@[simp] theorem State.bindA_rnd (s : State) (sch : ScheduleA) (len : Byte) : (s.bindA sch len).rnd = s.rnd := rfl
@[simp] theorem State.bindA_rndCount (s : State) (sch : ScheduleA) (len : Byte) :
    (s.bindA sch len).rndCount = s.rndCount := rfl
@[simp] theorem State.bindA_resets (s : State) (sch : ScheduleA) (len : Byte) :
    (s.bindA sch len).resets = s.resets := rfl

/-! ### `State.bindB`: binding a Cipher B schedule -/

@[simp] theorem State.bindB_family (s : State) (ek : TableB) (len : Byte) : (s.bindB ek len).family = s.family := rfl
@[simp] theorem State.bindB_mode (s : State) (ek : TableB) (len : Byte) : (s.bindB ek len).mode = s.mode := rfl
@[simp] theorem State.bindB_pad (s : State) (ek : TableB) (len : Byte) : (s.bindB ek len).pad = s.pad := rfl
@[simp] theorem State.bindB_keyValid (s : State) (ek : TableB) (len : Byte) : (s.bindB ek len).keyValid = true := rfl
@[simp] theorem State.bindB_ivValid (s : State) (ek : TableB) (len : Byte) :
    (s.bindB ek len).ivValid = s.ivValid := rfl
@[simp] theorem State.bindB_err (s : State) (ek : TableB) (len : Byte) : (s.bindB ek len).err = s.err := rfl
@[simp] theorem State.bindB_keyLen (s : State) (ek : TableB) (len : Byte) :
    (s.bindB ek len).keyLen = len := rfl
@[simp] theorem State.bindB_chain (s : State) (ek : TableB) (len : Byte) : (s.bindB ek len).chain = s.chain := rfl
@[simp] theorem State.bindB_k (s : State) (ek : TableB) (len : Byte) : (s.bindB ek len).k = s.k := rfl
@[simp] theorem State.bindB_sb (s : State) (ek : TableB) (len : Byte) : (s.bindB ek len).sb = s.sb := rfl
@[simp] theorem State.bindB_ek (s : State) (ek : TableB) (len : Byte) : (s.bindB ek len).ek = ek := rfl
@[simp] theorem State.bindB_mcgSbox (s : State) (ek : TableB) (len : Byte) :
    (s.bindB ek len).mcgSbox = s.mcgSbox := rfl
@[simp] theorem State.bindB_pending (s : State) (ek : TableB) (len : Byte) :
    (s.bindB ek len).pending = s.pending := rfl
@[simp] theorem State.bindB_responses (s : State) (ek : TableB) (len : Byte) :
    (s.bindB ek len).responses = s.responses := rfl
@[simp] theorem State.bindB_rnd (s : State) (ek : TableB) (len : Byte) : (s.bindB ek len).rnd = s.rnd := rfl
@[simp] theorem State.bindB_rndCount (s : State) (ek : TableB) (len : Byte) :
    (s.bindB ek len).rndCount = s.rndCount := rfl
@[simp] theorem State.bindB_resets (s : State) (ek : TableB) (len : Byte) : (s.bindB ek len).resets = s.resets := rfl

/-! ### `State.rndDrop`: drawing `RND` bytes -/

@[simp] theorem State.rndDrop_family (s : State) (n : Nat) : (s.rndDrop n).family = s.family := rfl
@[simp] theorem State.rndDrop_mode (s : State) (n : Nat) : (s.rndDrop n).mode = s.mode := rfl
@[simp] theorem State.rndDrop_pad (s : State) (n : Nat) : (s.rndDrop n).pad = s.pad := rfl
@[simp] theorem State.rndDrop_keyValid (s : State) (n : Nat) : (s.rndDrop n).keyValid = s.keyValid := rfl
@[simp] theorem State.rndDrop_ivValid (s : State) (n : Nat) : (s.rndDrop n).ivValid = s.ivValid := rfl
@[simp] theorem State.rndDrop_err (s : State) (n : Nat) : (s.rndDrop n).err = s.err := rfl
@[simp] theorem State.rndDrop_keyLen (s : State) (n : Nat) : (s.rndDrop n).keyLen = s.keyLen := rfl
@[simp] theorem State.rndDrop_chain (s : State) (n : Nat) : (s.rndDrop n).chain = s.chain := rfl
@[simp] theorem State.rndDrop_k (s : State) (n : Nat) : (s.rndDrop n).k = s.k := rfl
@[simp] theorem State.rndDrop_sb (s : State) (n : Nat) : (s.rndDrop n).sb = s.sb := rfl
@[simp] theorem State.rndDrop_ek (s : State) (n : Nat) : (s.rndDrop n).ek = s.ek := rfl
@[simp] theorem State.rndDrop_mcgSbox (s : State) (n : Nat) : (s.rndDrop n).mcgSbox = s.mcgSbox := rfl
@[simp] theorem State.rndDrop_pending (s : State) (n : Nat) : (s.rndDrop n).pending = s.pending := rfl
@[simp] theorem State.rndDrop_responses (s : State) (n : Nat) : (s.rndDrop n).responses = s.responses := rfl
@[simp] theorem State.rndDrop_rnd (s : State) (n : Nat) : (s.rndDrop n).rnd = s.rnd.drop n := rfl
@[simp] theorem State.rndDrop_rndCount (s : State) (n : Nat) : (s.rndDrop n).rndCount = s.rndCount + n := rfl
@[simp] theorem State.rndDrop_resets (s : State) (n : Nat) : (s.rndDrop n).resets = s.resets := rfl

/-! ### `State.popAction`: taking an action off the queue -/

@[simp] theorem State.popAction_family (s : State) : s.popAction.family = s.family := rfl
@[simp] theorem State.popAction_mode (s : State) : s.popAction.mode = s.mode := rfl
@[simp] theorem State.popAction_pad (s : State) : s.popAction.pad = s.pad := rfl
@[simp] theorem State.popAction_keyValid (s : State) : s.popAction.keyValid = s.keyValid := rfl
@[simp] theorem State.popAction_ivValid (s : State) : s.popAction.ivValid = s.ivValid := rfl
@[simp] theorem State.popAction_err (s : State) : s.popAction.err = s.err := rfl
@[simp] theorem State.popAction_keyLen (s : State) : s.popAction.keyLen = s.keyLen := rfl
@[simp] theorem State.popAction_chain (s : State) : s.popAction.chain = s.chain := rfl
@[simp] theorem State.popAction_k (s : State) : s.popAction.k = s.k := rfl
@[simp] theorem State.popAction_sb (s : State) : s.popAction.sb = s.sb := rfl
@[simp] theorem State.popAction_ek (s : State) : s.popAction.ek = s.ek := rfl
@[simp] theorem State.popAction_mcgSbox (s : State) : s.popAction.mcgSbox = s.mcgSbox := rfl
@[simp] theorem State.popAction_pending (s : State) : s.popAction.pending = s.pending.tail := rfl
@[simp] theorem State.popAction_responses (s : State) : s.popAction.responses = s.responses := rfl
@[simp] theorem State.popAction_rnd (s : State) : s.popAction.rnd = s.rnd := rfl
@[simp] theorem State.popAction_rndCount (s : State) : s.popAction.rndCount = s.rndCount := rfl
@[simp] theorem State.popAction_resets (s : State) : s.popAction.resets = s.resets := rfl

/-! ### `State.pushCommand`: putting a command on the queue -/

@[simp] theorem State.pushCommand_family (s : State) (c : Command) : (s.pushCommand c).family = s.family := rfl
@[simp] theorem State.pushCommand_mode (s : State) (c : Command) : (s.pushCommand c).mode = s.mode := rfl
@[simp] theorem State.pushCommand_pad (s : State) (c : Command) : (s.pushCommand c).pad = s.pad := rfl
@[simp] theorem State.pushCommand_keyValid (s : State) (c : Command) : (s.pushCommand c).keyValid = s.keyValid := rfl
@[simp] theorem State.pushCommand_ivValid (s : State) (c : Command) : (s.pushCommand c).ivValid = s.ivValid := rfl
@[simp] theorem State.pushCommand_err (s : State) (c : Command) : (s.pushCommand c).err = s.err := rfl
@[simp] theorem State.pushCommand_keyLen (s : State) (c : Command) : (s.pushCommand c).keyLen = s.keyLen := rfl
@[simp] theorem State.pushCommand_chain (s : State) (c : Command) : (s.pushCommand c).chain = s.chain := rfl
@[simp] theorem State.pushCommand_k (s : State) (c : Command) : (s.pushCommand c).k = s.k := rfl
@[simp] theorem State.pushCommand_sb (s : State) (c : Command) : (s.pushCommand c).sb = s.sb := rfl
@[simp] theorem State.pushCommand_ek (s : State) (c : Command) : (s.pushCommand c).ek = s.ek := rfl
@[simp] theorem State.pushCommand_mcgSbox (s : State) (c : Command) : (s.pushCommand c).mcgSbox = s.mcgSbox := rfl
@[simp] theorem State.pushCommand_pending (s : State) (c : Command) :
    (s.pushCommand c).pending = .command c :: s.pending := rfl
@[simp] theorem State.pushCommand_responses (s : State) (c : Command) :
    (s.pushCommand c).responses = s.responses := rfl
@[simp] theorem State.pushCommand_rnd (s : State) (c : Command) : (s.pushCommand c).rnd = s.rnd := rfl
@[simp] theorem State.pushCommand_rndCount (s : State) (c : Command) : (s.pushCommand c).rndCount = s.rndCount := rfl
@[simp] theorem State.pushCommand_resets (s : State) (c : Command) : (s.pushCommand c).resets = s.resets := rfl

/-! ### `State.applyReset`: reset -/

@[simp] theorem State.applyReset_family (s : State) : s.applyReset.family = .a := rfl
@[simp] theorem State.applyReset_mode (s : State) : s.applyReset.mode = .ecb := rfl
@[simp] theorem State.applyReset_pad (s : State) : s.applyReset.pad = .zeros := rfl
@[simp] theorem State.applyReset_keyValid (s : State) : s.applyReset.keyValid = false := rfl
@[simp] theorem State.applyReset_ivValid (s : State) : s.applyReset.ivValid = false := rfl
@[simp] theorem State.applyReset_err (s : State) : s.applyReset.err = .ok := rfl
@[simp] theorem State.applyReset_keyLen (s : State) : s.applyReset.keyLen = 0 := rfl
@[simp] theorem State.applyReset_chain (s : State) : s.applyReset.chain = Config.resetChain (s.resets + 1) := rfl
@[simp] theorem State.applyReset_k (s : State) : s.applyReset.k = Config.resetK (s.resets + 1) := rfl
@[simp] theorem State.applyReset_sb (s : State) : s.applyReset.sb = Config.resetSB (s.resets + 1) := rfl
@[simp] theorem State.applyReset_ek (s : State) : s.applyReset.ek = Config.resetEK (s.resets + 1) := rfl
@[simp] theorem State.applyReset_mcgSbox (s : State) : s.applyReset.mcgSbox = s.mcgSbox := rfl
@[simp] theorem State.applyReset_pending (s : State) : s.applyReset.pending = s.pending := rfl
@[simp] theorem State.applyReset_responses (s : State) : s.applyReset.responses = s.responses := rfl
@[simp] theorem State.applyReset_rnd (s : State) : s.applyReset.rnd = s.rnd := rfl
@[simp] theorem State.applyReset_rndCount (s : State) : s.applyReset.rndCount = s.rndCount := rfl
@[simp] theorem State.applyReset_resets (s : State) : s.applyReset.resets = s.resets + 1 := rfl

/-! ### What follows from the family alone -/

@[simp] theorem State.respond_bs (s : State) (status : Status) (dout : List Byte) :
    (s.respond status dout).bs = s.bs := rfl
@[simp] theorem State.finish_bs (s : State) (dout : List Byte) : (s.finish dout).bs = s.bs := rfl
@[simp] theorem State.raise_bs (s : State) (code : Status) : (s.raise code).bs = s.bs := rfl
@[simp] theorem State.setCh_bs (s : State) (v : List Byte) : (s.setCh v).bs = s.bs := by
  simp only [State.bs, State.setCh_family]
@[simp] theorem State.rndDrop_bs (s : State) (n : Nat) : (s.rndDrop n).bs = s.bs := rfl
@[simp] theorem State.popAction_bs (s : State) : s.popAction.bs = s.bs := rfl

/-! ### Views that an update leaves alone -/

@[simp] theorem State.finish_ch (s : State) (dout : List Byte) : (s.finish dout).ch = s.ch := rfl
@[simp] theorem State.raise_ch (s : State) (code : Status) : (s.raise code).ch = s.ch := rfl
@[simp] theorem State.rndDrop_ch (s : State) (n : Nat) : (s.rndDrop n).ch = s.ch := rfl
@[simp] theorem State.popAction_ch (s : State) : s.popAction.ch = s.ch := rfl

/-- Taking the action just put on the queue gives back the state. -/
@[simp] theorem State.popAction_pushCommand (s : State) (c : Command) : (s.pushCommand c).popAction = s := rfl

/-- The command just put on the queue is the next action. -/
@[simp] theorem State.nextAction_pushCommand (s : State) (c : Command) :
    (s.pushCommand c).nextAction = some (.command c) := rfl

end Sys2Proof.Machine
end

