-- ==== Sys2Proof/Laws/Ops.lean ====
section
/-! SUPPORT. What the shared operations on the chaining register, the key schedules, the random source and
the block steps do. -/

namespace Sys2Proof.Machine

/-! ### The chaining register -/

@[simp] theorem State.ch_length (s : State) : s.ch.length = s.bs := by
  have := s.bs_le
  simp [State.ch]; omega

/-- What a write leaves at each index: the byte written, or the old one. -/
theorem overlay_getElem? (v old : List Byte) (i : Nat) :
    (overlay v old)[i]? = if i < v.length ∧ i < old.length then v[i]? else old[i]? := by
  induction old generalizing v i with
  | nil => cases v <;> simp [overlay]
  | cons x old ih =>
    cases v with
    | nil => simp [overlay]
    | cons b v => cases i <;> simp [overlay, ih]

/-- Every byte of the written register: `v[i]` below `|v|`, the old byte above. -/
theorem writeChain_getElem (chain : Vector (BitVec 8) 16) (v : List Byte) (i : Nat) (hi : i < 16) :
    (writeChain chain v)[i] = v.getD i chain[i] := by
  have h := overlay_getElem? v chain.toList i
  have e : (writeChain chain v)[i]? = (overlay v chain.toList)[i]? := by simp [writeChain]
  rw [h] at e
  by_cases hv : i < v.length
  · simp [hi, hv] at e
    simp [hv, e]
  · simp [hi, hv] at e
    simp [hv, e]

/-- Writing what is there changes nothing. -/
theorem writeChain_take (chain : Vector (BitVec 8) 16) (n : Nat) :
    writeChain chain (chain.toList.take n) = chain := by
  ext i hi
  rw [writeChain_getElem, List.getD_eq_getElem?_getD, List.getElem?_take]
  split <;> simp [hi]

/-- Writing `CH` back unchanged, as ECB does, changes nothing (45 R317). -/
@[simp] theorem State.setCh_ch (s : State) : s.setCh s.ch = s := by
  simp [State.setCh, State.ch, writeChain_take]

/-- What is written is what is read (45 R305, R311). -/
theorem State.ch_setCh (s : State) (v : List Byte) (hv : v.length = s.bs) : (s.setCh v).ch = v := by
  have hb := s.bs_le
  apply List.ext_getElem
  · simp [hv]
  · intro i h1 h2
    simp [State.ch, writeChain_getElem, h2]

/-- The bytes at and above the length of what is written stay (45 R305: `CHAIN[BS..16)` is not written). -/
theorem writeChain_above (chain : Vector (BitVec 8) 16) (v : List Byte) (i : Nat) (hi : i < 16)
    (hv : v.length ≤ i) : (writeChain chain v)[i] = chain[i] := by
  simp [writeChain_getElem, hv]

/-! ### The key schedules -/

/-- Binding a key of an allowed length answers, with the family's schedule bound (45 R302). -/
theorem State.bindKey_of_length (s : State) (key : List Byte) (hl : key.length ∈ keyLengths s.family) :
    (∃ sch, s.family = .a ∧ deriveA key = some sch ∧
      s.bindKey key = some (s.bindA sch (BitVec.ofNat 8 key.length))) ∨
    (∃ ek, s.family = .b ∧ deriveB s.mcgSbox key = some ek ∧
      s.bindKey key = some (s.bindB ek (BitVec.ofNat 8 key.length))) := by
  cases hf : s.family with
  | a =>
    obtain ⟨sch, h⟩ := deriveA_of_length key (by simpa [hf, keyLengths] using hl)
    exact .inl ⟨sch, rfl, h, by simp [State.bindKey, hf, h]⟩
  | b =>
    obtain ⟨ek, h⟩ := deriveB_of_length s.mcgSbox key (by simpa [hf, keyLengths] using hl)
    exact .inr ⟨ek, rfl, h, by simp [State.bindKey, hf, h]⟩

/-! ### The random source -/

@[simp] theorem State.rndBytes_length (s : State) (n : Nat) : (s.rndBytes n).length = n := by
  simp [State.rndBytes]

/-- As long as the host's known bytes last, they are what is drawn (00 R11). -/
theorem State.rndBytes_known (s : State) (n : Nat) (hn : n ≤ s.rnd.length) : s.rndBytes n = s.rnd.take n := by
  apply List.ext_getElem
  · simp [hn]
  · intro i h1 h2
    simp at h1
    simp [State.rndBytes, State.rndAt, show i < s.rnd.length by omega]

@[simp] theorem State.rndDrop_zero (s : State) : s.rndDrop 0 = s := by simp [State.rndDrop]

/-! ### The block engine and the block steps -/

/-- `E` gives a block for a block (45 R310). -/
theorem State.engine_enc_length (s : State) (b : List Byte) (hb : b.length = s.bs) :
    (s.engine.enc b).length = s.bs := by
  unfold State.bs State.engine at *
  cases hf : s.family <;> simp only [hf, blockSize] at hb ⊢
  · exact onWords_length _ b hb
  · exact onRegs_length _ b hb

/-- `D` gives a block for a block (45 R310). -/
theorem State.engine_dec_length (s : State) (b : List Byte) (hb : b.length = s.bs) :
    (s.engine.dec b).length = s.bs := by
  unfold State.bs State.engine at *
  cases hf : s.family <;> simp only [hf, blockSize] at hb ⊢
  · exact onWords_length _ b hb
  · exact onRegs_length _ b hb

/-- A block step of encryption keeps the block size, of the output and of `CH` (45 R311). -/
theorem encStep_length (e : BlockEngine) (n : Nat) (he : ∀ b, b.length = n → (e.enc b).length = n)
    (m : Mode) (ch p : List Byte) (hc : ch.length = n) (hp : p.length = n) :
    (encStep e m ch p).out.length = n ∧ (encStep e m ch p).ch.length = n := by
  cases m <;> simp [encStep, he, hc, hp]

/-- A block step of decryption keeps the block size, of the output and of `CH` (45 R312). -/
theorem decStep_length (e : BlockEngine) (n : Nat) (he : ∀ b, b.length = n → (e.enc b).length = n)
    (hd : ∀ b, b.length = n → (e.dec b).length = n)
    (m : Mode) (ch c : List Byte) (hc : ch.length = n) (hp : c.length = n) :
    (decStep e m ch c).out.length = n ∧ (decStep e m ch c).ch.length = n := by
  cases m <;> simp [decStep, he, hd, hc, hp]

/-! ### Blocks of a message -/

/-- Every block of a message of `k` blocks has the block size. -/
theorem chunks_length (bs k : Nat) (x : List Byte) (hx : bs * k ≤ x.length) :
    (chunks bs k x).length = k ∧ ∀ b ∈ chunks bs k x, b.length = bs := by
  induction k generalizing x with
  | zero => simp [chunks]
  | succ k ih =>
    rw [Nat.mul_succ] at hx
    have := ih (x.drop bs) (by simp; omega)
    refine ⟨by simp [chunks, this.1], ?_⟩
    intro b hb
    rcases List.mem_cons.mp hb with rfl | hb
    · simp; omega
    · exact this.2 b hb

/-- The blocks of a message of whole blocks, put together, are the message. -/
theorem chunks_flatten (bs k : Nat) (x : List Byte) (hx : x.length = bs * k) : (chunks bs k x).flatten = x := by
  induction k generalizing x with
  | zero =>
    have : x = [] := List.length_eq_zero_iff.mp (by simpa using hx)
    simp [chunks, this]
  | succ k ih =>
    rw [Nat.mul_succ] at hx
    have := ih (x.drop bs) (by simp; omega)
    simp [chunks, this]

/-- A block step that keeps the block size gives as many bytes as the blocks hold, and a block-sized last
chaining value. -/
theorem runBlocks_length (step : List Byte → List Byte → BlockOut) (n : Nat)
    (hs : ∀ ch b, ch.length = n → b.length = n → (step ch b).out.length = n ∧ (step ch b).ch.length = n)
    (bs : List (List Byte)) (hb : ∀ b ∈ bs, b.length = n) (ch : List Byte) (hc : ch.length = n) :
    (runBlocks step ch bs).out.length = n * bs.length ∧ (runBlocks step ch bs).ch.length = n := by
  induction bs generalizing ch with
  | nil => simp [runBlocks, hc]
  | cons b bs ih =>
    have h1 := hs ch b hc (hb b (by simp))
    have h2 := ih (fun b' h => hb b' (by simp [h])) _ h1.2
    simp only [runBlocks, List.length_append, List.length_cons, h1.1, h2.1, h2.2, and_true]
    rw [Nat.mul_succ]; omega

/-- Running blocks one after another (46 R360, R361). -/
theorem runBlocks_append (step : List Byte → List Byte → BlockOut) (ch : List Byte) (xs ys : List (List Byte)) :
    runBlocks step ch (xs ++ ys) =
      ⟨(runBlocks step ch xs).out ++ (runBlocks step (runBlocks step ch xs).ch ys).out,
        (runBlocks step (runBlocks step ch xs).ch ys).ch⟩ := by
  induction xs generalizing ch with
  | nil => rfl
  | cons x xs ih => simp [runBlocks, ih]

/-- In ECB no run of blocks moves the chaining value (45 R317). -/
theorem runBlocks_encStep_ecb (e : BlockEngine) (ch : List Byte) (bs : List (List Byte)) :
    (runBlocks (encStep e .ecb) ch bs).ch = ch := by
  induction bs generalizing ch with
  | nil => rfl
  | cons b bs ih => simp [runBlocks, encStep, ih]

/-- In ECB no run of blocks moves the chaining value (45 R317). -/
theorem runBlocks_decStep_ecb (e : BlockEngine) (ch : List Byte) (bs : List (List Byte)) :
    (runBlocks (decStep e .ecb) ch bs).ch = ch := by
  induction bs generalizing ch with
  | nil => rfl
  | cons b bs ih => simp [runBlocks, decStep, ih]

/-- Running a block step over a message of whole blocks gives as many bytes, and a chaining value of `BS`
bytes (46 R360, R361). -/
theorem State.runBlocks_message (s : State) (step : List Byte → List Byte → BlockOut)
    (hs : ∀ ch b, ch.length = s.bs → b.length = s.bs →
      (step ch b).out.length = s.bs ∧ (step ch b).ch.length = s.bs)
    (x : List Byte) (hx : x.length % s.bs = 0) :
    (runBlocks step s.ch (blocksOf s.bs x)).out.length = x.length ∧
    (runBlocks step s.ch (blocksOf s.bs x)).ch.length = s.bs := by
  have hd := Nat.div_add_mod x.length s.bs
  obtain ⟨h1, h2⟩ := chunks_length s.bs (x.length / s.bs) x (by omega)
  have h := runBlocks_length step s.bs hs (blocksOf s.bs x) h2 s.ch (by simp)
  refine ⟨?_, h.2⟩
  rw [h.1, blocksOf, h1]
  omega

end Sys2Proof.Machine
end

