-- ==== Sys2Proof/Laws/Exec.lean ====
section
/-! SUPPORT. Everything each instruction can do, said once: one inversion lemma per instruction, with every
check it passes and the state it leaves. -/

namespace Sys2Proof.Machine

/-- Everything `SELFAM` does (45 R301). -/
theorem execSelfam_cases {sel : Byte} {s t : State} (h : execSelfam sel s = .next t) :
    (2 ≤ sel.toNat ∧ t = s.raise .unsupportedFamily) ∨
    ∃ f, sel = familyCode f ∧
      t = { s with family := f, keyValid := false, keyLen := 0, ivValid := false }.finish [] := by
  unfold execSelfam at h
  split at h <;> cases h
  · exact .inl ⟨(familyOfSel_eq_none sel).mp ‹_›, rfl⟩
  · exact .inr ⟨_, (familyOfSel_eq_some sel _).mp ‹_›, rfl⟩

/-- Everything `SETKEY` does (45 R302). -/
theorem execSetkey_cases {key : List Byte} {s t : State} (h : execSetkey key s = .next t) :
    (key.length ∉ keyLengths s.family ∧ t = s.raise .invalidKeyLength) ∨
    (key.length ∈ keyLengths s.family ∧ s.family = .a ∧ ∃ sch, deriveA key = some sch ∧
      t = (s.bindA sch (BitVec.ofNat 8 key.length)).finish []) ∨
    (key.length ∈ keyLengths s.family ∧ s.family = .b ∧ ∃ ek, deriveB s.mcgSbox key = some ek ∧
      t = (s.bindB ek (BitVec.ofNat 8 key.length)).finish []) := by
  unfold execSetkey at h
  split at h
  case isTrue hl =>
    rcases s.bindKey_of_length key hl with ⟨sch, hf, hd, hb⟩ | ⟨ek, hf, hd, hb⟩ <;>
      simp only [hb, Host.Outcome.next.injEq] at h
    · exact .inr (.inl ⟨hl, hf, sch, hd, h.symm⟩)
    · exact .inr (.inr ⟨hl, hf, ek, hd, h.symm⟩)
  case isFalse hl => cases h; exact .inl ⟨hl, rfl⟩

/-- Everything `SETMODE` does (45 R303). -/
theorem execSetmode_cases {sel : Byte} {s t : State} (h : execSetmode sel s = .next t) :
    (6 ≤ sel.toNat ∧ t = s.raise .unsupportedMode) ∨
    ∃ m, sel = modeCode m ∧ t = { s with mode := m }.finish [] := by
  unfold execSetmode at h
  split at h <;> cases h
  · exact .inl ⟨(modeOfSel_eq_none sel).mp ‹_›, rfl⟩
  · exact .inr ⟨_, (modeOfSel_eq_some sel _).mp ‹_›, rfl⟩

/-- Everything `SETPAD` does (45 R304). -/
theorem execSetpad_cases {sel : Byte} {s t : State} (h : execSetpad sel s = .next t) :
    (4 ≤ sel.toNat ∧ t = s.raise .unsupportedPadding) ∨
    ∃ p, sel = padCode p ∧ t = { s with pad := p }.finish [] := by
  unfold execSetpad at h
  split at h <;> cases h
  · exact .inl ⟨(padOfSel_eq_none sel).mp ‹_›, rfl⟩
  · exact .inr ⟨_, (padOfSel_eq_some sel _).mp ‹_›, rfl⟩

/-- Everything `SETIV` does (45 R305). -/
theorem execSetiv_cases {iv : List Byte} {s t : State} (h : execSetiv iv s = .next t) :
    (iv = [] ∧ t = { s with ivValid := false }.finish []) ∨
    (iv.length = s.bs ∧ t = { s.setCh iv with ivValid := true }.finish []) ∨
    (iv.length ≠ 0 ∧ iv.length ≠ s.bs ∧ t = s.raise .invalidIvLength) := by
  unfold execSetiv at h
  split at h
  case isTrue h0 => cases h; exact .inl ⟨List.length_eq_zero_iff.mp h0, rfl⟩
  case isFalse h0 =>
    split at h <;> cases h
    · exact .inr (.inl ⟨‹_›, rfl⟩)
    · exact .inr (.inr ⟨h0, ‹_›, rfl⟩)

/-- Everything `RDREG` does (45 R306). -/
theorem execRdreg_cases {sel : Byte} {s t : State} (h : execRdreg sel s = .next t) :
    (7 ≤ sel.toNat ∧ t = s.respond .unsupportedCommand []) ∨
    ∃ r, sel = registerNumber r ∧ t = s.respond .ok [s.readReg r] := by
  unfold execRdreg at h
  split at h <;> cases h
  · exact .inl ⟨(registerOfSel_eq_none sel).mp ‹_›, rfl⟩
  · exact .inr ⟨_, (registerOfSel_eq_some sel _).mp ‹_›, rfl⟩

/-- Everything `ENCB` does (45 R330). -/
theorem execEncb_cases {b : List Byte} {s t : State} (h : execEncb b s = .next t) :
    (∃ e, s.cipherError (encbLengthError s.bs b.length) = some e ∧ t = s.raise e) ∨
    (s.cipherError (encbLengthError s.bs b.length) = none ∧ b.length = s.bs ∧
      t = (s.setCh (encStep s.engine s.mode s.ch b).ch).finish (encStep s.engine s.mode s.ch b).out) := by
  unfold execEncb at h
  split at h <;> cases h
  · exact .inl ⟨_, ‹_›, rfl⟩
  · rename_i hn
    refine .inr ⟨hn, ?_, rfl⟩
    have := ((s.cipherError_eq_none _).mp hn).2.1
    simpa [encbLengthError] using this

/-- Everything `DECB` does (45 R331). -/
theorem execDecb_cases {b : List Byte} {s t : State} (h : execDecb b s = .next t) :
    (∃ e, s.cipherError (decbLengthError s.bs b.length) = some e ∧ t = s.raise e) ∨
    (s.cipherError (decbLengthError s.bs b.length) = none ∧ b.length = s.bs ∧
      t = (s.setCh (decStep s.engine s.mode s.ch b).ch).finish (decStep s.engine s.mode s.ch b).out) := by
  unfold execDecb at h
  split at h <;> cases h
  · exact .inl ⟨_, ‹_›, rfl⟩
  · rename_i hn
    refine .inr ⟨hn, ?_, rfl⟩
    have := ((s.cipherError_eq_none _).mp hn).2.1
    unfold decbLengthError at this
    split at this
    · cases this
    · split at this
      · assumption
      · cases this

/-- Everything `ENCM` does (46 R360). -/
theorem execEncm_cases {m : List Byte} {s t : State} (h : execEncm m s = .next t) :
    (∃ e, s.cipherError none = some e ∧ t = s.raise e) ∨
    (s.cipherError none = none ∧
      t = ((s.rndDrop (fillLength s.pad s.bs m.length)).setCh (s.encryptMessage m).ch).finish
        (s.encryptMessage m).out) := by
  unfold execEncm at h
  split at h <;> cases h
  · exact .inl ⟨_, ‹_›, rfl⟩
  · exact .inr ⟨‹_›, rfl⟩

/-- Everything `DECM` does (46 R361). -/
theorem execDecm_cases {c : List Byte} {s t : State} (h : execDecm c s = .next t) :
    (∃ e, s.cipherError (decmLengthError s.bs c.length) = some e ∧ t = s.raise e) ∨
    (s.cipherError (decmLengthError s.bs c.length) = none ∧ c.length % s.bs = 0 ∧
      unpadMessage s.pad s.bs (s.decryptMessage c).out = none ∧
      t = (s.setCh (s.decryptMessage c).ch).raise .paddingValidationFailed) ∨
    (s.cipherError (decmLengthError s.bs c.length) = none ∧ c.length % s.bs = 0 ∧
      ∃ m, unpadMessage s.pad s.bs (s.decryptMessage c).out = some m ∧
        t = (s.setCh (s.decryptMessage c).ch).finish m) := by
  unfold execDecm at h
  split at h
  · cases h
    exact .inl ⟨_, ‹_›, rfl⟩
  · rename_i hn
    have hl : c.length % s.bs = 0 := by
      have := ((s.cipherError_eq_none _).mp hn).2.1
      simpa [decmLengthError] using this
    dsimp only at h
    split at h <;> cases h
    · exact .inr (.inl ⟨hn, hl, ‹_›, rfl⟩)
    · exact .inr (.inr ⟨hn, hl, _, ‹_›, rfl⟩)

/-- Everything the diagnostic commands do (40 R160 to R162). -/
theorem execGfmul_eq (a b : Byte) (s : State) : execGfmul a b s = .next (s.finish [multiplyGF a b]) := rfl

theorem execRot_eq (sel : Byte) (x : Word) (s : State) :
    execRot sel x s = .next (s.finish (wordsToBytes [rot x (rotAmount sel)])) := rfl

theorem execPht_eq (a b : Word) (s : State) :
    execPht a b s = .next (s.finish (wordsToBytes [a + b, a + 2 * b])) := rfl

end Sys2Proof.Machine
end

