-- ==== Sys2Proof/Laws/PerInstr.lean ====
section
/-! SUPPORT. A statement made per instruction: what `encode` gives is a transaction a host may send. -/

namespace Sys2Proof.Laws.Framing

/-- The encoding of a well-formed instruction has a legal command word and the framing of 30 R102 and R103:
`LEN` exactly where the operation has one, equal to the length of `DIN`, and `DIN` as long as required. -/
def Statement (i : Instr) : Prop :=
  i.wf = true →
    decodeWord (encode i) = .ok i.opcode ∧ checkFraming i.opcode (encode i) = .ok () ∧
    ∀ n, (encode i).len = some n → n.toNat = (encode i).din.length

/-- The legal word of an encoding: the selector is a field or 0. -/
theorem word_legal (i : Instr) (hsel : i.opcode.selIsField = true ∨ i.sel = 0) :
    decodeWord (encode i) = .ok i.opcode := by
  rw [decodeWord_eq_ok]
  simp only [encode, Command.rsv, Command.opc, Command.sel, commandWord_rsv, commandWord_opc, commandWord_sel]
  exact ⟨trivial, trivial, hsel⟩

/-- A length that fits is kept by the 32-bit `LEN`. -/
theorem len_toNat (din : List Byte) (hf : fitsLen din = true) : (BitVec.ofNat 32 din.length).toNat = din.length := by
  have hle : din.length ≤ lenMax := of_decide_eq_true hf
  rw [BitVec.toNat_ofNat]
  exact Nat.mod_eq_of_lt (by rw [lenMax] at hle; omega)

/-- The statement for an instruction whose `DIN` is counted by `LEN`. -/
theorem of_data (i : Instr) (hsel : i.sel = 0) (hlen : i.opcode.hasLen = true)
    (hdin : ∀ n, i.opcode.dinLen n = n) (hwf : i.wf = fitsLen i.din) : Statement i := by
  intro h
  have hn := len_toNat i.din (by rw [← hwf, h])
  refine ⟨word_legal i (.inr hsel), (checkFraming_eq_ok _ _).mpr ?_, ?_⟩
  · simp [encode, hlen, hdin, hn]
  · intro n hn'
    simp only [encode, hlen, if_true, Option.some.injEq] at hn'
    rw [← hn']; exact hn

/-- The statement for an instruction without `LEN`. -/
theorem of_fixed (i : Instr) (hsel : i.opcode.selIsField = true ∨ i.sel = 0) (hlen : i.opcode.hasLen = false)
    (hdin : i.din.length = i.opcode.dinLen 0) : Statement i := by
  intro _
  refine ⟨word_legal i hsel, (checkFraming_eq_ok _ _).mpr ?_, ?_⟩
  · simp [encode, hlen, hdin]
  · intro n hn
    simp [encode, hlen] at hn

theorem selfam (sel : Byte) : Statement (.selfam sel) := of_fixed _ (.inl rfl) rfl rfl
theorem setkey (key : List Byte) : Statement (.setkey key) := of_data _ rfl rfl (fun _ => rfl) rfl
theorem setmode (sel : Byte) : Statement (.setmode sel) := of_fixed _ (.inl rfl) rfl rfl
theorem setpad (sel : Byte) : Statement (.setpad sel) := of_fixed _ (.inl rfl) rfl rfl
theorem setiv (iv : List Byte) : Statement (.setiv iv) := of_data _ rfl rfl (fun _ => rfl) rfl
theorem rdreg (sel : Byte) : Statement (.rdreg sel) := of_fixed _ (.inl rfl) rfl rfl
theorem encb (block : List Byte) : Statement (.encb block) := of_data _ rfl rfl (fun _ => rfl) rfl
theorem decb (block : List Byte) : Statement (.decb block) := of_data _ rfl rfl (fun _ => rfl) rfl
theorem encm (msg : List Byte) : Statement (.encm msg) := of_data _ rfl rfl (fun _ => rfl) rfl
theorem decm (text : List Byte) : Statement (.decm text) := of_data _ rfl rfl (fun _ => rfl) rfl
theorem gfmul (a b : Byte) : Statement (.gfmul a b) := of_fixed _ (.inr rfl) rfl rfl
theorem rot (sel : Byte) (x : Word) : Statement (.rot sel x) := of_fixed _ (.inl rfl) rfl rfl
theorem pht (a b : Word) : Statement (.pht a b) := of_fixed _ (.inr rfl) rfl rfl

end Sys2Proof.Laws.Framing
end

