-- ==== Sys2Proof/Laws/Step.lean ====
section
/-! SUPPORT. Everything one step can do, said once. -/

namespace Sys2Proof.Machine

/-- If a step answers `t`, then the CORE was idle, was reset, ran the decoded instruction, or reported an
illegal command word (60 R446). -/
theorem step_cases {s t : State} (hs : step s = .next t) :
    (s.pending = [] ∧ t = s) ∨
    (∃ rest, s.pending = .reset :: rest ∧ t = s.popAction.applyReset) ∨
    (∃ c rest i, s.pending = .command c :: rest ∧ decode c = .ok i ∧ exec i s.popAction = .next t) ∨
    (∃ c rest e, s.pending = .command c :: rest ∧ decode c = .error e ∧ e.illegal = true ∧
      t = s.popAction.raise .unsupportedCommand) := by
  unfold step State.nextAction at hs
  cases hp : s.pending with
  | nil =>
    simp only [hp, List.head?_nil, Host.Outcome.next.injEq] at hs
    exact .inl ⟨rfl, hs.symm⟩
  | cons a rest =>
    simp only [hp, List.head?_cons] at hs
    cases a with
    | reset => exact .inr (.inl ⟨rest, rfl, by simpa using hs.symm⟩)
    | command c =>
      cases hd : decode c with
      | ok i => exact .inr (.inr (.inl ⟨c, rest, i, rfl, hd, by simpa [hd] using hs⟩))
      | error e =>
        simp only [hd, State.rejectCommand] at hs
        by_cases he : e.illegal = true
        · exact .inr (.inr (.inr ⟨c, rest, e, rfl, hd, he, by simpa [he] using hs.symm⟩))
        · simp [he] at hs

/-- A step of an idle CORE changes nothing (60 R445). -/
theorem step_idle (s : State) (hp : s.pending = []) : step s = .next s := by
  simp [step, State.nextAction, hp]

/-- A step whose next action is reset applies it (70 R450). -/
theorem step_reset (s : State) (rest : List HostAction) (hp : s.pending = .reset :: rest) :
    step s = .next s.popAction.applyReset := by
  simp [step, State.nextAction, hp]

/-- A step whose next transaction does not decode rejects it (30 R106 to R108, 60 R446). -/
theorem step_reject (s : State) (c : Command) (rest : List HostAction) (e : DecodeError)
    (hp : s.pending = .command c :: rest) (hd : decode c = .error e) :
    step s = s.popAction.rejectCommand e := by
  simp [step, State.nextAction, hp, hd]

end Sys2Proof.Machine
end

