-- ==== Sys2Proof/Tests/Slice0.lean ====
section
/-! SUPPORT. Small tests with expected results from the spec (its encoding tables, rules and vectors), and one
witness for every obligation that has hypotheses. -/

namespace Sys2Proof.Tests

open Sys2Proof.Machine Sys2Proof.Claims

/-! ### Helpers -/

/-- The response a step added last. -/
def answer (o : Host.Outcome State Fault Refusal) : Option Response :=
  match o with
  | .next t => t.responses.getLast?
  | _ => none

/-- A field of the next state. -/
def after {α : Type} (field : State → α) (o : Host.Outcome State Fault Refusal) : Option α :=
  match o with
  | .next t => some (field t)
  | _ => none

/-- A state with a bound key of the family, in mode `m` and padding `p`, with or without an IV. -/
def keyed (f : Family) (m : Mode) (p : Padding) (iv : Bool) : State :=
  { State.reset with family := f, mode := m, pad := p, keyValid := true, keyLen := 16, ivValid := iv }

/-- A state with one command lined up. -/
def lined (c : Command) : State := { State.reset with pending := [.command c] }

/-- `MCG_SBOX_T` (95 section 3), the test S-boxes. -/
def testBoxes : SBoxes := tabulate fun j => tabulate fun x =>
  BitVec.ofNat 2 ((x.val ^^^ x.val >>> 2 ^^^ x.val >>> 4) + (x.val * (2 * j.val + 3)) >>> 3 + j.val)

/-- S-boxes of zeros. -/
def zeroBoxes : SBoxes := tabulate fun _ => tabulate fun _ => 0

/-! ### WellFormed: an ill-formed term for each check -/

/-- More bytes than `LEN` counts (30 R102). -/
def tooLong : List Byte := List.replicate (2 ^ 32) 0

theorem tooLong_refused : fitsLen tooLong = false := by
  unfold fitsLen tooLong lenMax
  rw [List.length_replicate]
  decide

theorem test_wf_setkey : (Instr.setkey tooLong).wf = false := tooLong_refused
theorem test_wf_setiv : (Instr.setiv tooLong).wf = false := tooLong_refused
theorem test_wf_encb : (Instr.encb tooLong).wf = false := tooLong_refused
theorem test_wf_decb : (Instr.decb tooLong).wf = false := tooLong_refused
theorem test_wf_encm : (Instr.encm tooLong).wf = false := tooLong_refused
theorem test_wf_decm : (Instr.decm tooLong).wf = false := tooLong_refused

/-! ### Decoding: the words of 30 R100, R105 and R111, one form of every constructor -/

theorem test_decode_selfam : decode ⟨0x00000101, none, []⟩ = .ok (.selfam 1) := by decide
theorem test_decode_setkey :
    decodeBytes [0x00, 0x00, 0x00, 0x02, 0x00, 0x00, 0x00, 0x03, 0xAA, 0xBB, 0xCC] =
      .ok (.setkey [0xAA, 0xBB, 0xCC], []) := by decide
theorem test_decode_setmode : decodeBytes [0x00, 0x00, 0x01, 0x03] = .ok (.setmode 1, []) := by decide
theorem test_decode_setpad : decode ⟨0x00000304, none, []⟩ = .ok (.setpad 3) := by decide
theorem test_decode_setiv : decode ⟨0x00000005, some 0, []⟩ = .ok (.setiv []) := by decide
theorem test_decode_rdreg : decode ⟨0x00000606, none, []⟩ = .ok (.rdreg 6) := by decide
theorem test_decode_encb : decode ⟨0x00000010, some 2, [0x12, 0x34]⟩ = .ok (.encb [0x12, 0x34]) := by decide
theorem test_decode_decb : decode ⟨0x00000011, some 1, [0x7F]⟩ = .ok (.decb [0x7F]) := by decide
theorem test_decode_encm :
    decodeBytes [0x00, 0x00, 0x00, 0x20, 0x00, 0x00, 0x00, 0x01, 0x55, 0x66] = .ok (.encm [0x55], [0x66]) := by
  decide
theorem test_decode_decm : decode ⟨0x00000021, some 1, [0x80]⟩ = .ok (.decm [0x80]) := by decide
theorem test_decode_gfmul : decode ⟨0x00000030, none, [0x02, 0x80]⟩ = .ok (.gfmul 0x02 0x80) := by decide
theorem test_decode_rot :
    decodeBytes [0x00, 0x00, 0xFF, 0x31, 0x80, 0x00, 0x00, 0x01] = .ok (.rot 0xFF 0x80000001, []) := by decide
theorem test_decode_pht :
    decodeBytes [0x00, 0x00, 0x00, 0x32, 0x12, 0x34, 0x56, 0x78, 0x9A, 0xBC, 0xDE, 0xF0] =
      .ok (.pht 0x12345678 0x9ABCDEF0, []) := by decide

/-- 30 R106, R107: each reason a word is illegal. -/
theorem test_decode_illegal :
    decode ⟨0x00010006, none, []⟩ = .error .reservedBitsSet ∧ decode ⟨0x00000007, none, []⟩ = .error .unknownOpcode ∧
    decode ⟨0x00000000, some 4, [1, 2]⟩ = .error .unknownOpcode ∧
    decode ⟨0x00000110, some 0, []⟩ = .error .selectorNotZero := by decide

/-- 30 R102, R103: each way a transaction is no command. -/
theorem test_decode_framing :
    decode ⟨0x00000002, none, []⟩ = .error .lenMissing ∧ decode ⟨0x00000003, some 0, []⟩ = .error .lenUnexpected ∧
    decode ⟨0x00000031, none, [1, 2, 3]⟩ = .error .dinLengthWrong ∧
    decode ⟨0x00000005, some 2, [1]⟩ = .error .dinLengthWrong ∧
    decodeBytes [0x00, 0x00, 0x00, 0x30, 0x01] = .error .truncated := by decide

/-- The opcode table's numbering: bit 0 is the least significant bit of the command word. -/
theorem test_decode_table :
    decodeTableWord 32 0x00000501 = some (.selfam 5) ∧ decodeTableWord 64 0x00000002 = some (.setkey []) ∧
    decodeTableWord 64 0x0000000200000020 = some (.encm [0, 0]) ∧ decodeTableWord 32 0x00000030 = some (.gfmul 0 0) ∧
    decodeTableWord 32 0x00010001 = none := by decide

/-- 30 R104: the sign of `ROT`'s amount. -/
theorem test_rotAmount : rotAmount 0x7F = 127 ∧ rotAmount 0x80 = -128 ∧ rotAmount 0xFF = -1 := by decide

/-! ### One step from reset -/

theorem test_step_first :
    answer (step (State.reset.withFetchWord 32 0x00000506)) = some ⟨.ok, [0x10]⟩ ∧
    answer (step (State.reset.withFetchWord 64 0x00000010)) = some ⟨.missingKey, []⟩ ∧
    answer (step (State.reset.withFetchWord 32 0x000000FF)) = some ⟨.unsupportedCommand, []⟩ := by
  refine ⟨?_, ?_, ?_⟩ <;> rfl

/-! ### Primitives and diagnostic commands (95 V-P) -/

theorem test_gfmul :
    answer (exec (.gfmul 0x53 0xCA) State.reset) = some ⟨.ok, [0x03]⟩ ∧
    answer (exec (.gfmul 0xEF 0xEF) State.reset) = some ⟨.ok, [0xF9]⟩ := by decide
theorem test_rot :
    answer (exec (.rot 0x28 0x80000001) State.reset) = some ⟨.ok, [0x00, 0x00, 0x01, 0x80]⟩ ∧
    answer (exec (.rot 0xF8 0x12345678) State.reset) = some ⟨.ok, [0x78, 0x12, 0x34, 0x56]⟩ := by decide
theorem test_pht :
    answer (exec (.pht 0x12345678 0x9ABCDEF0) State.reset) =
      some ⟨.ok, [0xAC, 0xF1, 0x35, 0x68, 0x47, 0xAE, 0x14, 0x58]⟩ := by decide
theorem test_packers :
    bytesToWords [0, 1, 2, 3, 4, 5, 6, 7] = some [0x00010203, 0x04050607] ∧
    pairsToHalves [0, 1, 2, 3, 4, 5, 6, 7] = some [0x0100, 0x0302, 0x0504, 0x0706] ∧
    bytesToWords [0, 1, 2, 3, 4] = none := by decide
theorem test_inc : incBytes [0x00, 0xFF, 0xFF] = [0x01, 0x00, 0x00] ∧ incBytes [0xFF, 0xFF] = [0x00, 0x00] := by
  decide

/-! ### Cipher A (95 V-A1, V-A2, V-A0) -/

/-- 41 R180, notes/assumptions/12: no schedule for a key of a length outside the rule. -/
theorem test_deriveA_lengths : deriveA (List.replicate 20 1) = none ∧ deriveA (List.replicate 28 1) = none ∧
    deriveA [] = none ∧ deriveA (List.replicate 40 1) = none := ⟨rfl, rfl, rfl, rfl⟩

theorem test_q : q0 0x00 = 0xA9 ∧ q0 0xFF = 0xE0 ∧ q1 0x00 = 0x75 ∧ q1 0xFF = 0x91 := by decide
theorem test_mds : mds #v[0x01, 0x00, 0x00, 0x00] = 0xEFEF5B01 ∧ mds #v[0x00, 0x00, 0x00, 0x01] = 0x5BEF015B := by
  decide
/-- 95 V-A2: `Sw_0` of the key 00..0F. -/
theorem test_rs : rsProject #v[0, 1, 2, 3, 4, 5, 6, 7] = 0x2F6A2AD7 := by decide
theorem test_hq : hq 0 (.k2 0 0) = #v[0xB3, 0x1F, 0x5B, 0xA5] := by decide
theorem test_roundKeys : roundKeyPair (.k2 0 0) (.k2 0 0) 0 = (0x52C54DDE, 0x11F0626D) := by decide +kernel
theorem test_g : gWord (keySBoxes (.k2 0 0)) 0x01020304 = 0x595D98E2 := by decide +kernel
/-- 95 V-A0: the zero key and the zero block. -/
theorem test_encA :
    (deriveA (List.replicate 16 0)).map (fun sch => encA sch (List.replicate 16 0)) =
      some [0x5C, 0x9F, 0x58, 0x9F, 0x32, 0x2C, 0x12, 0xF6, 0x2F, 0xEC, 0xBF, 0xB6, 0x5A, 0xC3, 0xE8, 0x2A] := by
  decide +kernel

/-! ### Cipher B under `MCG_SBOX_T` (95 V-B1, V-B3) -/

theorem test_stable : stable testBoxes 0x1234 = 0x2A61 ∧ stable testBoxes 0xAAAA = 0xC620 := by decide +kernel
theorem test_fB : fB testBoxes 0x1234 0x5678 0x9ABC = 0xC98C := by decide +kernel
/-- 43 R257: the first encryption of the bootstrap. -/
theorem test_encB :
    encB testBoxes (Vector.replicate 96 0) [0, 1, 2, 3, 4, 5, 6, 7] =
      [0x81, 0xBA, 0xCB, 0xCF, 0xB7, 0x02, 0xAF, 0x43] := by decide +kernel

/-! ### The session (95 V-S, V-T; 60 R421) -/

theorem test_selfam :
    after (fun t => (t.family, t.keyValid, t.ivValid, t.keyLen, t.pad))
        (exec (.selfam 1) (keyed .a .cbc .iso10126 true)) = some (.b, false, false, 0, .iso10126) ∧
    answer (exec (.selfam 2) State.reset) = some ⟨.unsupportedFamily, []⟩ := by decide
theorem test_setkey :
    after (fun t => (t.keyValid, t.keyLen)) (exec (.setkey (List.replicate 24 1)) State.reset) = some (true, 24) ∧
    after (fun t => (t.keyValid, t.keyLen, t.err)) (exec (.setkey []) (keyed .a .ecb .zeros false)) =
      some (true, 16, .invalidKeyLength) := ⟨rfl, rfl⟩
theorem test_setkey_familyB :
    answer (exec (.setkey (List.replicate 24 1)) { State.reset with family := .b }) =
      some ⟨.invalidKeyLength, []⟩ := by decide
theorem test_setmode :
    after State.mode (exec (.setmode 5) State.reset) = some .ctr ∧
    answer (exec (.setmode 6) State.reset) = some ⟨.unsupportedMode, []⟩ := by decide
theorem test_setpad :
    after State.pad (exec (.setpad 3) State.reset) = some .iso10126 ∧
    answer (exec (.setpad 4) State.reset) = some ⟨.unsupportedPadding, []⟩ := by decide
theorem test_setiv :
    after (fun t => (t.ch, t.ivValid)) (exec (.setiv [1, 2, 3, 4, 5, 6, 7, 8])
      { State.reset with family := .b, chain := Vector.replicate 16 9 }) = some ([1, 2, 3, 4, 5, 6, 7, 8], true) ∧
    after State.ivValid (exec (.setiv []) (keyed .a .cbc .zeros true)) = some false := by decide
theorem test_rdreg :
    answer (exec (.rdreg 3) (keyed .b .cbc .zeros true)) = some ⟨.ok, [0x03]⟩ ∧
    after (fun t => (t.err, t.responses)) (exec (.rdreg 7) { State.reset with err := .missingIv }) =
      some (.missingIv, [⟨.unsupportedCommand, []⟩]) := by decide

/-- 60 R421: five bytes in CBC with no key, then with a key and no IV. -/
theorem test_decb_order :
    answer (exec (.decb [1, 2, 3, 4, 5]) { State.reset with mode := .cbc }) = some ⟨.missingKey, []⟩ ∧
    answer (exec (.decb [1, 2, 3, 4, 5]) (keyed .a .cbc .zeros false)) = some ⟨.misalignedCiphertext, []⟩ := by decide
theorem test_decb_twoBlocks :
    answer (exec (.decb (List.replicate 16 0)) (keyed .b .ecb .zeros false)) = some ⟨.invalidBlockLength, []⟩ := by
  decide
theorem test_encb_length :
    answer (exec (.encb []) (keyed .b .ecb .zeros false)) = some ⟨.invalidBlockLength, []⟩ := by decide
/-- CTR advances the counter by one, big-endian (95 V-M2), and writes no byte above the block. -/
theorem test_encb_ctr :
    after State.ch (exec (.encb (List.replicate 8 0))
      { keyed .b .ctr .zeros true with chain := #v[0, 0, 0, 0, 0, 0, 1, 255, 9, 9, 9, 9, 9, 9, 9, 9] }) =
        some [0, 0, 0, 0, 0, 0, 2, 0] ∧
    after State.chain (exec (.encb (List.replicate 8 0))
      { keyed .b .ctr .zeros true with chain := #v[0, 0, 0, 0, 0, 0, 1, 255, 9, 9, 9, 9, 9, 9, 9, 9] }) =
        some #v[0, 0, 0, 0, 0, 0, 2, 0, 9, 9, 9, 9, 9, 9, 9, 9] := ⟨rfl, rfl⟩
theorem test_encm_missingIv :
    answer (exec (.encm [1]) (keyed .a .ofb .pkcs7 false)) = some ⟨.missingIv, []⟩ := by decide
/-- 46 R358, 20 R86: ISO10126 draws `n - 1` bytes. -/
theorem test_encm_draws :
    after State.rndCount (exec (.encm [0, 1, 2, 3, 4]) (keyed .a .ecb .iso10126 false)) = some 10 := rfl
/-- 46 R362 (95 V-PAD3): no bytes under Zeros, and under PKCS7. -/
theorem test_decm_empty :
    answer (exec (.decm []) (keyed .a .ecb .zeros false)) = some ⟨.ok, []⟩ ∧
    answer (exec (.decm []) (keyed .a .ecb .pkcs7 false)) = some ⟨.paddingValidationFailed, []⟩ := ⟨rfl, rfl⟩

/-- 95 V-PAD2: what each scheme appends to five bytes, Cipher B's block size. -/
theorem test_pad :
    padMessage .zeros 8 [] [1, 0, 0, 0, 2] = [1, 0, 0, 0, 2, 0, 0, 0] ∧
    padMessage .ansix923 8 [] [1, 0, 0, 0, 2] = [1, 0, 0, 0, 2, 0, 0, 3] ∧
    padMessage .pkcs7 8 [] [1, 0, 0, 0, 2] = [1, 0, 0, 0, 2, 3, 3, 3] ∧
    padMessage .iso10126 8 [0xA0, 0xA1] [1, 0, 0, 0, 2] = [1, 0, 0, 0, 2, 0xA0, 0xA1, 3] ∧
    padMessage .pkcs7 8 [] [] = [8, 8, 8, 8, 8, 8, 8, 8] := by decide
/-- 46 R353, R355, R357, R359: removal, and its failures. -/
theorem test_unpad :
    unpadMessage .zeros 8 [1, 0, 0, 0, 0, 0, 0, 0] = some [1] ∧
    unpadMessage .ansix923 8 [1, 2, 3, 4, 5, 6, 1, 2] = none ∧
    unpadMessage .pkcs7 8 [1, 2, 3, 4, 5, 6, 7, 9] = none ∧ unpadMessage .pkcs7 8 [1, 2, 3, 4, 5, 6, 7, 0] = none ∧
    unpadMessage .pkcs7 8 [1, 2, 3, 4, 5, 3, 3, 3] = some [1, 2, 3, 4, 5] ∧
    unpadMessage .iso10126 8 [1, 2, 3, 4, 5, 9, 9, 3] = some [1, 2, 3, 4, 5] := by decide

/-! ### Witnesses: for every obligation with hypotheses, terms that meet all of them together -/

theorem witness_LegalFormsEncodeToTheListedWords :
    ((0 : Nat) ≤ 6 ∧ (6 : Nat) ≤ 6) ∧ ((-128 : Int) ≤ -128 ∧ (-128 : Int) ≤ 127) ∧ (127 : Int) ≤ 127 ∧
    (encode (.rdreg 6)).cw = 0x00000606 ∧ (encode (.rot (BitVec.ofInt 8 (-128)) 0)).cw = 0x00008031 ∧
    (encode (.rot (BitVec.ofInt 8 127) 0)).cw = 0x00007F31 := by decide

theorem witness_DecodeInvertsEncode :
    (Instr.selfam 0xFF).wf = true ∧ (Instr.setkey [1, 2]).wf = true ∧ (Instr.setmode 5).wf = true ∧
    (Instr.setpad 4).wf = true ∧ (Instr.setiv []).wf = true ∧ (Instr.rdreg 7).wf = true ∧
    (Instr.encb [1]).wf = true ∧ (Instr.decb []).wf = true ∧ (Instr.encm [1, 2, 3]).wf = true ∧
    (Instr.decm [0]).wf = true ∧ (Instr.gfmul 0 0xFF).wf = true ∧ (Instr.rot 0x80 1).wf = true ∧
    (Instr.pht 0 1).wf = true := by decide

theorem witness_DecodeBytesInvertsEncodeBytes :
    (Instr.encm [7]).wf = true ∧ encodeBytes (.encm [7]) ++ [1] = [0, 0, 0, 0x20, 0, 0, 0, 1, 7, 1] := by decide

theorem witness_EncodeInvertsDecode : decode ⟨0x00008031, none, [0, 0, 0, 1]⟩ = .ok (.rot 0x80 1) := by decide

theorem witness_IllegalWords_rsv : Next (lined ⟨0x80000006, some 1, [1]⟩) ⟨0x80000006, some 1, [1]⟩ [] ∧
    IllegalWord 0x80000006 ∧ IllegalWord 0x00010006 := by
  refine ⟨rfl, ?_, ?_⟩ <;> · unfold IllegalWord UnknownOpcode; decide

theorem witness_IllegalWords_opc : ∀ cw ∈ [(0x00000000 : Word), 0x00000007, 0x0000000F, 0x00000012, 0x0000001F,
    0x00000022, 0x0000002F, 0x00000033, 0x000000FF], IllegalWord cw := by
  simp [IllegalWord, UnknownOpcode]

theorem witness_IllegalWords_sel : (∀ cw ∈ [(0x00000102 : Word), 0x00008032], IllegalWord cw) ∧
    ∀ cw ∈ [(0x0000FF01 : Word), 0x0000FF31, 0x00000032], ¬ IllegalWord cw := by
  simp [IllegalWord, UnknownOpcode, zeroSelOpcodes]

theorem witness_OnlyFramed : Next (lined ⟨0x00000005, some 1, [9]⟩) ⟨0x00000005, some 1, [9]⟩ [] ∧
    ¬ IllegalWord 0x00000005 ∧ Framed ⟨0x00000005, some 1, [9]⟩ := by
  refine ⟨rfl, by unfold IllegalWord UnknownOpcode zeroSelOpcodes; decide, ?_⟩
  simp [Framed, lenOpcodes]

theorem witness_OnlyFramed_not : Next (lined ⟨0x00000030, none, [9]⟩) ⟨0x00000030, none, [9]⟩ [] ∧
    ¬ IllegalWord 0x00000030 ∧ ¬ Framed ⟨0x00000030, none, [9]⟩ := by
  refine ⟨rfl, by unfold IllegalWord UnknownOpcode zeroSelOpcodes; decide, ?_⟩
  simp [Framed, lenOpcodes]

theorem witness_StepRuns :
    Next (lined ⟨0x00000103, none, []⟩) ⟨0x00000103, none, []⟩ [] ∧
    decode ⟨0x00000103, none, []⟩ = .ok (.setmode 1) ∧ State.reset.pending = [] := ⟨rfl, by decide, rfl⟩

theorem witness_HostReset : ({ keyed .b .cbc .pkcs7 true with pending := [.reset] } : State).pending = .reset :: [] :=
  rfl

theorem witness_Selfam :
    (2 ≤ (0x02 : Byte).toNat ∧ 2 ≤ (0xFF : Byte).toNat) ∧ ∃ t, exec (.selfam 1) (keyed .a .cbc .zeros true) = .next t :=
  ⟨by decide, _, rfl⟩

theorem witness_Setkey :
    State.reset.family = .a ∧ (List.replicate 16 (0 : Byte)).length = 16 ∧ (List.replicate 24 (0 : Byte)).length = 24 ∧
    (List.replicate 32 (0 : Byte)).length = 32 ∧ (keyed .b .ecb .zeros false).family = .b ∧
    ¬ ((List.replicate 17 (0 : Byte)).length = 16 ∨ (List.replicate 17 (0 : Byte)).length = 24 ∨
      (List.replicate 17 (0 : Byte)).length = 32) ∧ (List.replicate 24 (0 : Byte)).length ≠ 16 := by decide

theorem witness_Setmode :
    5 < (0x06 : Byte).toNat ∧ ∃ t, exec (.setmode 5) State.reset = .next t := ⟨by decide, _, rfl⟩

theorem witness_Setpad :
    3 < (0x04 : Byte).toNat ∧ ∃ t, exec (.setpad 2) State.reset = .next t := ⟨by decide, _, rfl⟩

theorem witness_Setiv :
    (List.replicate 16 (7 : Byte)).length = State.reset.bs ∧
    (List.replicate 8 (7 : Byte)).length = (keyed .b .ecb .zeros false).bs ∧
    (List.replicate 8 (7 : Byte)).length ≠ 0 ∧ (List.replicate 8 (7 : Byte)).length ≠ State.reset.bs ∧
    (List.replicate 16 (7 : Byte)).length < 2 ^ 32 := by decide

theorem witness_Rdreg :
    7 ≤ (0x07 : Byte).toNat ∧ Next (lined ⟨0x00010006, none, []⟩) ⟨0x00010006, none, []⟩ [] ∧
    (0x00010006 : Word).extractLsb' 0 8 = 0x06 ∧ (0x00010006 : Word).extractLsb' 16 16 ≠ 0 :=
  ⟨by decide, rfl, by decide, by decide⟩

theorem witness_GfMulEqualsShiftAndAdd : gfPoly.getLsbD 8 = true ∧ (0x100 : BitVec 9).getLsbD 8 = true := by decide

theorem witness_MultiplyGF : (0 < 1 ∧ 1 < 255) ∧ 0 < 254 ∧ 254 < 255 := by decide

theorem witness_Packers : bytesToWords [1, 2, 3, 4, 5, 6, 7, 8] = some [0x01020304, 0x05060708] ∧
    bytesToWords [1, 2, 3] = none := by decide

theorem witness_PhtIsABijection : ((5 : Word), (9 : Word)) = Machine.pht 1 4 := by decide

theorem witness_SBoxes : SameLane 0 (.k2 0x11223344 0x55667788) (.k2 0x00000044 0x99999988) ∧
    SameLane 3 (.k3 0x11223344 0 1) (.k3 0x11000000 2 3) ∧ SameLane 1 (.k4 0 1 2 3) (.k4 4 5 6 7) := by
  simp only [SameLane]; decide

theorem witness_ScheduleA : (∃ sch, deriveA (List.replicate 16 0) = some sch) ∧
    (∃ sch, deriveA (List.replicate 24 1) = some sch) ∧ ∃ sch, deriveA (List.replicate 32 2) = some sch :=
  ⟨⟨_, rfl⟩, ⟨_, rfl⟩, ⟨_, rfl⟩⟩

theorem witness_CipherA : (List.replicate 16 (1 : Byte)).length = 16 ∧ (0 < 16 ∧ 15 < 16) ∧
    bytesToWords [0, 1, 2, 3, 4, 5, 6, 7, 8, 9, 10, 11, 12, 13, 14, 15] =
      some [0x00010203, 0x04050607, 0x08090A0B, 0x0C0D0E0F] := by decide

/-- A block, and for the last sub-round a register that it does not update. -/
theorem witness_CipherB : (List.replicate 8 (1 : Byte)).length = 8 ∧ (0 : Fin 4) ≠ updatedReg 31 := by decide

/-- The first and the last iteration and table entry of each half, and a state that SETKEY derives in. -/
theorem witness_ScheduleB : (List.replicate 16 (1 : Byte)).length = 16 ∧ (0 < 2 ∧ 0 < 32 ∧ 0 < 96) ∧
    (1 < 2 ∧ 31 < 32 ∧ 95 < 96) ∧ (keyed .b .ecb .zeros false).family = .b := by decide

theorem witness_Masks : (0 : Fin 3) ≠ 2 := by decide

/-- S-box 0 reads bits 2, 5 of `a`, 6, 9 of `b` and 11, 13 of `c`. -/
theorem witness_FOutputBits : ∀ p : Fin 6, (0x3F : BitVec 6).getLsbD p.val =
    (if p.val < 2 then (0x0024 : Half) else if p.val < 4 then 0x0240 else 0x2800).getLsbD ((sbits.get 0).get p) := by
  decide

theorem zeroBoxes_stable : StableZero zeroBoxes := by
  intro i
  simp [stable, zeroBoxes, List.finRange_succ]

theorem witness_ZeroStable : StableZero zeroBoxes ∧ (List.replicate 8 (1 : Byte)).length = 8 ∧
    (List.replicate 16 (1 : Byte)).length = 16 := ⟨zeroBoxes_stable, by decide, by decide⟩

theorem witness_Errors_illegal : Next (lined ⟨0x000000FF, none, []⟩) ⟨0x000000FF, none, []⟩ [] ∧
    IllegalWord 0x000000FF ∧ IsCipher (.encb []) ∧ IsCipher (.decb []) ∧ IsCipher (.encm []) ∧ IsCipher (.decm []) ∧
    State.reset.keyValid = false := by
  refine ⟨rfl, by unfold IllegalWord UnknownOpcode; decide, .inl ⟨_, rfl⟩, .inr (.inl ⟨_, rfl⟩),
    .inr (.inr (.inl ⟨_, rfl⟩)), .inr (.inr (.inr ⟨_, rfl⟩)), rfl⟩

theorem witness_Errors_selectors : 2 ≤ (0x02 : Byte).toNat ∧ 6 ≤ (0x06 : Byte).toNat ∧ 4 ≤ (0x04 : Byte).toNat ∧
    7 ≤ (0x07 : Byte).toNat := by decide

theorem witness_Errors_lengths :
    let s := keyed .b .cbc .zeros false
    s.keyValid = true ∧ s.mode = .cbc ∧ s.ivValid = false ∧ s.bs = 8 ∧
    (List.replicate 24 (0 : Byte)).length ∉ keyLengths s.family ∧
    (List.replicate 5 (0 : Byte)).length = 5 ∧ (List.replicate 5 (0 : Byte)).length % s.bs ≠ 0 ∧
    (List.replicate 16 (0 : Byte)).length % s.bs = 0 ∧ (List.replicate 16 (0 : Byte)).length ≠ s.bs ∧
    (List.replicate 8 (0 : Byte)).length = s.bs := by decide

theorem witness_Errors_padding :
    let s := keyed .a .ecb .pkcs7 false
    s.keyValid = true ∧ IvReady s ∧ ([] : List Byte).length % s.bs = 0 ∧
      unpadMessage s.pad s.bs (s.decryptMessage []).out = none := ⟨rfl, .inl rfl, rfl, rfl⟩

theorem witness_SingleBlockCommandsComplete :
    (let s := keyed .a .ecb .zeros false
     s.keyValid = true ∧ (List.replicate 16 (0 : Byte)).length = s.bs ∧ IvReady s) ∧
    (let s := keyed .b .ctr .zeros true
     s.keyValid = true ∧ (List.replicate 8 (0 : Byte)).length = s.bs ∧ IvReady s) :=
  ⟨⟨rfl, rfl, .inl rfl⟩, ⟨rfl, rfl, .inr rfl⟩⟩

theorem witness_Ecb : (keyed .b .ecb .zeros true).mode = .ecb ∧ (keyed .b .ecb .zeros true).keyValid = true ∧
    (List.replicate 8 (0 : Byte)).length = (keyed .b .ecb .zeros true).bs ∧ IsCipher (.decm []) ∧
    State.reset.family = .a ∧ (keyed .b .ecb .zeros true).family = .b :=
  ⟨rfl, rfl, rfl, .inr (.inr (.inr ⟨_, rfl⟩)), rfl, rfl⟩

/-- One state per mode meets the hypotheses of the feedback and the keystream statements. -/
theorem witness_Chained : ∀ m ∈ [Mode.cbc, .pcbc, .cfb, .ofb, .ctr],
    (keyed .b m .zeros true).keyValid = true ∧ (keyed .b m .zeros true).ivValid = true ∧
    (keyed .b m .zeros true).mode = m ∧ (List.replicate 8 (0 : Byte)).length = (keyed .b m .zeros true).bs := by decide

theorem witness_Keystream : (BlockEngine.mk id id).enc = (BlockEngine.mk id List.reverse).enc ∧
    (Mode.cfb = .cfb ∨ Mode.cfb = .ofb ∨ Mode.cfb = .ctr) := ⟨rfl, .inl rfl⟩

theorem witness_DecryptionStep : (List.replicate 16 (3 : Byte)).length = State.reset.bs := by decide

theorem witness_Ciphertext : ([1, 2] : List Byte).length = ([3, 4] : List Byte).length ∧
    (Mode.ofb = .ofb ∨ Mode.ofb = .ctr) ∧ (Mode.ctr = .ofb ∨ Mode.ctr = .ctr) := by decide

/-- The first and the last counter distance that 45 R333 names, for one byte. -/
theorem witness_Counter : 0 < 1 ∧ 1 - 0 < 2 ^ (8 * ([0xFF] : List Byte).length) ∧ 0 < 255 ∧
    255 - 0 < 2 ^ (8 * ([0xFF] : List Byte).length) := by decide

theorem witness_EveryPadded :
    ([1, 2] : List Byte).length = (blockSize .b - ([1, 2, 3, 4, 5] : List Byte).length % blockSize .b) - 1 ∧
    ([1, 2, 3, 4, 5, 6, 7] : List Byte).length = (blockSize .b - ([] : List Byte).length % blockSize .b) - 1 ∧
    ([] : List Byte).length % blockSize .b = 0 ∧ Padding.pkcs7 ≠ .zeros := by decide

theorem witness_PaddingAppends : ∀ p ∈ [Padding.zeros, .ansix923, .pkcs7, .iso10126],
    (keyed .b .ecb p false).pad = p ∧
    ([1, 2] : List Byte).length =
      (keyed .b .ecb p false).bs - ([1, 2, 3, 4, 5] : List Byte).length % (keyed .b .ecb p false).bs - 1 := by decide

/-- Both ends of the pad length, from 1 to a whole block. -/
theorem witness_PaddingRemoval :
    unpadMessage .ansix923 8 [1, 2, 3, 4, 5, 6, 7, 1] = some [1, 2, 3, 4, 5, 6, 7] ∧
    unpadMessage .ansix923 8 [0, 0, 0, 0, 0, 0, 0, 8] = some [] ∧
    unpadMessage .pkcs7 8 [8, 8, 8, 8, 8, 8, 8, 8] = some [] ∧
    unpadMessage .iso10126 8 [9, 9, 9, 9, 9, 9, 9, 8] = some [] ∧ unpadMessage .zeros 8 [0, 0] = some [] := by decide

theorem witness_Unpadding :
    ([] : List Byte).length = blockSize .b - ([1, 2, 3, 4, 5, 6, 7] : List Byte).length % blockSize .b - 1 ∧
    Padding.iso10126 ≠ .zeros := by decide

theorem witness_Encm : ∀ m ∈ [Mode.ecb, .cbc, .pcbc, .cfb, .ofb, .ctr], (keyed .a m .pkcs7 true).keyValid = true ∧
    (keyed .a m .pkcs7 true).ivValid = true ∧ (keyed .a m .pkcs7 true).mode = m := by decide

theorem witness_Decm :
    (keyed .b .cbc .zeros true).keyValid = true ∧ IvReady (keyed .b .cbc .zeros true) ∧
    (List.replicate 16 (0 : Byte)).length % (keyed .b .cbc .zeros true).bs = 0 ∧
    unpadMessage .zeros 8 [] = some [] ∧ unpadMessage .pkcs7 8 [] = none := ⟨rfl, .inr rfl, rfl, rfl, rfl⟩

theorem witness_MessagesRoundTrip :
    (let s := keyed .a .cbc .zeros true
     s.keyValid = true ∧ IvReady s ∧ (s.pad = .zeros → ([0, 1] : List Byte) = [] ∨
      ([0, 1] : List Byte).getLast? ≠ some 0)) ∧
    (let s := keyed .b .ecb .iso10126 false
     s.keyValid = true ∧ IvReady s ∧ s.mode = .ecb ∧ (s.pad = .zeros → ([1, 0] : List Byte) = [] ∨
      ([1, 0] : List Byte).getLast? ≠ some 0)) :=
  ⟨⟨rfl, .inr rfl, fun _ => .inr (by decide)⟩, ⟨rfl, .inl rfl, rfl, fun h => by cases h⟩⟩

theorem witness_StatusCodes : (∃ t, exec (.gfmul 1 1) State.reset = .next t) ∧
    Next (lined ⟨0x00000100, none, []⟩) ⟨0x00000100, none, []⟩ [] ∧ IllegalWord 0x00000100 :=
  ⟨⟨_, rfl⟩, rfl, by unfold IllegalWord UnknownOpcode; decide⟩

theorem witness_Err : (∃ t, exec (.rdreg 0) State.reset = .next t) ∧ IsRdreg (.rdreg 0) ∧ ¬ IsRdreg (.selfam 0) ∧
    ∃ t, exec (.selfam 0) State.reset = .next t := ⟨⟨_, rfl⟩, ⟨_, rfl⟩, by simp [IsRdreg], ⟨_, rfl⟩⟩

theorem witness_OnlyPadding_failed : ∃ t, exec (.setmode 6) State.reset = .next t ∧
    t.responses = State.reset.responses ++ [⟨.unsupportedMode, []⟩] ∧ Status.unsupportedMode ≠ .ok :=
  ⟨_, rfl, rfl, by decide⟩

theorem witness_OnlyPadding_rdreg : ∃ t, exec (.rdreg 7) State.reset = .next t ∧
    t.responses = State.reset.responses ++ [⟨.unsupportedCommand, []⟩] ∧ IsRdreg (.rdreg 7) := ⟨_, rfl, rfl, _, rfl⟩

theorem witness_OnlyPadding_padding : ∃ t, exec (.decm []) (keyed .a .ecb .pkcs7 false) = .next t ∧
    t.responses = (keyed .a .ecb .pkcs7 false).responses ++ [⟨.paddingValidationFailed, []⟩] ∧
    (keyed .a .ecb .pkcs7 false).mode = .ecb := ⟨_, rfl, rfl, rfl⟩

theorem witness_EachCommand_session :
    (∃ t, exec (.selfam 1) (keyed .a .cbc .zeros true) = .next t ∧ t.family ≠ .a ∧ t.keyValid ≠ true ∧
      t.ivValid ≠ true ∧ t.keyLen ≠ 16) ∧
    (∃ t, exec (.setmode 1) State.reset = .next t ∧ t.mode ≠ State.reset.mode) ∧
    (∃ t, exec (.setpad 2) State.reset = .next t ∧ t.pad ≠ State.reset.pad) ∧
    (∃ t, exec (.setmode 9) State.reset = .next t ∧ t.err ≠ State.reset.err) :=
  ⟨⟨_, rfl, by decide, by decide, by decide, by decide⟩, ⟨_, rfl, by decide⟩, ⟨_, rfl, by decide⟩,
    ⟨_, rfl, by decide⟩⟩

/-- The last counter block of one byte less than all ones becomes the next, and bytes above the block stay. -/
theorem witness_EachCommand_chain :
    let s := { keyed .b .ctr .zeros true with chain := Vector.replicate 16 0 }
    ∃ t, exec (.encb (List.replicate 8 0)) s = .next t ∧ t.ch ≠ s.ch ∧ IsCipher (.encb (List.replicate 8 0)) ∧
      s.mode ≠ .ecb :=
  ⟨_, rfl, by decide, .inl ⟨_, rfl⟩, by decide⟩

/-- Whatever schedule the key derives, it differs from one of two tables that could stand there before. -/
theorem witness_EachCommand_key : ∃ s t : State, exec (.setkey (List.replicate 16 0)) s = .next t ∧ t.ek ≠ s.ek ∧
    t.keyValid ≠ s.keyValid ∧ t.keyLen ≠ s.keyLen := by
  obtain ⟨ek, h⟩ : ∃ ek, deriveB Config.mcgSbox (List.replicate 16 0) = some ek := ⟨_, rfl⟩
  have run : ∀ old : TableB, exec (.setkey (List.replicate 16 0)) { State.reset with family := .b, ek := old } =
      .next (({ State.reset with family := .b, ek := old }.bindB ek 16).finish []) := by
    intro old
    simp only [exec, execSetkey, State.bindKey, State.reset, keyLengths, List.length_replicate, h]
    simp
  by_cases he : ek = Vector.replicate 96 0
  · refine ⟨_, _, run (Vector.replicate 96 1), ?_, by simp [State.reset], by simp [State.reset]⟩
    rw [State.finish_ek, State.bindB_ek, he]
    decide
  · exact ⟨_, _, run (Vector.replicate 96 0), he, by simp [State.reset], by simp [State.reset]⟩

theorem witness_OnlyIso : ∃ t, exec (.encm []) (keyed .a .ecb .iso10126 false) = .next t ∧ t.rndCount ≠ 0 :=
  ⟨_, rfl, by decide⟩

/-- A coherent state with a bound Cipher B key. -/
theorem witness_KeyCoherent : ∃ s : State, s.KeyCoherent ∧ s.keyValid = true ∧ ∃ t, step s = .next t := by
  obtain ⟨ek, h⟩ : ∃ ek, deriveB Config.mcgSbox (List.replicate 16 0) = some ek := ⟨_, rfl⟩
  refine ⟨{ keyed .b .ecb .zeros false with ek := ek }, ⟨by simp [keyed], fun _ => ?_⟩, rfl, _, rfl⟩
  exact ⟨List.replicate 16 0, by simp [keyed, keyLengths], rfl, h⟩

theorem witness_ControlRegisters :
    (keyed .a .ctr .iso10126 true).readReg .mode = 5 ∧ (keyed .a .ctr .iso10126 true).readReg .pad = 3 ∧
    (keyed .a .ctr .iso10126 true).readReg .status = 3 := by decide

theorem witness_Conforming : ({ State.reset with
    pending := [.reset, .command ⟨0x00000503, none, []⟩, .command ⟨0xFFFFFFFF, none, [1]⟩] } : State).HostConforms := by
  unfold State.HostConforms; decide

theorem witness_Unspecified : State.SameView
    { keyed .b .ecb .zeros false with chain := Vector.replicate 16 0, k := Vector.replicate 40 0 }
    { keyed .b .ecb .zeros false with chain := Vector.replicate 16 1, k := Vector.replicate 40 1 } := by
  constructor <;> simp [keyed]

end Sys2Proof.Tests
end

/-! Noninterference (10 section 7, R50). `State.SameView` relates two states that differ at most in what reset
leaves unspecified. Every shared check and every value a command returns reads the same in both; every named
update keeps the relation; hence so does every command, and every step. -/

namespace Sys2Proof.Machine

/-! ### Answers that look alike -/

/-- Whenever the first outcome is a next state, so is the second, and the two states have the same view. -/
def AnswersAlike (o o' : Host.Outcome State Fault Refusal) : Prop :=
  ∀ s', o = .next s' → ∃ t', o' = .next t' ∧ s'.SameView t'

theorem State.SameView.answersAlike {s t : State} (h : s.SameView t) : AnswersAlike (.next s) (.next t) := by
  rintro _ ⟨⟩
  exact ⟨t, rfl, h⟩

theorem answersAlike_fault (r : Fault) (o : Host.Outcome State Fault Refusal) : AnswersAlike (.fault r) o := by
  rintro s' ⟨⟩

/-- Two results of a block step or a run of blocks that return the same bytes and, where an IV is valid, the same
chaining value. -/
structure BlockOut.Alike (iv : Bool) (r r' : BlockOut) : Prop where
  out : r.out = r'.out
  ch : iv = true → r.ch = r'.ch

/-! ### Writing `CH` -/

/-- A write below the first `n` bytes is a write to the first `n` bytes. -/
theorem take_overlay (n : Nat) (v c : List Byte) : (overlay v c).take n = overlay v (c.take n) := by
  induction c generalizing n v with
  | nil => cases v <;> simp [overlay]
  | cons x c ih => cases v <;> cases n <;> simp [overlay, ih]

/-- `CH` after a write depends on `CH` before it only, and on no byte of `CHAIN` above `BS`. -/
theorem State.ch_setCh_eq_overlay (s : State) (v : List Byte) : (s.setCh v).ch = overlay v s.ch := by
  simp [State.ch, writeChain, take_overlay]

/-! ### ECB returns bytes that do not depend on the chaining value (45 R317) -/

theorem encStep_ecb_out (e : BlockEngine) (ch ch' p : List Byte) :
    (encStep e .ecb ch p).out = (encStep e .ecb ch' p).out := rfl

theorem decStep_ecb_out (e : BlockEngine) (ch ch' c : List Byte) :
    (decStep e .ecb ch c).out = (decStep e .ecb ch' c).out := rfl

/-- A run of a block step whose output ignores the chaining value ignores it too. -/
theorem runBlocks_out_of_chainless {step : List Byte → List Byte → BlockOut}
    (hs : ∀ ch ch' b, (step ch b).out = (step ch' b).out) (ch ch' : List Byte) (bs : List (List Byte)) :
    (runBlocks step ch bs).out = (runBlocks step ch' bs).out := by
  induction bs generalizing ch ch' with
  | nil => rfl
  | cons b bs ih =>
    simp only [runBlocks]
    rw [hs ch ch' b, ih (step ch b).ch (step ch' b).ch]

namespace State.SameView

theorem refl (s : State) : s.SameView s := by
  constructor <;> simp

/-- Without a valid key and a valid IV, `CHAIN` and the tables are not in view (10 R40 to R42). -/
theorem of_unspecified (s : State) (hk : s.keyValid = false) (hiv : s.ivValid = false)
    (chain : Vector (BitVec 8) 16) (k : Vector (BitVec 32) 40) (sb : Vector (Vector (BitVec 8) 256) 4)
    (ek : Vector (BitVec 16) 96) : s.SameView { s with chain := chain, k := k, sb := sb, ek := ek } :=
  { refl s with
    ch := by simp [hiv]
    scheduleA := by simp [hk]
    scheduleB := by simp [hk] }

variable {s t : State} (h : s.SameView t)
include h

/-! ### What two states of the same view read alike -/

theorem bs_eq : s.bs = t.bs := congrArg blockSize h.family

theorem nextAction_eq : s.nextAction = t.nextAction := congrArg List.head? h.pending

theorem readReg_eq (r : Register) : s.readReg r = t.readReg r := by
  cases r <;>
    simp [State.readReg, State.statusByte, State.bs, h.family, h.mode, h.pad, h.keyValid, h.ivValid, h.err, h.keyLen]

theorem cipherError_eq (e : Option Status) : s.cipherError e = t.cipherError e := by
  unfold State.cipherError State.ivMissing
  rw [h.keyValid, h.mode, h.ivValid]

theorem rndAt_eq (i : Nat) : s.rndAt i = t.rndAt i := by
  simp only [State.rndAt, h.rnd, h.rndCount]

theorem rndBytes_eq (n : Nat) : s.rndBytes n = t.rndBytes n :=
  List.map_congr_left fun i _ => h.rndAt_eq i

theorem padded_eq (msg : List Byte) : s.padded msg = t.padded msg := by
  simp only [State.padded, h.pad, h.bs_eq, h.rndBytes_eq]

/-- With a valid key the tables of the current family are in view. -/
theorem engine_eq (hk : s.keyValid = true) : s.engine = t.engine := by
  unfold State.engine
  rw [← h.family, ← h.mcgSbox]
  cases hf : s.family with
  | a =>
    obtain ⟨hK, hSB⟩ := h.scheduleA hk hf
    simp only [hK, hSB]
  | b => simp only [h.scheduleB hk hf]

/-- Past the checks of a cipher command, either an IV is valid and `CH` is in view, or the mode is ECB. So what is
computed from `CH` is alike if in ECB it returns bytes that ignore `CH`. -/
theorem alike_of_checks {e : Option Status} (hc : s.cipherError e = none) {f : List Byte → BlockOut}
    (hf : s.mode = .ecb → ∀ ch ch', (f ch).out = (f ch').out) : (f s.ch).Alike s.ivValid (f t.ch) := by
  obtain ⟨-, -, hmode | hiv⟩ := (s.cipherError_eq_none e).mp hc
  · exact ⟨hf hmode _ _, fun hiv => by rw [h.ch hiv]⟩
  · rw [h.ch hiv]
    exact ⟨rfl, fun _ => rfl⟩

theorem encStep_alike {e : Option Status} (hc : s.cipherError e = none) (p : List Byte) :
    (encStep s.engine s.mode s.ch p).Alike s.ivValid (encStep t.engine t.mode t.ch p) := by
  rw [← h.engine_eq ((s.cipherError_eq_none e).mp hc).1, ← h.mode]
  refine h.alike_of_checks hc (f := fun ch => encStep s.engine s.mode ch p) fun hm ch ch' => ?_
  rw [hm]
  exact encStep_ecb_out _ ch ch' p

theorem decStep_alike {e : Option Status} (hc : s.cipherError e = none) (c : List Byte) :
    (decStep s.engine s.mode s.ch c).Alike s.ivValid (decStep t.engine t.mode t.ch c) := by
  rw [← h.engine_eq ((s.cipherError_eq_none e).mp hc).1, ← h.mode]
  refine h.alike_of_checks hc (f := fun ch => decStep s.engine s.mode ch c) fun hm ch ch' => ?_
  rw [hm]
  exact decStep_ecb_out _ ch ch' c

theorem encryptMessage_alike {e : Option Status} (hc : s.cipherError e = none) (msg : List Byte) :
    (s.encryptMessage msg).Alike s.ivValid (t.encryptMessage msg) := by
  unfold State.encryptMessage
  rw [← h.engine_eq ((s.cipherError_eq_none e).mp hc).1, ← h.mode, ← h.bs_eq, ← h.padded_eq]
  refine h.alike_of_checks hc (f := fun ch => runBlocks _ ch _) fun hm ch ch' => ?_
  rw [hm]
  exact runBlocks_out_of_chainless (encStep_ecb_out _) ch ch' _

theorem decryptMessage_alike {e : Option Status} (hc : s.cipherError e = none) (text : List Byte) :
    (s.decryptMessage text).Alike s.ivValid (t.decryptMessage text) := by
  unfold State.decryptMessage
  rw [← h.engine_eq ((s.cipherError_eq_none e).mp hc).1, ← h.mode, ← h.bs_eq]
  refine h.alike_of_checks hc (f := fun ch => runBlocks _ ch _) fun hm ch ch' => ?_
  rw [hm]
  exact runBlocks_out_of_chainless (decStep_ecb_out _) ch ch' _

/-! ### The updates that keep the view the same -/

theorem respond (status : Status) (dout : List Byte) : (s.respond status dout).SameView (t.respond status dout) :=
  { h with responses := by simp [h.responses] }

theorem finish (dout : List Byte) : (s.finish dout).SameView (t.finish dout) :=
  { h with err := rfl, responses := by simp [h.responses] }

theorem raise (code : Status) : (s.raise code).SameView (t.raise code) :=
  { h with err := rfl, responses := by simp [h.responses] }

theorem popAction : s.popAction.SameView t.popAction :=
  { h with pending := by simp [h.pending] }

theorem rndDrop (n : Nat) : (s.rndDrop n).SameView (t.rndDrop n) :=
  { h with rnd := by simp [h.rnd], rndCount := by simp [h.rndCount] }

/-- The values written to `CH` need to agree only while an IV is valid. -/
theorem setCh {v w : List Byte} (hv : s.ivValid = true → v = w) : (s.setCh v).SameView (t.setCh w) :=
  { h with
    ch := fun hiv => by
      rw [State.setCh_ivValid] at hiv
      rw [State.ch_setCh_eq_overlay, State.ch_setCh_eq_overlay, hv hiv, h.ch hiv] }

/-- A new IV puts `CH` in view, whatever stood there before (45 R305). -/
theorem loadIv {iv : List Byte} (hl : iv.length = s.bs) :
    { s.setCh iv with ivValid := true }.SameView { t.setCh iv with ivValid := true } :=
  { h with
    ivValid := rfl
    ch := fun _ => by
      have hs : (s.setCh iv).ch = iv := s.ch_setCh iv hl
      have ht : (t.setCh iv).ch = iv := t.ch_setCh iv (hl.trans h.bs_eq)
      exact hs.trans ht.symm }

theorem bindA (hf : s.family = .a) (sch : ScheduleA) (len : Byte) : (s.bindA sch len).SameView (t.bindA sch len) :=
  { h with
    keyValid := rfl
    keyLen := rfl
    scheduleA := fun _ _ => ⟨rfl, rfl⟩
    scheduleB := by simp [hf] }

theorem bindB (hf : s.family = .b) (ek : TableB) (len : Byte) : (s.bindB ek len).SameView (t.bindB ek len) :=
  { h with
    keyValid := rfl
    keyLen := rfl
    scheduleA := by simp [hf]
    scheduleB := fun _ _ => rfl }

/-- Reset takes every register to its reset value, and the free values it draws depend on the count of resets. -/
theorem applyReset : s.applyReset.SameView t.applyReset :=
  { h with
    family := rfl, mode := rfl, pad := rfl, keyValid := rfl, ivValid := rfl, err := rfl, keyLen := rfl
    resets := by simp [h.resets]
    ch := nofun, scheduleA := nofun, scheduleB := nofun }

/-! ### The commands -/

theorem execSelfam_alike (sel : Byte) : AnswersAlike (execSelfam sel s) (execSelfam sel t) := by
  unfold execSelfam
  cases familyOfSel sel with
  | none => exact (h.raise _).answersAlike
  | some f =>
    have selected : { s with family := f, keyValid := false, keyLen := 0, ivValid := false }.SameView
        { t with family := f, keyValid := false, keyLen := 0, ivValid := false } :=
      { h with
        family := rfl, keyValid := rfl, keyLen := rfl, ivValid := rfl
        ch := nofun, scheduleA := nofun, scheduleB := nofun }
    exact (selected.finish []).answersAlike

theorem execSetkey_alike (key : List Byte) : AnswersAlike (execSetkey key s) (execSetkey key t) := by
  unfold execSetkey
  rw [← h.family]
  split
  case isFalse => exact (h.raise _).answersAlike
  case isTrue hl =>
    rcases s.bindKey_of_length key hl with ⟨sch, hf, hd, hb⟩ | ⟨ek, hf, hd, hb⟩
    · have hb' : t.bindKey key = some (t.bindA sch (BitVec.ofNat 8 key.length)) := by
        simp [State.bindKey, ← h.family, hf, hd]
      rw [hb, hb']
      exact ((h.bindA hf sch _).finish []).answersAlike
    · have hb' : t.bindKey key = some (t.bindB ek (BitVec.ofNat 8 key.length)) := by
        simp [State.bindKey, ← h.family, ← h.mcgSbox, hf, hd]
      rw [hb, hb']
      exact ((h.bindB hf ek _).finish []).answersAlike

theorem execSetmode_alike (sel : Byte) : AnswersAlike (execSetmode sel s) (execSetmode sel t) := by
  unfold execSetmode
  cases modeOfSel sel with
  | none => exact (h.raise _).answersAlike
  | some m =>
    have selected : { s with mode := m }.SameView { t with mode := m } := { h with mode := rfl }
    exact (selected.finish []).answersAlike

theorem execSetpad_alike (sel : Byte) : AnswersAlike (execSetpad sel s) (execSetpad sel t) := by
  unfold execSetpad
  cases padOfSel sel with
  | none => exact (h.raise _).answersAlike
  | some p =>
    have selected : { s with pad := p }.SameView { t with pad := p } := { h with pad := rfl }
    exact (selected.finish []).answersAlike

theorem execSetiv_alike (iv : List Byte) : AnswersAlike (execSetiv iv s) (execSetiv iv t) := by
  unfold execSetiv
  rw [← h.bs_eq]
  split
  case isTrue =>
    have cleared : { s with ivValid := false }.SameView { t with ivValid := false } :=
      { h with ivValid := rfl, ch := nofun }
    exact (cleared.finish []).answersAlike
  case isFalse =>
    split
    case isTrue hl => exact ((h.loadIv hl).finish []).answersAlike
    case isFalse => exact (h.raise _).answersAlike

theorem execRdreg_alike (sel : Byte) : AnswersAlike (execRdreg sel s) (execRdreg sel t) := by
  unfold execRdreg
  cases registerOfSel sel with
  | none => exact (h.respond _ []).answersAlike
  | some r =>
    dsimp only
    rw [← h.readReg_eq r]
    exact (h.respond _ _).answersAlike

theorem execEncb_alike (block : List Byte) : AnswersAlike (execEncb block s) (execEncb block t) := by
  unfold execEncb
  rw [← h.bs_eq, ← h.cipherError_eq]
  cases hc : s.cipherError (encbLengthError s.bs block.length) with
  | some e => exact (h.raise e).answersAlike
  | none =>
    have hr := h.encStep_alike hc block
    dsimp only
    rw [← hr.out]
    exact ((h.setCh hr.ch).finish _).answersAlike

theorem execDecb_alike (block : List Byte) : AnswersAlike (execDecb block s) (execDecb block t) := by
  unfold execDecb
  rw [← h.bs_eq, ← h.cipherError_eq]
  cases hc : s.cipherError (decbLengthError s.bs block.length) with
  | some e => exact (h.raise e).answersAlike
  | none =>
    have hr := h.decStep_alike hc block
    dsimp only
    rw [← hr.out]
    exact ((h.setCh hr.ch).finish _).answersAlike

theorem execEncm_alike (msg : List Byte) : AnswersAlike (execEncm msg s) (execEncm msg t) := by
  unfold execEncm
  rw [← h.cipherError_eq, ← h.pad, ← h.bs_eq]
  cases hc : s.cipherError none with
  | some e => exact (h.raise e).answersAlike
  | none =>
    have hr := h.encryptMessage_alike hc msg
    dsimp only
    rw [← hr.out]
    exact (((h.rndDrop _).setCh hr.ch).finish _).answersAlike

theorem execDecm_alike (text : List Byte) : AnswersAlike (execDecm text s) (execDecm text t) := by
  unfold execDecm
  rw [← h.bs_eq, ← h.cipherError_eq, ← h.pad]
  cases hc : s.cipherError (decmLengthError s.bs text.length) with
  | some e => exact (h.raise e).answersAlike
  | none =>
    have hr := h.decryptMessage_alike hc text
    have written := h.setCh hr.ch
    dsimp only
    rw [← hr.out]
    cases unpadMessage s.pad s.bs (s.decryptMessage text).out with
    | none => exact (written.raise _).answersAlike
    | some m => exact (written.finish m).answersAlike

theorem exec_alike (i : Instr) : AnswersAlike (exec i s) (exec i t) := by
  cases i with
  | selfam sel => exact h.execSelfam_alike sel
  | setkey key => exact h.execSetkey_alike key
  | setmode sel => exact h.execSetmode_alike sel
  | setpad sel => exact h.execSetpad_alike sel
  | setiv iv => exact h.execSetiv_alike iv
  | rdreg sel => exact h.execRdreg_alike sel
  | encb block => exact h.execEncb_alike block
  | decb block => exact h.execDecb_alike block
  | encm msg => exact h.execEncm_alike msg
  | decm text => exact h.execDecm_alike text
  | gfmul a b => exact (h.finish _).answersAlike
  | rot sel x => exact (h.finish _).answersAlike
  | pht a b => exact (h.finish _).answersAlike

/-! ### A step -/

theorem rejectCommand_alike (e : DecodeError) : AnswersAlike (s.rejectCommand e) (t.rejectCommand e) := by
  unfold State.rejectCommand
  split
  case isTrue => exact (h.raise _).answersAlike
  case isFalse => exact answersAlike_fault _ _

theorem step_alike : AnswersAlike (step s) (step t) := by
  unfold step
  rw [← h.nextAction_eq]
  cases s.nextAction with
  | none => exact h.answersAlike
  | some action =>
    cases action with
    | reset => exact h.popAction.applyReset.answersAlike
    | command c =>
      dsimp only
      cases decode c with
      | ok i => exact h.popAction.exec_alike i
      | error e => exact h.popAction.rejectCommand_alike e

end State.SameView

/-- Settles O60: the step lemma is `State.SameView.step_alike`, and after reset neither a key nor an IV is valid. -/
theorem unspecifiedStateIsUnobservable : Obligations.UnspecifiedStateIsUnobservable := by
  unfold Obligations.UnspecifiedStateIsUnobservable
  exact ⟨fun _ _ s' h => h.step_alike s', State.SameView.of_unspecified State.reset rfl rfl⟩

end Sys2Proof.Machine

/-! Encoding (30). A transaction with a legal command word and the framing of 30 R102 and R103 is cut off the front of
any byte stream whole; the transaction of a well-formed instruction is one, and its operands read back. The words left
over are exactly the illegal ones of 30 R106 and R107. -/

namespace Sys2Proof

open Machine

/-! ### The transaction of an instruction decodes to it -/

/-- What `encode` gives is a transaction a host may send (30 R100 to R103). -/
theorem encode_framed (i : Instr) : Laws.Framing.Statement i := by
  cases i with
  | selfam sel => exact Laws.Framing.selfam sel
  | setkey key => exact Laws.Framing.setkey key
  | setmode sel => exact Laws.Framing.setmode sel
  | setpad sel => exact Laws.Framing.setpad sel
  | setiv iv => exact Laws.Framing.setiv iv
  | rdreg sel => exact Laws.Framing.rdreg sel
  | encb block => exact Laws.Framing.encb block
  | decb block => exact Laws.Framing.decb block
  | encm msg => exact Laws.Framing.encm msg
  | decm text => exact Laws.Framing.decm text
  | gfmul a b => exact Laws.Framing.gfmul a b
  | rot sel x => exact Laws.Framing.rot sel x
  | pht a b => exact Laws.Framing.pht a b

@[simp] theorem encode_sel (i : Instr) : (encode i).sel = i.sel := commandWord_sel i.opcode i.sel

/-- The operands of an instruction read back: only `ROT` and `PHT` pack theirs (30 R109). -/
theorem operands_opcode_sel_din (i : Instr) : operands i.opcode i.sel i.din = .ok i := by
  cases i with
  | rot sel x => exact congrArg (fun w => Except.ok (Instr.rot sel w)) (beWord_wordBytes x)
  | pht a b => exact congrArg₂ (fun v w => Except.ok (Instr.pht v w)) (beWord_wordBytes a) (beWord_wordBytes b)
  | _ => rfl

theorem decode_encode (i : Instr) (hwf : i.wf = true) : decode (encode i) = .ok i := by
  obtain ⟨hword, hframing, -⟩ := encode_framed i hwf
  refine (decode_eq_ok _ _).mpr ⟨i.opcode, hword, hframing, ?_⟩
  rw [encode_sel]
  exact operands_opcode_sel_din i

/-! ### A transaction at the front of a byte stream -/

@[simp] theorem streamHasLen_byte (op : Opcode) : streamHasLen op.byte = op.hasLen := by
  simp [streamHasLen]

@[simp] theorem streamDinLen_byte (op : Opcode) (n : Nat) : streamDinLen op.byte n = op.dinLen n := by
  simp [streamDinLen]

/-- As many `DIN` bytes as the command has, whatever follows them. -/
@[simp] theorem takeDin_append (cw : Word) (len : Option Word) (din rest : List Byte) :
    takeDin cw len din.length (din ++ rest) = .ok (⟨cw, len, din⟩, rest) := by
  simp [takeDin]

/-- A legal and framed transaction is split off whole: `OPC`, and `LEN` where `OPC` has one, say where it ends
(30 R101 to R103). -/
theorem splitCommand_toBytes_append (c : Command) (op : Opcode) (hword : decodeWord c = .ok op)
    (hframing : checkFraming op c = .ok ()) (rest : List Byte) :
    splitCommand (c.toBytes ++ rest) = .ok (c, rest) := by
  obtain ⟨-, hopc, -⟩ := (decodeWord_eq_ok c op).mp hword
  obtain ⟨hlen, hdin⟩ := (checkFraming_eq_ok op c).mp hframing
  obtain ⟨cw, len, din⟩ := c
  have hstream : streamHasLen (cw.extractLsb' 0 8) = len.isSome := by
    rw [show cw.extractLsb' 0 8 = op.byte from hopc, streamHasLen_byte, hlen]
  have hcount : streamDinLen (cw.extractLsb' 0 8) ((len.map BitVec.toNat).getD 0) = din.length := by
    rw [show cw.extractLsb' 0 8 = op.byte from hopc, streamDinLen_byte, hdin]
  cases len with
  | none =>
    dsimp at hstream hcount
    simp [Command.toBytes, wordBytes, splitCommand, hstream, hcount]
  | some n =>
    dsimp at hstream hcount
    simp [Command.toBytes, wordBytes, splitCommand, hstream, hcount]

/-- A transaction that decodes, carried as bytes, decodes to the same instruction and leaves what follows. -/
theorem decodeBytes_toBytes_append (c : Command) (i : Instr) (hdec : decode c = .ok i) (rest : List Byte) :
    decodeBytes (c.toBytes ++ rest) = .ok (i, rest) := by
  obtain ⟨op, hword, hframing, -⟩ := (decode_eq_ok c i).mp hdec
  simp [decodeBytes, splitCommand_toBytes_append c op hword hframing rest, hdec]

/-- Settles O3: the bytes are those of a transaction that decodes, `decode_encode`. -/
theorem decodeBytesInvertsEncodeBytes : Obligations.DecodeBytesInvertsEncodeBytes := by
  unfold Obligations.DecodeBytesInvertsEncodeBytes
  exact ⟨by decide, fun i rest hwf => decodeBytes_toBytes_append (encode i) i (decode_encode i hwf) rest⟩

/-! ### Illegal command words -/

open Claims

/-- The codes of 30 R107 are those that name no operation. -/
theorem ofByte_eq_none_iff_unknownOpcode (b : Byte) : Opcode.ofByte b = none ↔ UnknownOpcode b := by
  unfold UnknownOpcode
  revert b
  decide

theorem byte_mem_zeroSelOpcodes (op : Opcode) : op.byte ∈ zeroSelOpcodes ↔ op.selIsField = false := by
  cases op <;> decide

/-- A command word is legal exactly when it names an operation (30 R106, R107). -/
theorem not_illegalWord_iff (c : Command) : ¬ IllegalWord c.cw ↔ ∃ op, decodeWord c = .ok op := by
  simp only [decodeWord_eq_ok, IllegalWord, ← ofByte_eq_none_iff_unknownOpcode, Command.rsv, Command.opc, Command.sel]
  cases hopc : Opcode.ofByte (c.cw.extractLsb' 0 8) with
  | none =>
    have hno := (Opcode.ofByte_eq_none _).mp hopc
    simp [hno]
  | some op =>
    rw [(Opcode.ofByte_eq_some _ _).mp hopc, byte_mem_zeroSelOpcodes]
    constructor
    · intro hlegal
      simp only [reduceCtorEq, false_or, not_or, not_not, not_and, ← Bool.not_eq_true] at hlegal
      obtain ⟨hrsv, hsel⟩ := hlegal
      exact ⟨op, hrsv, rfl, or_iff_not_imp_left.mpr hsel⟩
    · rintro ⟨op', hrsv, hbyte, hsel⟩
      obtain rfl := Opcode.byte_injective op op' hbyte
      rcases hsel with hsel | hsel <;> simp [hrsv, hsel]

theorem decode_of_decodeWord_error (c : Command) (e : DecodeError) (he : decodeWord c = .error e) :
    decode c = .error e := by
  simp [decode, he]

/-- An illegal command word is reported with `UnsupportedCommand`, whatever `LEN` and `DIN` came with it (30 R108). -/
theorem step_of_illegalWord (s : State) (c : Command) (rest : List HostAction) (hnext : Next s c rest)
    (hillegal : IllegalWord c.cw) : step s = .next (s.popAction.raise .unsupportedCommand) := by
  cases hword : decodeWord c with
  | ok op => exact absurd hillegal ((not_illegalWord_iff c).mpr ⟨op, hword⟩)
  | error e =>
    rw [step_reject s c rest e hnext (decode_of_decodeWord_error c e hword), State.rejectCommand,
      decodeWord_error_illegal c e hword, if_pos rfl]

theorem popAction_of_next (s : State) (c : Command) (rest : List HostAction) (hnext : Next s c rest) :
    s.popAction = { s with pending := rest } := by
  rw [State.popAction, show s.pending = .command c :: rest from hnext, List.tail_cons]

/-- Settles O5: `step_of_illegalWord`, and `not_illegalWord_iff` for every other word. -/
theorem illegalWordsRaiseUnsupportedCommand : Obligations.IllegalWordsRaiseUnsupportedCommand := by
  unfold Obligations.IllegalWordsRaiseUnsupportedCommand
  constructor
  · intro s c rest hnext hillegal
    rw [step_of_illegalWord s c rest hnext hillegal, popAction_of_next s c rest hnext]
    rfl
  · intro c hlegal
    obtain ⟨op, hword⟩ := (not_illegalWord_iff c).mp hlegal
    obtain ⟨-, hopc, -⟩ := (decodeWord_eq_ok c op).mp hword
    exact ⟨op, hword, hopc⟩

/-! ### The listed command words -/

/-- A command word as a number: `(SEL << 8) | OPC` (30 R111). -/
theorem encode_cw (i : Instr) : (encode i).cw = BitVec.ofNat 32 (i.sel.toNat <<< 8 ||| i.opcode.byte.toNat) := by
  have hshift : BitVec.ofNat 32 (i.sel.toNat <<< 8) = BitVec.ofNat 32 i.sel.toNat <<< 8 := by
    apply BitVec.eq_of_toNat_eq
    simp [BitVec.toNat_shiftLeft, Nat.shiftLeft_eq]
  rw [BitVec.ofNat_or, hshift, BitVec.ofNat_toNat, BitVec.ofNat_toNat]
  rfl

theorem encode_rdreg_cw (n : Nat) (hn : n ≤ 6) :
    (encode (.rdreg (BitVec.ofNat 8 n))).cw = BitVec.ofNat 32 (n <<< 8 ||| 0x06) := by
  rw [encode_cw, Instr.sel, BitVec.toNat_ofNat, Nat.mod_eq_of_lt (by omega)]
  rfl

/-- The amount of `ROT` is its residue modulo 256 (30 R111). -/
theorem encode_rot_cw (n : Int) (x : Word) :
    (encode (.rot (BitVec.ofInt 8 n) x)).cw = BitVec.ofNat 32 ((n % 256).toNat <<< 8 ||| 0x31) := by
  rw [encode_cw, Instr.sel, BitVec.toNat_ofInt]
  rfl

/-- Settles O1: `RDREG` and `ROT` as numbers, every other form by the value of its command word. -/
theorem legalFormsEncodeToTheListedWords : Obligations.LegalFormsEncodeToTheListedWords := by
  unfold Obligations.LegalFormsEncodeToTheListedWords
  have setkey : commandWord .setkey 0 = 0x00000002 := rfl
  have setiv : commandWord .setiv 0 = 0x00000005 := rfl
  have encb : commandWord .encb 0 = 0x00000010 := rfl
  have decb : commandWord .decb 0 = 0x00000011 := rfl
  have encm : commandWord .encm 0 = 0x00000020 := rfl
  have decm : commandWord .decm 0 = 0x00000021 := rfl
  have gfmul : commandWord .gfmul 0 = 0x00000030 := rfl
  have pht : commandWord .pht 0 = 0x00000032 := rfl
  exact ⟨rfl, rfl, fun _ => setkey, rfl, rfl, rfl, rfl, rfl, rfl, rfl, rfl, rfl, rfl, fun _ => setiv,
    encode_rdreg_cw, fun _ => encb, fun _ => decb, fun _ => encm, fun _ => decm, fun _ _ => gfmul,
    fun n x _ _ => encode_rot_cw n x, encode_rot_cw 8, encode_rot_cw (-1), fun _ _ => pht⟩

end Sys2Proof

/-! The multiplier of GF(2^8) (40 R140 to R143). A bit vector stands for an element of GF(2)[x] modulo `p`, its
`residue`: XOR adds, a shift multiplies by a power of `x`, and where `p` has degree 8 distinct bytes are distinct
elements. `gf_mul` is the product of these elements, so its laws are those of a commutative ring. -/

namespace Sys2Proof.Machine

open Claims Polynomial

/-! ### Bits as a polynomial -/

/-- The bits of a vector as a polynomial over GF(2) (40 R140). -/
noncomputable def gfPolynomial {n : Nat} (v : BitVec n) : (ZMod 2)[X] :=
  ∑ i ∈ Finset.range n, if v.getLsbD i then X ^ i else 0

theorem coeff_gfPolynomial {n : Nat} (v : BitVec n) (i : Nat) :
    (gfPolynomial v).coeff i = if v.getLsbD i then 1 else 0 := by
  have hterm : ∀ j, (if v.getLsbD j then (X : (ZMod 2)[X]) ^ j else 0).coeff i =
      if i = j then (if v.getLsbD i then 1 else 0) else 0 := by
    intro j
    by_cases hij : i = j
    · subst hij
      cases v.getLsbD i <;> simp
    · cases v.getLsbD j <;> simp [coeff_X_pow, hij]
  have hout : i ∉ Finset.range n → v.getLsbD i = false := by
    simpa using fun h => BitVec.getLsbD_of_ge v i h
  simp only [gfPolynomial, finsetSum_coeff, hterm, Finset.sum_ite_eq]
  split <;> simp_all

/-- Vectors with the same bits stand for the same polynomial, whatever their widths. -/
theorem gfPolynomial_congr {m n : Nat} {v : BitVec m} {w : BitVec n} (h : ∀ i, v.getLsbD i = w.getLsbD i) :
    gfPolynomial v = gfPolynomial w := by
  ext i
  rw [coeff_gfPolynomial, coeff_gfPolynomial, h]

theorem gfPolynomial_injective {n : Nat} {v w : BitVec n} (h : gfPolynomial v = gfPolynomial w) : v = w := by
  apply BitVec.eq_of_getLsbD_eq
  intro i _
  have hi := congrArg (coeff · i) h
  simp only [coeff_gfPolynomial] at hi
  cases hv : v.getLsbD i <;> cases hw : w.getLsbD i <;> simp_all

theorem degree_gfPolynomial_lt {n : Nat} (v : BitVec n) : (gfPolynomial v).degree < n := by
  rw [degree_lt_iff_coeff_zero]
  intro i hi
  simp [coeff_gfPolynomial, BitVec.getLsbD_of_ge v i hi]

@[simp] theorem gfPolynomial_zero {n : Nat} : gfPolynomial 0#n = 0 := by
  ext i
  simp [coeff_gfPolynomial]

@[simp] theorem gfPolynomial_one : gfPolynomial 1#8 = 1 := by
  ext i
  simp [coeff_gfPolynomial, coeff_one]

@[simp] theorem gfPolynomial_xor {n : Nat} (v w : BitVec n) :
    gfPolynomial (v ^^^ w) = gfPolynomial v + gfPolynomial w := by
  ext i
  simp only [coeff_add, coeff_gfPolynomial, BitVec.getLsbD_xor]
  cases v.getLsbD i <;> cases w.getLsbD i <;> decide

/-- A shift that loses no bit multiplies by a power of the indeterminate. -/
theorem gfPolynomial_shiftLeft {n m : Nat} (v : BitVec n) (k : Nat) (hk : n + k ≤ m) :
    gfPolynomial (v.setWidth m <<< k) = gfPolynomial v * X ^ k := by
  ext i
  rw [coeff_mul_X_pow', coeff_gfPolynomial, BitVec.getLsbD_shiftLeft, BitVec.getLsbD_setWidth]
  by_cases hi : i < k
  · simp [hi]
  · by_cases hm : i < m
    · simp [coeff_gfPolynomial, hm, show k ≤ i by omega, show i - k < m by omega, hi]
    · simp [coeff_gfPolynomial, hm, show k ≤ i by omega, BitVec.getLsbD_of_ge v (i - k) (by omega)]

theorem degree_gfPolynomial_of_bit8 (p : BitVec 9) (hp : p.getLsbD 8 = true) : (gfPolynomial p).degree = 8 := by
  refine le_antisymm (Order.le_of_lt_succ ?_) (le_degree_of_ne_zero (by simp [coeff_gfPolynomial, hp]))
  exact degree_gfPolynomial_lt p

theorem monic_gfPolynomial (p : BitVec 9) (hp : p.getLsbD 8 = true) : (gfPolynomial p).Monic := by
  rw [Monic, leadingCoeff, natDegree_eq_of_degree_eq_some (degree_gfPolynomial_of_bit8 p hp), coeff_gfPolynomial]
  simp [hp]

/-! ### The residue of a polynomial modulo `p` -/

/-- The element of GF(2)[x] modulo `p` that the bits of a vector stand for (40 R140). -/
noncomputable def residue (p : BitVec 9) {n : Nat} (v : BitVec n) : AdjoinRoot (gfPolynomial p) :=
  AdjoinRoot.mk (gfPolynomial p) (gfPolynomial v)

/-- Distinct bytes are distinct elements: `p` has degree 8. -/
theorem residue_injective {p : BitVec 9} (hp : p.getLsbD 8 = true) {a b : Byte} (h : residue p a = residue p b) :
    a = b := by
  have hdvd : gfPolynomial p ∣ gfPolynomial a - gfPolynomial b := AdjoinRoot.mk_eq_mk.mp h
  have hdeg : (gfPolynomial a - gfPolynomial b).degree < (gfPolynomial p).degree := by
    rw [degree_gfPolynomial_of_bit8 p hp]
    exact (degree_sub_le _ _).trans_lt (max_lt (degree_gfPolynomial_lt a) (degree_gfPolynomial_lt b))
  by_contra hne
  exact (monic_gfPolynomial p hp).not_dvd_of_degree_lt (sub_ne_zero.mpr fun he => hne (gfPolynomial_injective he))
    hdeg hdvd

section
variable (p : BitVec 9)

theorem residue_congr {m n : Nat} {v : BitVec m} {w : BitVec n} (h : ∀ i, v.getLsbD i = w.getLsbD i) :
    residue p v = residue p w := congrArg _ (gfPolynomial_congr h)

@[simp] theorem residue_self : residue p p = 0 := AdjoinRoot.mk_self

@[simp] theorem residue_zero {n : Nat} : residue p 0#n = 0 := by simp [residue]

@[simp] theorem residue_one : residue p 1#8 = 1 := by simp [residue]

@[simp] theorem residue_xor {n : Nat} (v w : BitVec n) : residue p (v ^^^ w) = residue p v + residue p w := by
  simp [residue]

theorem residue_shiftLeft {n m : Nat} (v : BitVec n) (k : Nat) (hk : n + k ≤ m) :
    residue p (v.setWidth m <<< k) = residue p v * AdjoinRoot.root (gfPolynomial p) ^ k := by
  simp [residue, gfPolynomial_shiftLeft v k hk]

/-- An element is the sum of the powers of `x` at its set bits. -/
theorem residue_eq_sum (b : Byte) : residue p b =
    ([0, 1, 2, 3, 4, 5, 6, 7].map fun i =>
      if b.getLsbD i then AdjoinRoot.root (gfPolynomial p) ^ i else 0).sum := by
  have hsum : gfPolynomial b = ([0, 1, 2, 3, 4, 5, 6, 7].map fun i => if b.getLsbD i then X ^ i else 0).sum := by
    simp [gfPolynomial, Finset.sum_range_succ, add_assoc]
  simp [residue, hsum, apply_ite (AdjoinRoot.mk (gfPolynomial p))]

/-- An XOR of the terms at the set bits of `b` is the sum of their elements. -/
theorem residue_foldl_xor {n : Nat} (b : Byte) (f : Nat → BitVec n) (l : List Nat) (r : BitVec n) :
    residue p (l.foldl (fun r i => if b.getLsbD i then r ^^^ f i else r) r) =
      residue p r + (l.map fun i => if b.getLsbD i then residue p (f i) else 0).sum := by
  induction l generalizing r with
  | nil => simp
  | cons i l ih =>
    rw [List.foldl_cons, ih, List.map_cons, List.sum_cons]
    split <;> simp [add_assoc]

/-- XORing `a * x^i` over the set bits `i` of `b` gives the product of `a` and `b`. -/
theorem residue_foldl_shifts {n : Nat} (a b : Byte) (f : Nat → BitVec n)
    (hf : ∀ i < 8, residue p (f i) = residue p a * AdjoinRoot.root (gfPolynomial p) ^ i) :
    residue p ([0, 1, 2, 3, 4, 5, 6, 7].foldl (fun r i => if b.getLsbD i then r ^^^ f i else r) 0#n) =
      residue p a * residue p b := by
  rw [residue_foldl_xor, residue_eq_sum p b, residue_zero, zero_add, ← List.sum_map_mul_left]
  congr 1
  refine List.map_congr_left fun i hi => ?_
  rw [hf i (by simp at hi; omega), mul_ite, mul_zero]

theorem residue_clmul (a b : Byte) : residue p (clmul a b) = residue p a * residue p b :=
  residue_foldl_shifts p a b (a.setWidth 15 <<< ·) fun i hi => residue_shiftLeft p a i (by omega)

end

/-! ### Reduction -/

/-- One step of the second loop of 40 R141, at bit `i`. -/
def gfReduceStep (p : BitVec 9) (r : BitVec 15) (i : Nat) : BitVec 15 :=
  if r.getLsbD i then r ^^^ (p.setWidth 15 <<< (i - 8)) else r

theorem residue_gfReduceStep (p : BitVec 9) (r : BitVec 15) (k : Nat) (hk : k < 7) :
    residue p (gfReduceStep p r (8 + k)) = residue p r := by
  unfold gfReduceStep
  split
  · rw [residue_xor, residue_shiftLeft p p _ (by omega), residue_self, zero_mul, add_zero]
  · rfl

/-- A step clears its bit and sets none above it. -/
theorem gfReduceStep_clears (p : BitVec 9) (hp : p.getLsbD 8 = true) (r : BitVec 15) (k : Nat)
    (hr : ∀ j, 8 + (k + 1) ≤ j → r.getLsbD j = false) (j : Nat) (hj : 8 + k ≤ j) :
    (gfReduceStep p r (8 + k)).getLsbD j = false := by
  unfold gfReduceStep
  rcases Nat.eq_or_lt_of_le hj with rfl | hlt
  · split
    case isTrue h =>
      have hlt : 8 + k < 15 := BitVec.lt_of_getLsbD h
      rw [BitVec.getLsbD_xor, h, BitVec.getLsbD_shiftLeft, BitVec.getLsbD_setWidth]
      simp [-BitVec.getLsbD_eq_getElem, hp, hlt]
    case isFalse h => simpa using h
  · split
    · simp [hr j hlt, BitVec.getLsbD_of_ge p (j - k) (by omega)]
    · exact hr j hlt

/-- The steps from bit `7 + k` down to bit 8 keep the element and clear every bit from 8 up. -/
theorem foldl_gfReduceStep (p : BitVec 9) (hp : p.getLsbD 8 = true) (k : Nat) (hk : k ≤ 7) (r : BitVec 15)
    (hr : ∀ j, 8 + k ≤ j → r.getLsbD j = false) :
    let r' := ((List.range k).reverse.map (8 + ·)).foldl (gfReduceStep p) r
    residue p r' = residue p r ∧ ∀ j, 8 ≤ j → r'.getLsbD j = false := by
  induction k generalizing r with
  | zero => exact ⟨rfl, hr⟩
  | succ k ih =>
    have hstep := ih (by omega) (gfReduceStep p r (8 + k)) (gfReduceStep_clears p hp r k hr)
    rw [residue_gfReduceStep p r k (by omega)] at hstep
    simpa [List.range_succ] using hstep

theorem gfReduce_eq_foldl (p : BitVec 9) (r : BitVec 15) :
    gfReduce r p = ((List.range 7).reverse.map (8 + ·)).foldl (gfReduceStep p) r := rfl

theorem residue_gfReduce (p : BitVec 9) (hp : p.getLsbD 8 = true) (r : BitVec 15) :
    residue p ((gfReduce r p).setWidth 8) = residue p r := by
  obtain ⟨hres, hclear⟩ :
      residue p (gfReduce r p) = residue p r ∧ ∀ j, 8 ≤ j → (gfReduce r p).getLsbD j = false := by
    rw [gfReduce_eq_foldl]
    exact foldl_gfReduceStep p hp 7 le_rfl r fun j hj => BitVec.getLsbD_of_ge r j hj
  rw [← hres]
  apply residue_congr
  intro j
  rw [BitVec.getLsbD_setWidth]
  by_cases hj : j < 8
  · simp [hj]
  · simp [hj, hclear j (by omega)]

/-- `gf_mul` is multiplication of polynomials over GF(2) modulo `p` (40 R140, R141). -/
theorem residue_gfMul (p : BitVec 9) (hp : p.getLsbD 8 = true) (a b : Byte) :
    residue p (gfMul a b p) = residue p a * residue p b := by
  rw [gfMul, residue_gfReduce p hp, residue_clmul]

/-! ### Shift-and-add -/

/-- Before its top bit is taken off, `xtime(v)` is `v` shifted by one, with `p` added where bit 7 was set (40 R143). -/
theorem setWidth_xtime (p : BitVec 9) (hp : p.getLsbD 8 = true) (v : Byte) :
    (xtime p v).setWidth 9 = v.setWidth 9 <<< 1 ^^^ if v.getLsbD 7 then p else 0 := by
  apply BitVec.eq_of_getLsbD_eq
  intro i hi
  obtain hlt | rfl : i < 8 ∨ i = 8 := by omega
  · cases h7 : v.getLsbD 7 <;> simp [-BitVec.getLsbD_eq_getElem, xtime, h7, hi, hlt, show i - 1 < 9 by omega]
  · cases h7 : v.getLsbD 7 <;> simp [-BitVec.getLsbD_eq_getElem, h7, hp]

theorem residue_xtime (p : BitVec 9) (hp : p.getLsbD 8 = true) (v : Byte) :
    residue p (xtime p v) = residue p v * AdjoinRoot.root (gfPolynomial p) := by
  have hwide : residue p (xtime p v) = residue p ((xtime p v).setWidth 9) := by
    apply residue_congr
    intro i
    simpa using fun h => (BitVec.lt_of_getLsbD h).trans (by omega)
  rw [hwide, setWidth_xtime p hp, residue_xor, residue_shiftLeft p v 1 (by omega), pow_one]
  split <;> simp

theorem residue_iterate_xtime (p : BitVec 9) (hp : p.getLsbD 8 = true) (a : Byte) (i : Nat) :
    residue p ((xtime p)^[i] a) = residue p a * AdjoinRoot.root (gfPolynomial p) ^ i := by
  induction i with
  | zero => simp
  | succ i ih => rw [Function.iterate_succ_apply', residue_xtime p hp, ih, pow_succ, mul_assoc]

/-- Settles O21: both forms multiply the elements of GF(2)[x] modulo `p`, where distinct bytes are distinct. -/
theorem gfMulEqualsShiftAndAdd : Obligations.GfMulEqualsShiftAndAdd := by
  unfold Obligations.GfMulEqualsShiftAndAdd
  intro a b p hp
  apply residue_injective hp
  rw [residue_gfMul p hp]
  exact (residue_foldl_shifts p a b (fun i => (xtime p)^[i] a) fun i _ => residue_iterate_xtime p hp a i).symm

/-! ### The laws of the product -/

section
variable {p : BitVec 9} (hp : p.getLsbD 8 = true)
include hp

theorem gfMul_comm (a b : Byte) : gfMul a b p = gfMul b a p := by
  apply residue_injective hp
  rw [residue_gfMul p hp, residue_gfMul p hp, mul_comm]

theorem gfMul_assoc (a b c : Byte) : gfMul (gfMul a b p) c p = gfMul a (gfMul b c p) p := by
  apply residue_injective hp
  simp only [residue_gfMul p hp, mul_assoc]

theorem gfMul_xor (a b c : Byte) : gfMul a (b ^^^ c) p = gfMul a b p ^^^ gfMul a c p := by
  apply residue_injective hp
  simp only [residue_gfMul p hp, residue_xor, mul_add]

theorem gfMul_zero_left (b : Byte) : gfMul 0 b p = 0 := by
  apply residue_injective hp
  simp [residue_gfMul p hp]

theorem gfMul_one_left (b : Byte) : gfMul 1 b p = b := by
  apply residue_injective hp
  simp [residue_gfMul p hp]

end

theorem gfPoly_bit8 : gfPoly.getLsbD 8 = true := by decide

/-- The powers of the element `x`: exponents add. -/
theorem iterate_multiplyGF_two_add (m n : Nat) :
    (multiplyGF 2)^[m + n] 1 = multiplyGF ((multiplyGF 2)^[m] 1) ((multiplyGF 2)^[n] 1) := by
  induction m with
  | zero => rw [Nat.zero_add]; exact (gfMul_one_left gfPoly_bit8 _).symm
  | succ m ih =>
    rw [Nat.succ_add, Function.iterate_succ_apply', Function.iterate_succ_apply', ih]
    exact (gfMul_assoc gfPoly_bit8 2 _ _).symm

/-- The element `x` has order 255 = 3 * 5 * 17 (40 R142): its power 255 is 1, and its powers 255/3, 255/5 and 255/17
are not. -/
theorem minimalPeriod_multiplyGF_two : Function.minimalPeriod (multiplyGF 2) 1 = 255 := by
  have h15 : (multiplyGF 2)^[15] 1 = 0xB5 := by decide +kernel
  have h17 : (multiplyGF 2)^[17] 1 = 0x06 := by decide +kernel
  have h34 : (multiplyGF 2)^[34] 1 = 0x14 := by rw [iterate_multiplyGF_two_add 17 17, h17]; decide
  have h51 : (multiplyGF 2)^[51] 1 = 0x78 := by rw [iterate_multiplyGF_two_add 17 34, h17, h34]; decide
  have h85 : (multiplyGF 2)^[85] 1 = 0x7F := by rw [iterate_multiplyGF_two_add 34 51, h34, h51]; decide
  have h170 : (multiplyGF 2)^[170] 1 = 0x7E := by rw [iterate_multiplyGF_two_add 85 85, h85]; decide
  have h255 : (multiplyGF 2)^[255] 1 = 1 := by rw [iterate_multiplyGF_two_add 85 170, h85, h170]; decide
  have hdvd : Function.minimalPeriod (multiplyGF 2) 1 ∣ 255 :=
    Function.isPeriodicPt_iff_minimalPeriod_dvd.mp h255
  have hnot : ∀ n, (multiplyGF 2)^[n] 1 ≠ 1 → ¬ Function.minimalPeriod (multiplyGF 2) 1 ∣ n :=
    fun _ => mt Function.isPeriodicPt_iff_minimalPeriod_dvd.mpr
  have hproper : ∀ d ≤ 255, d ∣ 255 → d = 255 ∨ d ∣ 15 ∨ d ∣ 51 ∨ d ∣ 85 := by decide +kernel
  rcases hproper _ (Nat.le_of_dvd (by omega) hdvd) hdvd with h | h | h | h
  · exact h
  · exact absurd h (hnot 15 (by rw [h15]; decide))
  · exact absurd h (hnot 51 (by rw [h51]; decide))
  · exact absurd h (hnot 85 (by rw [h85]; decide))

/-- Settles O22: the laws of the product modulo any polynomial of degree 8, here `GF_POLY`, and the order of `x`. -/
theorem multiplyGFObeysTheFieldLaws : Obligations.MultiplyGFObeysTheFieldLaws := by
  unfold Obligations.MultiplyGFObeysTheFieldLaws
  refine ⟨gfMul_comm gfPoly_bit8, gfMul_assoc gfPoly_bit8, gfMul_xor gfPoly_bit8,
    fun b => ⟨gfMul_zero_left gfPoly_bit8 b, gfMul_one_left gfPoly_bit8 b⟩, ⟨?_, fun n hpos hlt => ?_⟩, by decide⟩
  · rw [← minimalPeriod_multiplyGF_two]
    exact Function.iterate_minimalPeriod
  · exact Function.not_isPeriodicPt_of_pos_of_lt_minimalPeriod (by omega)
      (hlt.trans_eq minimalPeriod_multiplyGF_two.symm)

end Sys2Proof.Machine

/-! Rotation, the word packers and the pseudo-Hadamard transform (40 R144 to R152), and the diagnostic commands that
expose the primitives (40 R160 to R162). -/

namespace Sys2Proof.Machine

open Claims

/-! ### Rotation -/

theorem rot_eq_rotateLeft (x : Word) (n : Int) : rot x n = x.rotateLeft (n % 32).toNat := by
  have hlt : (n % 32).toNat < 32 := by omega
  rw [BitVec.rotateLeft_eq_rotateLeftAux_of_lt hlt, BitVec.rotateLeftAux, rot]
  split
  case isTrue h => simp [h, BitVec.ushiftRight_eq_zero]
  case isFalse => rfl

/-- Only the amount modulo 32 counts (40 R144). -/
theorem rot_congr (x : Word) {m n : Int} (h : m % 32 = n % 32) : rot x m = rot x n := by
  simp only [rot, h]

theorem rot_of_emod_eq_zero (x : Word) {n : Int} (h : n % 32 = 0) : rot x n = x := by
  simp [rot, h]

/-- Turning left by `32 - k` is turning right by `k`. -/
theorem rot_neg (x : Word) (n : Nat) : rot x (-(n : Int)) = x.rotateRight (n % 32) := by
  have hlt : n % 32 < 32 := Nat.mod_lt _ (by omega)
  rw [BitVec.rotateRight_eq_rotateRightAux_of_lt hlt, BitVec.rotateRightAux, rot]
  by_cases h : n % 32 = 0
  · simp [h, show (-(n : Int) % 32).toNat = 0 by omega]
  · simp only [show (-(n : Int) % 32).toNat = 32 - n % 32 by omega, show ¬ 32 - n % 32 = 0 by omega, if_false,
      show 32 - (32 - n % 32) = n % 32 by omega]
    exact BitVec.or_comm _ _

/-- Settles O23: only the amount modulo 32 counts, `rot_eq_rotateLeft` and `rot_neg`. -/
theorem rotIsRotationModulo32 : Obligations.RotIsRotationModulo32 := by
  unfold Obligations.RotIsRotationModulo32
  refine ⟨fun x n => ?_, fun x n => ⟨?_, rot_neg x n⟩, fun x => ?_, by decide⟩
  · have hzero : (n % 32).toNat = 0 ↔ n % 32 = 0 := by omega
    simp only [rot, hzero]
  · rw [rot_eq_rotateLeft, show ((n : Int) % 32).toNat = n % 32 by omega]
  · exact ⟨rot_of_emod_eq_zero x rfl, rot_of_emod_eq_zero x rfl, rot_of_emod_eq_zero x rfl, rot_congr x rfl,
      rot_congr x rfl⟩

/-! ### The word packers -/

theorem wordsToBytes_cons (w : Word) (ws : List Word) : wordsToBytes (w :: ws) = wordBytes w ++ wordsToBytes ws :=
  rfl

/-- What packs is the bytes of the words it packs into (40 R147). -/
theorem wordsToBytes_of_bytesToWords {b : List Byte} {ws : List Word} (h : bytesToWords b = some ws) :
    wordsToBytes ws = b := by
  induction b using bytesToWords.induct generalizing ws with
  | case1 =>
    obtain rfl := Option.some.inj h
    rfl
  | case2 b0 b1 b2 b3 rest ih =>
    obtain ⟨tail, htail, rfl⟩ := Option.map_eq_some_iff.mp h
    rw [wordsToBytes_cons, wordBytes_beWord, ih htail]
    rfl
  | case3 b hnil hcons => simp [bytesToWords] at h

@[simp] theorem bytesToWords_wordsToBytes (ws : List Word) : bytesToWords (wordsToBytes ws) = some ws := by
  induction ws with
  | nil => rfl
  | cons w ws ih => simp [wordsToBytes_cons, wordBytes, bytesToWords, ih]

/-- Byte `4j + k` is byte `k` of word `j` (40 R147). -/
theorem wordsToBytes_getElem? (ws : List Word) (j k : Nat) (hj : j < ws.length) (hk : k < 4) :
    (wordsToBytes ws)[4 * j + k]? = (wordBytes ws[j])[k]? := by
  induction ws generalizing j with
  | nil => simp at hj
  | cons w ws ih =>
    rw [wordsToBytes_cons]
    cases j with
    | zero => rw [List.getElem?_append_left (by simpa using hk)]; simp
    | succ j =>
      rw [List.getElem?_append_right (by simp; omega), wordBytes_length,
        show 4 * (j + 1) + k - 4 = 4 * j + k by omega, ih j (by simpa using hj)]
      rfl

/-- The four bytes of word `j` in their places, most significant first (40 R147). -/
theorem wordsToBytes_word (ws : List Word) (j : Nat) (hj : j < ws.length) :
    (wordsToBytes ws)[4 * j]? = some (ws[j].extractLsb' 24 8) ∧
    (wordsToBytes ws)[4 * j + 1]? = some (ws[j].extractLsb' 16 8) ∧
    (wordsToBytes ws)[4 * j + 2]? = some (ws[j].extractLsb' 8 8) ∧
    (wordsToBytes ws)[4 * j + 3]? = some (ws[j].extractLsb' 0 8) :=
  ⟨wordsToBytes_getElem? ws j 0 hj (by omega), wordsToBytes_getElem? ws j 1 hj (by omega),
    wordsToBytes_getElem? ws j 2 hj (by omega), wordsToBytes_getElem? ws j 3 hj (by omega)⟩

/-- The packer refuses exactly the lengths that are no multiple of 4 (40 R149). -/
theorem bytesToWords_eq_none (b : List Byte) : bytesToWords b = none ↔ b.length % 4 ≠ 0 := by
  constructor
  · intro hnone hlen
    obtain ⟨ws, hws, -⟩ := bytesToWords_of_length (b.length / 4) b (by omega)
    simp [hnone] at hws
  · intro hlen
    cases h : bytesToWords b with
    | none => rfl
    | some ws =>
      rw [← wordsToBytes_of_bytesToWords h, wordsToBytes_length] at hlen
      omega

/-- Settles O24: both inverses, and every byte in its place, `wordsToBytes_word`. -/
theorem packersAreBigEndianAndInverse : Obligations.PackersAreBigEndianAndInverse := by
  unfold Obligations.PackersAreBigEndianAndInverse
  refine ⟨fun b ws h => ?_, fun ws => ⟨bytesToWords_wordsToBytes ws, wordsToBytes_length ws, wordsToBytes_word ws⟩,
    bytesToWords_eq_none⟩
  obtain rfl := wordsToBytes_of_bytesToWords h
  refine ⟨wordsToBytes_length ws, fun j hj => ?_, rfl⟩
  obtain ⟨h0, h1, h2, h3⟩ := wordsToBytes_word ws j hj
  simp only [List.getD_eq_getElem?_getD, h0, h1, h2, h3, Option.getD_some, ← beWord_eq_append, beWord_wordBytes]
  exact List.getElem?_eq_getElem hj

/-! ### The pseudo-Hadamard transform -/

/-- The words that `PHT` takes to `(p, q)` (40 R152). -/
def phtInverse (pq : Word × Word) : Word × Word := (2 * pq.1 - pq.2, pq.2 - pq.1)

theorem phtInverse_pht (a b : Word) : phtInverse (pht a b) = (a, b) := by
  simp only [phtInverse, pht, Prod.mk.injEq]
  constructor <;> ring

theorem pht_phtInverse (pq : Word × Word) : pht (phtInverse pq).1 (phtInverse pq).2 = pq := by
  simp only [phtInverse, pht]
  ext1 <;> ring

/-- Settles O25: `phtInverse` is the inverse on both sides. -/
theorem phtIsABijection : Obligations.PhtIsABijection := by
  unfold Obligations.PhtIsABijection
  refine ⟨fun _ _ => rfl, fun a b p q h => ?_, ?_, by decide⟩
  · have hinv := phtInverse_pht a b
    rw [← h, phtInverse, Prod.mk.injEq] at hinv
    exact ⟨hinv.2.symm, hinv.1.symm⟩
  · exact Function.bijective_iff_has_inverse.mpr ⟨phtInverse, fun ab => phtInverse_pht ab.1 ab.2, pht_phtInverse⟩

/-! ### The diagnostic commands -/

/-- The transaction of `ROT`, its word given by its four bytes (40 R161). -/
theorem encode_rot_beWord (sel b0 b1 b2 b3 : Byte) :
    encode (.rot sel (beWord b0 b1 b2 b3)) = ⟨commandWord .rot sel, none, [b0, b1, b2, b3]⟩ :=
  congrArg (Command.mk (commandWord .rot sel) none) (wordBytes_beWord b0 b1 b2 b3)

/-- Settles O19: the transaction is that of `encode`, and `rot_congr` gives the corner cases. -/
theorem rotRotatesAndWritesErrOnly : Obligations.RotRotatesAndWritesErrOnly := by
  unfold Obligations.RotRotatesAndWritesErrOnly
  refine ⟨fun sel b0 b1 b2 b3 => ?_, fun s sel x => execRot_eq sel x s, fun x n hn => rot_of_emod_eq_zero x ?_,
    fun x => ⟨rot_congr x rfl, rot_congr x rfl⟩, by decide, by decide⟩
  · have hdecode := decode_encode (.rot sel (beWord b0 b1 b2 b3)) rfl
    rw [encode_rot_beWord, beWord_eq_append] at hdecode
    exact hdecode
  · revert n
    decide

theorem encode_gfmul (a b : Byte) : encode (.gfmul a b) = ⟨commandWord .gfmul 0, none, [a, b]⟩ := rfl

/-- Settles O18: the product of the command is `gfMul` modulo `GF_POLY`, whose units are `gfMul_zero_left` and
`gfMul_one_left`. -/
theorem gfmulMultipliesAndWritesErrOnly : Obligations.GfmulMultipliesAndWritesErrOnly := by
  unfold Obligations.GfmulMultipliesAndWritesErrOnly
  refine ⟨fun a b => ?_, fun s a b => execGfmul_eq a b s, fun b => ?_, by decide⟩
  · have hdecode := decode_encode (.gfmul a b) rfl
    rw [encode_gfmul] at hdecode
    exact hdecode
  · have hzero := gfMul_zero_left gfPoly_bit8 b
    have hone := gfMul_one_left gfPoly_bit8 b
    exact ⟨hzero, (gfMul_comm gfPoly_bit8 b 0).trans hzero, hone, (gfMul_comm gfPoly_bit8 b 1).trans hone⟩

/-- The transaction of `PHT`, its words given by their bytes (40 R162). -/
theorem encode_pht_beWord (a0 a1 a2 a3 b0 b1 b2 b3 : Byte) :
    encode (.pht (beWord a0 a1 a2 a3) (beWord b0 b1 b2 b3)) =
      ⟨commandWord .pht 0, none, [a0, a1, a2, a3, b0, b1, b2, b3]⟩ :=
  congrArg (Command.mk (commandWord .pht 0) none) (congrArg₂ (· ++ ·) (wordBytes_beWord a0 a1 a2 a3)
    (congrArg (· ++ []) (wordBytes_beWord b0 b1 b2 b3)))

/-- Settles O20: the two words are packed big-endian, `beWord_eq_append`. -/
theorem phtTransformsAndWritesErrOnly : Obligations.PhtTransformsAndWritesErrOnly := by
  unfold Obligations.PhtTransformsAndWritesErrOnly
  refine ⟨fun a0 a1 a2 a3 b0 b1 b2 b3 => ?_, fun s a b => execPht_eq a b s, by decide⟩
  have hdecode := decode_encode (.pht (beWord a0 a1 a2 a3) (beWord b0 b1 b2 b3)) rfl
  rw [encode_pht_beWord, beWord_eq_append, beWord_eq_append] at hdecode
  exact hdecode

end Sys2Proof.Machine

/-! Cipher A's key schedule (41 R181 to R195): the fixed byte permutations `q0` and `q1`, and the key-dependent S-boxes,
which are `hq` lane by lane. -/

namespace Sys2Proof.Machine

open Claims

/-! ### A `q` permutes the bytes when its four nibble tables permute the nibbles -/

/-- The high and the low nibble of a byte (41 R182). -/
def byteNibbles (x : Byte) : BitVec 4 × BitVec 4 := (x.extractLsb' 4 4, x.extractLsb' 0 4)

/-- The byte of a low and a high nibble, the packing that ends 41 R182. -/
def nibbleByte (ab : BitVec 4 × BitVec 4) : Byte := ab.2.setWidth 8 <<< 4 ||| ab.1.setWidth 8

/-- The linear layer of 41 R182, which runs before each of the two table layers. -/
def nibbleMix (ab : BitVec 4 × BitVec 4) : BitVec 4 × BitVec 4 := (ab.1 ^^^ ab.2, ab.1 ^^^ ror4 ab.2 ^^^ 8 * ab.1)

/-- The inverse of `nibbleMix`: from the mixed nibbles `s` and `t`, `t ^^^ ror4 s` is the Gray code `a ^^^ a >>> 1` of
the first nibble `a`. -/
def nibbleUnmix (st : BitVec 4 × BitVec 4) : BitVec 4 × BitVec 4 :=
  let u := st.2 ^^^ ror4 st.1
  let a := u ^^^ u >>> 1 ^^^ u >>> 2 ^^^ u >>> 3
  (a, a ^^^ st.1)

theorem qPerm_eq_comp (t : QTable) :
    qPerm t = nibbleByte ∘ Prod.map (nibbleAt t.t2) (nibbleAt t.t3) ∘ nibbleMix ∘
      Prod.map (nibbleAt t.t0) (nibbleAt t.t1) ∘ nibbleMix ∘ byteNibbles := rfl

theorem byteNibbles_injective : Function.Injective byteNibbles :=
  Function.LeftInverse.injective (g := fun ab => nibbleByte ab.swap) (show ∀ x, _ = x by decide)

theorem nibbleMix_injective : Function.Injective nibbleMix :=
  Function.LeftInverse.injective (g := nibbleUnmix) fun (a, b) => by revert a b; decide

theorem nibbleByte_injective : Function.Injective nibbleByte :=
  Function.LeftInverse.injective (g := fun x => (byteNibbles x).swap) fun (a, b) => by revert a b; decide

theorem qPerm_bijective {t : QTable} (h0 : Function.Injective (nibbleAt t.t0))
    (h1 : Function.Injective (nibbleAt t.t1)) (h2 : Function.Injective (nibbleAt t.t2))
    (h3 : Function.Injective (nibbleAt t.t3)) : Function.Bijective (qPerm t) := by
  rw [← Finite.injective_iff_bijective, qPerm_eq_comp]
  exact nibbleByte_injective.comp <| (h2.prodMap h3).comp <| nibbleMix_injective.comp <|
    (h0.prodMap h1).comp <| nibbleMix_injective.comp byteNibbles_injective

theorem q0_bijective : Function.Bijective q0 := by
  refine qPerm_bijective (t := q0T) ?_ ?_ ?_ ?_ <;> unfold Function.Injective <;> decide

theorem q1_bijective : Function.Bijective q1 := by
  refine qPerm_bijective (t := q1T) ?_ ?_ ?_ ?_ <;> unfold Function.Injective <;> decide

/-- Settles O26: the tables by evaluation, the bijections by `qPerm_bijective`. -/
theorem qPermutationsAreTheListedTables : Obligations.QPermutationsAreTheListedTables := by
  unfold Obligations.QPermutationsAreTheListedTables
  exact ⟨by decide +kernel, by decide +kernel, q0_bijective, q1_bijective⟩

/-! ### `hq` works lane by lane (41 R195) -/

theorem sameLane_refl (i : Fin 4) (l : KeyVec) : SameLane i l l := by
  cases l <;> simp [SameLane]

section
variable {i : Fin 4} {l l' : KeyVec} {y y' : Vector Byte 4}

theorem lane_keyWord_congr (hl : SameLane i l l') :
    lane (keyWord0 l) i = lane (keyWord0 l') i ∧ lane (keyWord1 l) i = lane (keyWord1 l') i := by
  match l, l', hl with
  | .k2 _ _, .k2 _ _, h => exact h
  | .k3 _ _ _, .k3 _ _ _, ⟨h0, h1, _⟩ => exact ⟨h0, h1⟩
  | .k4 _ _ _ _, .k4 _ _ _ _, ⟨h0, h1, _⟩ => exact ⟨h0, h1⟩

theorem hqLayer4_get_congr (hl : SameLane i l l') (hy : y.get i = y'.get i) :
    (hqLayer4 l y).get i = (hqLayer4 l' y').get i := by
  match l, l', hl with
  | .k2 _ _, .k2 _ _, _ => exact hy
  | .k3 _ _ _, .k3 _ _ _, _ => exact hy
  | .k4 _ _ _ _, .k4 _ _ _ _, ⟨_, _, _, h3⟩ =>
    fin_cases i <;> exact congrArg₂ (· ^^^ ·) (congrArg _ hy) h3

theorem hqLayer3_get_congr (hl : SameLane i l l') (hy : y.get i = y'.get i) :
    (hqLayer3 l y).get i = (hqLayer3 l' y').get i := by
  match l, l', hl with
  | .k2 _ _, .k2 _ _, _ => exact hy
  | .k3 _ _ _, .k3 _ _ _, ⟨_, _, h2⟩ => fin_cases i <;> exact congrArg₂ (· ^^^ ·) (congrArg _ hy) h2
  | .k4 _ _ _ _, .k4 _ _ _ _, ⟨_, _, h2, _⟩ => fin_cases i <;> exact congrArg₂ (· ^^^ ·) (congrArg _ hy) h2

theorem hqLayer2_get_congr {l0 l0' l1 l1' : Word} (h0 : lane l0 i = lane l0' i) (h1 : lane l1 i = lane l1' i)
    (hy : y.get i = y'.get i) : (hqLayer2 l0 l1 y).get i = (hqLayer2 l0' l1' y').get i := by
  have hlane (p p' p'' : Byte → Byte) : p (p' (p'' (y.get i) ^^^ lane l1 i) ^^^ lane l0 i) =
      p (p' (p'' (y'.get i) ^^^ lane l1' i) ^^^ lane l0' i) := by
    rw [hy, h1, h0]
  fin_cases i
  exacts [hlane q1 q0 q0, hlane q0 q0 q1, hlane q1 q1 q0, hlane q0 q1 q1]

/-- Lane `i` of `hq` depends on lane `i` of the input and of each key word alone. -/
theorem hq_get_congr (hl : SameLane i l l') {x x' : Word} (hx : lane x i = lane x' i) :
    (hq x l).get i = (hq x' l').get i := by
  have hin : (#v[lane x 0, lane x 1, lane x 2, lane x 3]).get i =
      (#v[lane x' 0, lane x' 1, lane x' 2, lane x' 3]).get i := by
    fin_cases i <;> exact hx
  obtain ⟨h0, h1⟩ := lane_keyWord_congr hl
  exact hqLayer2_get_congr h0 h1 (hqLayer3_get_congr hl (hqLayer4_get_congr hl hin))

end

/-- Every lane of `x * rho` is `x` (00 R23). -/
@[simp] theorem lane_timesRho (x : Byte) (j : Fin 4) : lane (timesRho x) j = x := by
  revert x
  fin_cases j <;> decide

@[simp] theorem keySBoxes_get_get (l : KeyVec) (i : Fin 4) (x : Fin 256) :
    ((keySBoxes l).get i).get x = (hq (timesRho (BitVec.ofFin x)) l).get i := by
  simp [keySBoxes]

/-- The S-box entry at a lane of the input is that lane of `hq` (41 R194). -/
theorem keySBoxes_get_lane (l : KeyVec) (x : Word) (i : Fin 4) :
    ((keySBoxes l).get i).get (lane x i).toFin = (hq x l).get i := by
  rw [keySBoxes_get_get]
  exact hq_get_congr (sameLane_refl i l) (lane_timesRho _ i)

/-- A vector is the table of its entries. -/
theorem tabulate_get_self {α : Type} {n : Nat} (v : Vector α n) : tabulate v.get = v := by
  ext i hi
  simp [Vector.get]

theorem gWord_eq_mds (sb : Vector (Vector Byte 256) 4) (x : Word) :
    gWord sb x = mds #v[(sb.get 0).get (lane x 0).toFin, (sb.get 1).get (lane x 1).toFin,
      (sb.get 2).get (lane x 2).toFin, (sb.get 3).get (lane x 3).toFin] := rfl

theorem gWord_keySBoxes (l : KeyVec) (x : Word) : gWord (keySBoxes l) x = hWord x l := by
  rw [gWord, hWord, funext (keySBoxes_get_lane l x), tabulate_get_self]

/-- Settles O27: `hq_get_congr` is the independence of the other lanes, `gWord_keySBoxes` that the S-boxes give `h`. -/
theorem sBoxesAreTheLanesOfH : Obligations.SBoxesAreTheLanesOfH := by
  unfold Obligations.SBoxesAreTheLanesOfH
  refine ⟨fun i l l' x hl => ?_, fun svec x => ?_, gWord_keySBoxes⟩
  · rw [keySBoxes_get_get, keySBoxes_get_get]
    exact hq_get_congr hl rfl
  · rw [← gWord_keySBoxes, gWord_eq_mds]

end Sys2Proof.Machine

/-! Cipher A's block engine (42 R220 to R224): `EA` and `DA` round by round, and that each undoes the other. -/

namespace Sys2Proof.Machine

/-! ### A round and its inverse -/

/-- Turning back by the same amount: every bit returns to its place (40 R144). -/
@[simp] theorem rot_rot_neg (x : Word) (n : Int) : rot (rot x n) (-n) = x := by
  by_cases hn : n % 32 = 0
  · rw [rot_of_emod_eq_zero x hn, rot_of_emod_eq_zero x (by omega)]
  · have hlt : (n % 32).toNat < 32 := by omega
    have hback : (-n % 32).toNat = 32 - (n % 32).toNat := by omega
    rw [rot_eq_rotateLeft, rot_eq_rotateLeft, hback]
    ext i hi
    simp only [BitVec.getElem_rotateLeft]
    grind

@[simp] theorem rot_neg_one_rot_one (x : Word) : rot (rot x 1) (-1) = x := rot_rot_neg x 1

@[simp] theorem rot_one_rot_neg_one (x : Word) : rot (rot x (-1)) 1 = x := rot_rot_neg x (-1)

@[simp] theorem whiten_whiten (k0 k1 k2 k3 : Word) (w : Words4) : whiten k0 k1 k2 k3 (whiten k0 k1 k2 k3 w) = w := by
  simp [whiten]

@[simp] theorem swapHalves_swapHalves (w : Words4) : swapHalves (swapHalves w) = w := rfl

/-- A mix keeps `w0` and `w1`, all that `f0` and `f1` are made of (42 R222). -/
theorem roundF_mixEncA (s : ScheduleA) (r : Fin 16) (w : Words4) : roundF s.sb (mixEncA s r w) = roundF s.sb w := rfl

theorem roundF_mixDecA (s : ScheduleA) (r : Fin 16) (w : Words4) : roundF s.sb (mixDecA s r w) = roundF s.sb w := rfl

@[simp] theorem mixDecA_mixEncA (s : ScheduleA) (r : Fin 16) (w : Words4) : mixDecA s r (mixEncA s r w) = w := by
  rw [mixDecA, roundF_mixEncA]
  simp [mixEncA]

@[simp] theorem mixEncA_mixDecA (s : ScheduleA) (r : Fin 16) (w : Words4) : mixEncA s r (mixDecA s r w) = w := by
  rw [mixEncA, roundF_mixDecA]
  simp [mixDecA]

theorem roundDecA_roundEncA (s : ScheduleA) (r : Fin 16) (w : Words4) : roundDecA s r (roundEncA s r w) = w := by
  by_cases hr : r = 15 <;> simp [roundDecA, roundEncA, hr]

theorem roundEncA_roundDecA (s : ScheduleA) (r : Fin 16) (w : Words4) : roundEncA s r (roundDecA s r w) = w := by
  by_cases hr : r = 15 <;> simp [roundDecA, roundEncA, hr]

/-! ### The block engine and its inverse -/

/-- Rounds undone one by one in reverse order (42 R223, 44 R278). -/
theorem foldl_reverse_foldl_of_leftInverse {α β : Type} {f g : β → α → α}
    (h : ∀ b, Function.LeftInverse (g b) (f b)) (l : List β) (a : α) :
    l.reverse.foldl (fun a b => g b a) (l.foldl (fun a b => f b a) a) = a := by
  induction l generalizing a with
  | nil => rfl
  | cons b l ih =>
    simp only [List.reverse_cons, List.foldl_append, List.foldl_cons, List.foldl_nil, ih]
    exact h b a

theorem decWordsA_encWordsA (s : ScheduleA) (w : Words4) : decWordsA s (encWordsA s w) = w := by
  have hrounds := foldl_reverse_foldl_of_leftInverse (roundDecA_roundEncA s) (List.finRange 16)
  simp only [decWordsA, encWordsA, whiten_whiten, hrounds]

theorem encWordsA_decWordsA (s : ScheduleA) (w : Words4) : encWordsA s (decWordsA s w) = w := by
  have hrounds := foldl_reverse_foldl_of_leftInverse (roundEncA_roundDecA s) (List.finRange 16).reverse
  rw [List.reverse_reverse] at hrounds
  simp only [decWordsA, encWordsA, whiten_whiten, hrounds]

/-- A transform of words on the bytes that pack into them (20 R75). -/
theorem onWords_of_bytesToWords (f : Words4 → Words4) {b : List Byte} {w0 w1 w2 w3 : Word}
    (h : bytesToWords b = some [w0, w1, w2, w3]) :
    onWords f b = wordsToBytes [(f ⟨w0, w1, w2, w3⟩).w0, (f ⟨w0, w1, w2, w3⟩).w1, (f ⟨w0, w1, w2, w3⟩).w2,
      (f ⟨w0, w1, w2, w3⟩).w3] := by
  rw [onWords, h]

/-- What inverts a transform of words inverts it on blocks. -/
theorem onWords_onWords_of_leftInverse {f g : Words4 → Words4} (hgf : Function.LeftInverse g f) (b : List Byte)
    (hb : b.length = 16) : onWords g (onWords f b) = b := by
  obtain ⟨w0, w1, w2, w3, h⟩ := bytesToWords_block b hb
  rw [onWords_of_bytesToWords f h, onWords_of_bytesToWords g (bytesToWords_wordsToBytes _), hgf]
  exact wordsToBytes_of_bytesToWords h

/-- Settles O29: the rounds of each direction as the sequence of its words, `foldl_finRange_trace` and its reverse, and
the inverses from those of one round. -/
theorem cipherADecryptionInvertsEncryption : Obligations.CipherADecryptionInvertsEncryption := by
  unfold Obligations.CipherADecryptionInvertsEncryption
  refine ⟨gWord_eq_mds, fun sch w => ?encRounds, fun sch w => ?decRounds, fun sch b w0 w1 w2 w3 h => ?packing,
    fun sch b hb => ?inverses⟩
  case encRounds =>
    obtain ⟨v, hstart, hround, hend⟩ := foldl_finRange_trace 16 (fun w r => roundEncA sch r w)
      (whiten sch.k[0] sch.k[1] sch.k[2] sch.k[3] w)
    refine ⟨v, hstart, fun r hr => ?_, congrArg (whiten sch.k[4] sch.k[5] sch.k[6] sch.k[7]) hend⟩
    have hlast : (⟨r, hr⟩ : Fin 16) = 15 ↔ r = 15 := Fin.ext_iff
    have hstep := hround ⟨r, hr⟩
    simp only [roundEncA, hlast] at hstep
    exact hstep
  case decRounds =>
    obtain ⟨v, hstart, hround, hend⟩ := foldl_finRange_reverse_trace 16 (fun w r => roundDecA sch r w)
      (whiten sch.k[4] sch.k[5] sch.k[6] sch.k[7] w)
    refine ⟨v, hstart, fun r hr => ?_, congrArg (whiten sch.k[0] sch.k[1] sch.k[2] sch.k[3]) hend⟩
    have hlast : (⟨r, hr⟩ : Fin 16) = 15 ↔ r = 15 := Fin.ext_iff
    have hstep := hround ⟨r, hr⟩
    rcases eq_or_ne r 15 with rfl | h15
    · exact hstep
    · simp only [roundDecA, hlast, h15, if_false] at hstep ⊢
      exact hstep
  case packing =>
    exact ⟨onWords_of_bytesToWords (encWordsA sch) h, onWords_of_bytesToWords (decWordsA sch) h⟩
  case inverses =>
    exact ⟨onWords_onWords_of_leftInverse (decWordsA_encWordsA sch) b hb,
      onWords_onWords_of_leftInverse (encWordsA_decWordsA sch) b hb⟩

end Sys2Proof.Machine

/-! Cipher B's key schedule (43 R252 to R256): the two halves of the bootstrap iteration by iteration, the command that
binds the table they end in, and the table that an all-zero `STABLE` leaves. -/

namespace Sys2Proof.Machine

open Claims

/-! ### Little-endian pairs of a byte sequence (40 R148) -/

/-- Little-endian packing is concatenation, the second byte on top. -/
theorem leHalf_eq_append (b0 b1 : Byte) : leHalf b0 b1 = b1 ++ b0 := by
  apply BitVec.eq_of_getLsbD_eq
  intro i hi
  simp only [leHalf, BitVec.getLsbD_or, BitVec.getLsbD_shiftLeft, BitVec.getLsbD_setWidth, BitVec.getLsbD_append]
  by_cases h : i < 8
  · simp [h, hi]
  · simp [h, hi, show i - 8 < 16 by omega, BitVec.getLsbD_of_ge b0 i (by omega)]

theorem halvesToPairs_cons (h : Half) (hs : List Half) :
    halvesToPairs (h :: hs) = halfBytes h ++ halvesToPairs hs := rfl

theorem halvesToPairs_append (hs hs' : List Half) :
    halvesToPairs (hs ++ hs') = halvesToPairs hs ++ halvesToPairs hs' := List.flatMap_append

@[simp] theorem pairsToHalves_halvesToPairs (hs : List Half) : pairsToHalves (halvesToPairs hs) = some hs := by
  induction hs with
  | nil => rfl
  | cons h hs ih => simp [halvesToPairs_cons, halfBytes, pairsToHalves, ih]

theorem halvesToPairs_of_pairsToHalves {b : List Byte} {hs : List Half} (h : pairsToHalves b = some hs) :
    halvesToPairs hs = b := by
  induction b using pairsToHalves.induct generalizing hs with
  | case1 => cases h; rfl
  | case2 b0 b1 rest ih =>
    obtain ⟨hs', hrest, rfl⟩ := Option.map_eq_some_iff.mp h
    rw [halvesToPairs_cons, halfBytes_leHalf, ih hrest]
    rfl
  | case3 b h0 h2 => simp [pairsToHalves] at h

/-- Byte pair `i` of a sequence as a little-endian half. -/
def lePair (b : List Byte) (i : Nat) : Half := b.getD (2 * i + 1) 0 ++ b.getD (2 * i) 0

theorem lePair_halvesToPairs (hs : List Half) (i : Nat) (hi : i < hs.length) :
    lePair (halvesToPairs hs) i = hs[i] := by
  induction hs generalizing i with
  | nil => cases hi
  | cons h hs ih =>
    cases i with
    | zero => exact (leHalf_eq_append _ _).symm.trans (leHalf_halfBytes h)
    | succ i => exact ih i (Nat.lt_of_succ_lt_succ hi)

theorem lePair_toList (r : Regs) (i : Nat) (hi : i < 4) : lePair (halvesToPairs r.toList) i = r[i] :=
  lePair_halvesToPairs r.toList i (by simpa using hi)

/-- On the pairs of four registers, a block transform is the transform of the registers. -/
theorem onRegs_halvesToPairs (f : Regs → Regs) (r : Regs) :
    onRegs f (halvesToPairs r.toList) = halvesToPairs (f r).toList := by
  have hr : r = #v[r[0], r[1], r[2], r[3]] := by ext i hi; interval_cases i <;> rfl
  rw [onRegs, pairsToHalves_halvesToPairs, hr]
  rfl

/-! ### The iterations of a half (43 R252, R253) -/

/-- What iteration `j` leaves in each word of the table: the three words from `3j` on take in the encrypted half. -/
theorem bootstrapStep_ek_getElem (sb : SBoxes) (st : BuilderB) (j : Fin 32) (m : Nat) (hm : m < 96) :
    (bootstrapStep sb st j).ek[m] =
      if m / 3 = j.val then st.ek[m] ^^^ (encRegsB sb st.ek st.blk)[m % 3] else st.ek[m] := by
  simp only [bootstrapStep, Vector.getElem_set]
  by_cases hj : m / 3 = j.val
  · obtain h | h | h : m = 3 * j.val ∨ m = 3 * j.val + 1 ∨ m = 3 * j.val + 2 := by omega
    · simp [h]
    · simp [h, show (3 * j.val + 1) / 3 = j.val by omega, show (3 * j.val + 1) % 3 = 1 by omega]
    · simp [h, show (3 * j.val + 2) / 3 = j.val by omega, show (3 * j.val + 2) % 3 = 2 by omega]
  · simp [hj, show 3 * j.val ≠ m by omega, show 3 * j.val + 1 ≠ m by omega, show 3 * j.val + 2 ≠ m by omega]

/-- The blocks `blk j` and the tables `ek j` before each iteration `j` of a half: the block is encrypted under the
table, and the table takes in the first three pairs of the result. -/
def IsBootstrapRun (sb : SBoxes) (blk : Nat → List Byte) (ek : Nat → TableB) : Prop :=
  ∀ j : Nat, j < 32 → blk (j + 1) = encB sb (ek j) (blk j) ∧
    ∀ (m : Nat) (hm : m < 96), (ek (j + 1))[m] =
      if m / 3 = j then (ek j)[m] ^^^ lePair (blk (j + 1)) (m % 3) else (ek j)[m]

/-- The 32 iterations of a half, as the sequence of the builder's states. -/
theorem bootstrapHalf_trace (sb : SBoxes) (ek : TableB) (half : Regs) :
    ∃ v : Nat → BuilderB, v 0 = ⟨half, ek⟩ ∧ (∀ j (hj : j < 32), v (j + 1) = bootstrapStep sb (v j) ⟨j, hj⟩) ∧
      bootstrapHalf sb ek half = (v 32).ek := by
  obtain ⟨v, hstart, hstep, hend⟩ := foldl_finRange_trace 32 (bootstrapStep sb) ⟨half, ek⟩
  exact ⟨v, hstart, fun j hj => hstep ⟨j, hj⟩, by rw [bootstrapHalf, hend]⟩

/-- The 32 iterations of a half, as the sequence of its blocks and tables. -/
theorem bootstrapHalf_run (sb : SBoxes) (ek₀ : TableB) (half : Regs) :
    ∃ (blk : Nat → List Byte) (ek : Nat → TableB), blk 0 = halvesToPairs half.toList ∧ ek 0 = ek₀ ∧
      IsBootstrapRun sb blk ek ∧ bootstrapHalf sb ek₀ half = ek 32 := by
  obtain ⟨v, hstart, hstep, hend⟩ := bootstrapHalf_trace sb ek₀ half
  refine ⟨fun j => halvesToPairs (v j).blk.toList, fun j => (v j).ek, by simp only [hstart], by simp only [hstart],
    fun j hj => ?_, hend⟩
  have hblk : (v (j + 1)).blk = encRegsB sb (v j).ek (v j).blk := by rw [hstep j hj, bootstrapStep]
  refine ⟨by simp only [hblk, encB, onRegs_halvesToPairs], fun m hm => ?_⟩
  simp only [lePair_toList _ _ (show m % 3 < 4 by omega), hblk]
  simp only [hstep j hj, bootstrapStep_ek_getElem]

/-- The key as the registers of its two halves, and the derivation as the halves of the bootstrap in turn. -/
theorem deriveB_eq_bootstrapHalf (key : List Byte) (hl : key.length = 16) :
    ∃ k0 k1 : Regs, key = halvesToPairs (k0.toList ++ k1.toList) ∧
      ∀ sb, deriveB sb key = some (bootstrapHalf sb (bootstrapHalf sb (Vector.replicate 96 0) k0) k1) := by
  obtain ⟨hs, hh, hn⟩ := pairsToHalves_of_length 8 key hl
  match hs, hn with
  | [a0, a1, a2, a3, b0, b1, b2, b3], _ =>
    exact ⟨#v[a0, a1, a2, a3], #v[b0, b1, b2, b3], (halvesToPairs_of_pairsToHalves hh).symm,
      fun sb => by rw [deriveB, hh]⟩

/-- `SETKEY` in family B binds the derived table, with `KEYLEN` 16 (45 R302). -/
theorem setkey_succeeds_of_deriveB {s : State} {key : List Byte} {ek : TableB} (hf : s.family = .b)
    (hl : key.length = 16) (hd : deriveB s.mcgSbox key = some ek) :
    Succeeds (.setkey key) s { s with ek := ek, keyValid := true, keyLen := 16 } [] := by
  have hb : s.bindKey key = some (s.bindB ek 16) := by simp [State.bindKey, hf, hd, hl]
  have hmem : key.length ∈ keyLengths s.family := by simp [hf, hl, keyLengths]
  simp only [Succeeds, exec, execSetkey, hb, hmem, if_true]
  rfl

/-! ### An all-zero `STABLE` (43 R256, 44 R280) -/

section
variable {sb : SBoxes} (hz : StableZero sb)
include hz

theorem fB_of_stableZero (a b c : Half) : fB sb a b c = 0 := by
  simp [fB, hz _]

theorem subRound_of_stableZero (ek : TableB) (s : Fin 32) (r : Regs) : subRound sb ek s r = r := by
  simp [subRound, subRoundF, fB_of_stableZero hz, Vector.get]

theorem encRegsB_of_stableZero (ek : TableB) (r : Regs) : encRegsB sb ek r = r := by
  simp [encRegsB, subRound_of_stableZero hz]

/-- No iteration changes the half, so each word of the table takes in its register once. -/
theorem bootstrapHalf_getElem_of_stableZero (ek : TableB) (half : Regs) (m : Nat) (hm : m < 96) :
    (bootstrapHalf sb ek half)[m] = ek[m] ^^^ half[m % 3] := by
  obtain ⟨v, hstart, hstep, hend⟩ := bootstrapHalf_trace sb ek half
  have before : ∀ j ≤ 32, (v j).blk = half ∧
      (v j).ek[m] = if m / 3 < j then ek[m] ^^^ half[m % 3] else ek[m] := by
    intro j hj
    induction j with
    | zero => simp [hstart]
    | succ j ih =>
      obtain ⟨hblk, hek⟩ := ih (by omega)
      refine ⟨?_, ?_⟩
      · rw [hstep j hj, bootstrapStep, encRegsB_of_stableZero hz, hblk]
      · simp only [hstep j hj, bootstrapStep_ek_getElem, encRegsB_of_stableZero hz, hblk, hek]
        rcases Nat.lt_trichotomy (m / 3) j with h | h | h
        · simp [h, h.ne, show m / 3 < j + 1 by omega]
        · simp [h]
        · simp [h.ne', show ¬ m / 3 < j by omega, show ¬ m / 3 < j + 1 by omega]
  have hlast := (before 32 le_rfl).2
  rw [if_pos (by omega)] at hlast
  simp only [hend, hlast]

/-- Every word of the derived table is the exclusive-or of the two key halves' pairs in its place. -/
theorem deriveB_of_stableZero (key : List Byte) (hl : key.length = 16) : ∃ ek, deriveB sb key = some ek ∧
    ∀ (m : Nat) (hm : m < 96), ek[m] = lePair key (m % 3) ^^^ lePair key (4 + m % 3) := by
  obtain ⟨k0, k1, hkey, hd⟩ := deriveB_eq_bootstrapHalf key hl
  refine ⟨_, hd sb, fun m hm => ?_⟩
  have h3 : m % 3 < 3 := Nat.mod_lt m (by omega)
  have h0 : lePair key (m % 3) = k0[m % 3] := by
    rw [hkey, lePair_halvesToPairs _ _ (by simp; omega), List.getElem_append_left (by simp; omega)]
    rfl
  have h1 : lePair key (4 + m % 3) = k1[m % 3] := by
    rw [hkey, lePair_halvesToPairs _ _ (by simp; omega), List.getElem_append_right (by simp)]
    simp
  simp [bootstrapHalf_getElem_of_stableZero hz, h0, h1]

end

/-- Settles O34: the iterations of each half by `bootstrapHalf_run`, the binding by `setkey_succeeds_of_deriveB`, and
the folded key by `deriveB_of_stableZero`. -/
theorem zeroStableScheduleFoldsTheKeyHalves : Obligations.ZeroStableScheduleFoldsTheKeyHalves := by
  unfold Obligations.ZeroStableScheduleFoldsTheKeyHalves
  refine ⟨fun sb key hl => ?iterations, fun s key hf hl => ?binding, fun sb hz => ⟨fun key hl => ?folded, ?example0808⟩⟩
  case iterations =>
    obtain ⟨k0, k1, hkey, hd⟩ := deriveB_eq_bootstrapHalf key hl
    obtain ⟨blk0, ek0, hblk0, hstart, hrun0, hend0⟩ := bootstrapHalf_run sb (Vector.replicate 96 0) k0
    obtain ⟨blk1, ek1, hblk1, hcarry, hrun1, hend1⟩ := bootstrapHalf_run sb (ek0 32) k1
    rw [halvesToPairs_append, ← hblk0, ← hblk1] at hkey
    have hlen : (blk0 0).length = 8 := by simp [hblk0]
    refine ⟨fun h => if h = 0 then blk0 else blk1, fun h => if h = 0 then ek0 else ek1, ?_, ?_, hstart, hcarry,
      fun h j hh hj => ?_, ?_⟩
    · rw [hkey, List.take_left' hlen]; rfl
    · rw [hkey, List.drop_left' hlen]; rfl
    · obtain rfl | rfl : h = 0 ∨ h = 1 := by omega
      exacts [hrun0 j hj, hrun1 j hj]
    · rw [hd, hend0, hend1]; rfl
  case binding =>
    obtain ⟨ek, hd⟩ := deriveB_of_length s.mcgSbox key hl
    exact ⟨ek, hd, setkey_succeeds_of_deriveB hf hl hd⟩
  case folded =>
    obtain ⟨ek, hd, hword⟩ := deriveB_of_stableZero hz key hl
    refine ⟨ek, hd, fun j m hj hm => ?_⟩
    rw [hword, show (3 * j + m) % 3 = m by omega, lePair, lePair, Nat.mul_add]
  case example0808 =>
    obtain ⟨ek, hd, hword⟩ := deriveB_of_stableZero hz [0, 1, 2, 3, 4, 5, 6, 7, 8, 9, 10, 11, 12, 13, 14, 15] rfl
    have h0808 : ∀ i < 3, lePair [0, 1, 2, 3, 4, 5, 6, 7, 8, 9, 10, 11, 12, 13, 14, 15] i ^^^
        lePair [0, 1, 2, 3, 4, 5, 6, 7, 8, 9, 10, 11, 12, 13, 14, 15] (4 + i) = 0x0808 := by decide
    rw [hd]
    refine congrArg some (Vector.ext fun m hm => ?_)
    rw [hword m hm, h0808 _ (Nat.mod_lt m (by omega)), Vector.getElem_replicate]

end Sys2Proof.Machine

/-! Cipher B's block engine (44 R271 to R280): the masks, `F` as the S-box entries that bits of its inputs select, the
sub-rounds and that `EB` and `DB` undo each other, and the engine with an all-zero `STABLE`. -/

namespace Sys2Proof.Machine

open Claims

/-! ### The masks (44 R273) -/

/-- Settles O30: both tables are constants, compared entry by entry. -/
theorem masksAgreeWithTheSBoxInputs : Obligations.MasksAgreeWithTheSBoxInputs := by
  unfold Obligations.MasksAgreeWithTheSBoxInputs
  exact ⟨by decide, by decide, by decide, by decide, by decide⟩

/-- The slice that S-box `s` belongs to (44 R273). -/
def sliceOf (s : Fin 8) : Fin 4 := #v[0, 0, 1, 1, 2, 3, 2, 3].get s

/-- The output masks are disjoint: the bits of S-box `s` pass in its own slice alone. -/
theorem omask_getLsbD (t : Fin 4) (s : Fin 8) (k : Fin 2) :
    (omask.get t).getLsbD (2 * s.val + k.val) = decide (t = sliceOf s) := by
  revert t s k; decide

/-- Of the three masks of its slice, the one of the register that input bit `p` of S-box `s` comes from lets it pass. -/
theorem lmask_getLsbD (s : Fin 8) (r : Fin 3) (p : Fin 6) :
    ((lmask.get (sliceOf s)).get r).getLsbD ((sbits.get s).get p) = decide (p.val / 2 = r.val) := by
  revert s r p; decide

/-! ### `F` as S-box entries (44 R274, R275) -/

theorem getLsbD_foldl_or {ι : Type} {w : Nat} (f : ι → BitVec w) (l : List ι) (v : BitVec w) (i : Nat) :
    (l.foldl (fun v x => v ||| f x) v).getLsbD i = (v.getLsbD i || l.any fun x => (f x).getLsbD i) := by
  induction l generalizing v with
  | nil => simp
  | cons x l ih => simp [ih, Bool.or_assoc]

/-- Where one term alone of an OR can have bit `i`, the OR has that term's bit. -/
theorem getLsbD_foldl_or_finRange {n w : Nat} (f : Fin n → BitVec w) (j : Fin n) (i : Nat)
    (hne : ∀ x, x ≠ j → (f x).getLsbD i = false) :
    ((List.finRange n).foldl (fun v x => v ||| f x) 0).getLsbD i = (f j).getLsbD i := by
  rw [getLsbD_foldl_or, Bool.eq_iff_iff]
  simp only [BitVec.ofNat_eq_ofNat, BitVec.getLsbD_zero, Bool.false_or, List.any_eq_true, List.mem_finRange, true_and]
  refine ⟨fun ⟨x, hx⟩ => ?_, fun hj => ⟨j, hj⟩⟩
  by_cases h : x = j
  · rwa [← h]
  · rw [hne x h] at hx
    cases hx

theorem sboxInput_getLsbD (s : Fin 8) (i : Half) (p : Fin 6) :
    (sboxInput s i).getLsbD p.val = i.getLsbD ((sbits.get s).get p) := by
  rw [sboxInput, getLsbD_foldl_or_finRange _ p]
  · simp
  · intro q hq
    have hqp : q.val ≠ p.val := Fin.val_ne_of_ne hq
    simp only [BitVec.getLsbD_shiftLeft, BitVec.getLsbD_setWidth, BitVec.getLsbD_ofBool, Bool.and_eq_false_iff,
      decide_eq_false_iff_not, Bool.not_eq_false', decide_eq_true_eq]
    omega

/-- A two-bit entry put at bits `2q+1 : 2q` has no bit in the place of another S-box. -/
theorem entry_shiftLeft_getLsbD (x : BitVec 2) (q s : Fin 8) (k : Fin 2) :
    (x.setWidth 16 <<< (2 * q.val)).getLsbD (2 * s.val + k.val) = (decide (q = s) && x.getLsbD k.val) := by
  have hs := s.isLt
  have hk := k.isLt
  rw [BitVec.getLsbD_shiftLeft, BitVec.getLsbD_setWidth]
  rcases lt_trichotomy q s with h | rfl | h
  · have : q.val < s.val := h
    simp [h.ne, BitVec.getLsbD_of_ge x (2 * s.val + k.val - 2 * q.val) (by omega)]
  · simp [show 2 * q.val + k.val < 16 by omega, show k.val < 16 by omega]
  · have : s.val < q.val := h
    simp [h.ne', show 2 * s.val + k.val < 2 * q.val by omega]

/-- Bits `2s+1 : 2s` of a `STABLE` entry are the entry of S-box `s`. -/
theorem stable_getLsbD (sb : SBoxes) (i : Half) (s : Fin 8) (k : Fin 2) :
    (stable sb i).getLsbD (2 * s.val + k.val) = ((sb.get s).get (sboxInput s i).toFin).getLsbD k.val := by
  rw [stable, getLsbD_foldl_or_finRange _ s]
  · rw [entry_shiftLeft_getLsbD, decide_eq_true rfl, Bool.true_and]
  · intro q hq
    rw [entry_shiftLeft_getLsbD, decide_eq_false hq, Bool.false_and]

/-- The output bits of S-box `s` come from its slice's lookup alone (44 R276). -/
theorem fB_extractLsb' (sb : SBoxes) (a b c : Half) (s : Fin 8) :
    (fB sb a b c).extractLsb' (2 * s.val) 2 =
      (sb.get s).get (sboxInput s (sliceIndex (sliceOf s) a b c)).toFin := by
  apply BitVec.eq_of_getLsbD_eq
  intro k hk
  have hother : ∀ t, t ≠ sliceOf s →
      (omask.get t &&& stable sb (sliceIndex t a b c)).getLsbD (2 * s.val + k) = false := fun t ht => by
    rw [BitVec.getLsbD_and, omask_getLsbD t s ⟨k, hk⟩, decide_eq_false ht, Bool.false_and]
  rw [BitVec.getLsbD_extractLsb', fB, getLsbD_foldl_or_finRange _ (sliceOf s) _ hother, BitVec.getLsbD_and,
    omask_getLsbD _ s ⟨k, hk⟩, stable_getLsbD sb _ s ⟨k, hk⟩]
  simp [hk]

theorem sliceIndex_eq (t : Fin 4) (a b c : Half) :
    sliceIndex t a b c = a &&& (lmask.get t).get 0 ||| b &&& (lmask.get t).get 1 ||| c &&& (lmask.get t).get 2 := rfl

/-- The input bits of an S-box come from `a`, `b` and `c`, two of each. -/
theorem sboxInput_sliceIndex_getLsbD (s : Fin 8) (a b c : Half) (p : Fin 6) :
    (sboxInput s (sliceIndex (sliceOf s) a b c)).getLsbD p.val =
      (if p.val < 2 then a else if p.val < 4 then b else c).getLsbD ((sbits.get s).get p) := by
  have hp := p.isLt
  rw [sboxInput_getLsbD, sliceIndex_eq]
  simp only [BitVec.getLsbD_or, BitVec.getLsbD_and, lmask_getLsbD]
  obtain h | h | h : p.val / 2 = 0 ∨ p.val / 2 = 1 ∨ p.val / 2 = 2 := by omega
  · simp [h, show p.val < 2 by omega]
  · simp [h, show ¬ p.val < 2 by omega, show p.val < 4 by omega]
  · simp [h, show ¬ p.val < 2 by omega, show ¬ p.val < 4 by omega]

/-- Settles O31: the slices are the four terms of the fold, and the entry is that of `fB_extractLsb'`, whose S-box input
has the bits that `v` has. -/
theorem fOutputBitsComeFromTheSBoxes : Obligations.FOutputBitsComeFromTheSBoxes := by
  unfold Obligations.FOutputBitsComeFromTheSBoxes
  refine ⟨fun sb a b c => ?slices, fun sb a b c s v hv => ?entry⟩
  case slices =>
    simp [fB, List.finRange_succ, sliceIndex_eq]
  case entry =>
    have hinput : sboxInput s (sliceIndex (sliceOf s) a b c) = v :=
      BitVec.eq_of_getLsbD_eq fun p hp =>
        (sboxInput_sliceIndex_getLsbD s a b c ⟨p, hp⟩).trans (hv ⟨p, hp⟩).symm
    rw [fB_extractLsb', hinput]

/-! ### A sub-round (44 R277, R279) -/

theorem Regs.get_set (r : Regs) (d i : Fin 4) (v : Half) :
    (r.set d.val v).get i = if i = d then v else r.get i := by
  simp only [Vector.get_eq_getElem, Vector.getElem_set, Fin.ext_iff, eq_comm]

/-- A sub-round changes the register it updates and no other. -/
theorem subRound_get (sb : SBoxes) (ek : TableB) (s : Fin 32) (r : Regs) (i : Fin 4) :
    (subRound sb ek s r).get i =
      if i = updatedReg s then r.get i ^^^ subRoundF sb ek s r else r.get i := by
  rw [subRound, Regs.get_set]
  split
  next h => rw [h]
  next => rfl

/-- `F`'s inputs do not include the updated register. -/
theorem subRoundF_set_updatedReg (sb : SBoxes) (ek : TableB) (s : Fin 32) (r : Regs) (v : Half) :
    subRoundF sb ek s (r.set (updatedReg s).val v) = subRoundF sb ek s r := by
  have hne : ∀ d : Fin 4, d + 1 ≠ d ∧ d + 2 ≠ d ∧ d + 3 ≠ d := by decide
  obtain ⟨h1, h2, h3⟩ := hne (updatedReg s)
  simp only [subRoundF, Regs.get_set, h1, h2, h3, if_false]

theorem subRound_subRound (sb : SBoxes) (ek : TableB) (s : Fin 32) (r : Regs) :
    subRound sb ek s (subRound sb ek s r) = r := by
  have hF : subRoundF sb ek s (subRound sb ek s r) = subRoundF sb ek s r := subRoundF_set_updatedReg sb ek s r _
  refine Vector.ext fun i hi => ?_
  change (subRound sb ek s (subRound sb ek s r)).get ⟨i, hi⟩ = r.get ⟨i, hi⟩
  rw [subRound_get, subRound_get, hF]
  split
  · rw [BitVec.xor_assoc, BitVec.xor_self, BitVec.xor_zero]
  · rfl

/-! ### The block engine and its inverse (44 R277, R278, R279) -/

theorem decRegsB_encRegsB (sb : SBoxes) (ek : TableB) (r : Regs) : decRegsB sb ek (encRegsB sb ek r) = r :=
  foldl_reverse_foldl_of_leftInverse (subRound_subRound sb ek) (List.finRange 32) r

theorem encRegsB_decRegsB (sb : SBoxes) (ek : TableB) (r : Regs) : encRegsB sb ek (decRegsB sb ek r) = r := by
  have h := foldl_reverse_foldl_of_leftInverse (subRound_subRound sb ek) (List.finRange 32).reverse r
  rwa [List.reverse_reverse] at h

/-- Every block is the pairs of four registers (44 R270). -/
theorem exists_regs_of_length {b : List Byte} (hb : b.length = 8) : ∃ r : Regs, b = halvesToPairs r.toList := by
  obtain ⟨r0, r1, r2, r3, h⟩ := pairsToHalves_block b hb
  exact ⟨#v[r0, r1, r2, r3], (halvesToPairs_of_pairsToHalves h).symm⟩

/-- What inverts a transform of the registers inverts it on blocks. -/
theorem onRegs_onRegs_of_leftInverse {f g : Regs → Regs} (hgf : Function.LeftInverse g f) (b : List Byte)
    (hb : b.length = 8) : onRegs g (onRegs f b) = b := by
  obtain ⟨r, rfl⟩ := exists_regs_of_length hb
  rw [onRegs_halvesToPairs, onRegs_halvesToPairs, hgf]

/-- A transform of the registers on the eight bytes of a block, packed and unpacked (44 R270). -/
theorem onRegs_bytes (f : Regs → Regs) (b0 b1 b2 b3 b4 b5 b6 b7 : Byte) :
    onRegs f [b0, b1, b2, b3, b4, b5, b6, b7] =
      halvesToPairs (f #v[b1 ++ b0, b3 ++ b2, b5 ++ b4, b7 ++ b6]).toList := by
  simp only [← leHalf_eq_append]
  rfl

theorem halvesToPairs_toList (r : Regs) :
    halvesToPairs r.toList = [r[0].extractLsb' 0 8, r[0].extractLsb' 8 8, r[1].extractLsb' 0 8, r[1].extractLsb' 8 8,
      r[2].extractLsb' 0 8, r[2].extractLsb' 8 8, r[3].extractLsb' 0 8, r[3].extractLsb' 8 8] := by
  have hr : r = #v[r[0], r[1], r[2], r[3]] := by ext i hi; interval_cases i <;> rfl
  rw [hr]
  rfl

/-- Settles O32: what one sub-round does to each register, the sub-rounds of each direction as the sequence of their
registers, and the inverses from `subRound_subRound`. -/
theorem cipherBDecryptionInvertsEncryption : Obligations.CipherBDecryptionInvertsEncryption := by
  unfold Obligations.CipherBDecryptionInvertsEncryption
  refine ⟨fun _ => rfl, fun sb ek j r => ⟨?updated, fun i hi => ?kept, subRoundF_set_updatedReg sb ek j r,
      subRound_subRound sb ek j r⟩,
    fun sb ek r => foldl_finRange_trace 32 (fun r s => subRound sb ek s r) r,
    fun sb ek r => foldl_finRange_reverse_trace 32 (fun r s => subRound sb ek s r) r,
    fun sb ek b0 b1 b2 b3 b4 b5 b6 b7 => ?packing, fun sb ek b hb => ?inverses⟩
  case updated => exact (subRound_get sb ek j r _).trans (if_pos rfl)
  case kept => exact (subRound_get sb ek j r i).trans (if_neg hi)
  case packing =>
    exact ⟨(onRegs_bytes _ b0 b1 b2 b3 b4 b5 b6 b7).trans (halvesToPairs_toList _),
      (onRegs_bytes _ b0 b1 b2 b3 b4 b5 b6 b7).trans (halvesToPairs_toList _)⟩
  case inverses =>
    exact ⟨onRegs_onRegs_of_leftInverse (decRegsB_encRegsB sb ek) b hb,
      onRegs_onRegs_of_leftInverse (encRegsB_decRegsB sb ek) b hb⟩

/-! ### The block engine with an all-zero `STABLE` (44 R280) -/

theorem decRegsB_of_stableZero {sb : SBoxes} (hz : StableZero sb) (ek : TableB) (r : Regs) :
    decRegsB sb ek r = r := by
  simpa only [encRegsB_of_stableZero hz] using encRegsB_decRegsB sb ek r

/-- A transform that leaves the registers leaves every block. -/
theorem onRegs_eq_self {f : Regs → Regs} (hf : ∀ r, f r = r) {b : List Byte} (hb : b.length = 8) : onRegs f b = b := by
  obtain ⟨r, rfl⟩ := exists_regs_of_length hb
  rw [onRegs_halvesToPairs, hf]

/-- Settles O33: `F` is 0, so no sub-round changes a register, in either order. -/
theorem zeroStableMakesCipherBTheIdentity : Obligations.ZeroStableMakesCipherBTheIdentity := by
  unfold Obligations.ZeroStableMakesCipherBTheIdentity
  exact fun sb hz => ⟨fB_of_stableZero hz, fun ek b hb =>
    ⟨onRegs_eq_self (encRegsB_of_stableZero hz ek) hb, onRegs_eq_self (decRegsB_of_stableZero hz ek) hb⟩⟩

end Sys2Proof.Machine

/-! The configuration commands of the session (45 R301 to R306): for each command, what it does with a selector or a
length it takes and with any other, and the transaction it stands for. -/

namespace Sys2Proof.Machine

open Claims

/-- Data shorter than 2^32 bytes can be counted by `LEN` (30 R102). -/
theorem fitsLen_of_length_lt {din : List Byte} (h : din.length < 2 ^ 32) : fitsLen din = true :=
  decide_eq_true (Nat.le_pred_of_lt h)

/-- Two answers of one command are one state. -/
theorem next_unique {i : Instr} {s t t' : State} (h : exec i s = .next t) (h' : exec i s = .next t') : t = t' :=
  Host.Outcome.next.inj (h.symm.trans h')

/-! ### `STATUS` and `BSIZE` -/

/-- The flags as a number: `KEY_VALID` has weight 1, `IV_VALID` weight 2 (10 R34). -/
theorem readReg_status (s : State) : s.readReg .status = BitVec.ofNat 8 (s.keyValid.toNat + 2 * s.ivValid.toNat) := by
  unfold State.readReg State.statusByte
  cases s.keyValid <;> cases s.ivValid <;> rfl

theorem readReg_bsize (s : State) : s.readReg .bsize = if s.family = .a then 16 else 8 := by
  unfold State.readReg State.bs
  cases s.family <;> rfl

/-! ### `SELFAM` -/

theorem selfam_succeeds (s : State) (f : Family) : Succeeds (.selfam (familyCode f)) s
    { s with family := f, keyValid := false, keyLen := 0, ivValid := false } [] := by
  have hsel := (familyOfSel_eq_some (familyCode f) f).mpr rfl
  simp only [Succeeds, exec, execSelfam, hsel]
  rfl

theorem selfam_fails (s : State) {sel : Byte} (h : 2 ≤ sel.toNat) : Fails (.selfam sel) s .unsupportedFamily := by
  simp only [Fails, exec, execSelfam, (familyOfSel_eq_none sel).mpr h]
  rfl

/-- Settles O12: SEL 0 and 1 are the codes of the two families, `selfam_succeeds`. -/
theorem selfamSelectsTheFamilyAndClearsKeyAndIv : Obligations.SelfamSelectsTheFamilyAndClearsKeyAndIv := by
  unfold Obligations.SelfamSelectsTheFamilyAndClearsKeyAndIv
  refine ⟨fun sel => decode_encode (.selfam sel) rfl, fun s => selfam_succeeds s .a, fun s => selfam_succeeds s .b,
    fun s _ => selfam_fails s, fun s t h => ?_⟩
  obtain rfl := next_unique (selfam_succeeds s .b) h
  exact ⟨readReg_bsize _, readReg_status _⟩

/-! ### `SETKEY` -/

/-- `SETKEY` in family A binds the derived schedule, with `KEYLEN` the length of the key (45 R302). -/
theorem setkey_succeeds_of_deriveA {s : State} {key : List Byte} {sch : ScheduleA} (hf : s.family = .a)
    (hl : key.length = 16 ∨ key.length = 24 ∨ key.length = 32) (hd : deriveA key = some sch) :
    Succeeds (.setkey key) s
      { s with k := sch.k, sb := sch.sb, keyValid := true, keyLen := BitVec.ofNat 8 key.length } [] := by
  have hb : s.bindKey key = some (s.bindA sch (BitVec.ofNat 8 key.length)) := by simp [State.bindKey, hf, hd]
  have hmem : key.length ∈ keyLengths s.family := by simpa [hf, keyLengths] using hl
  simp only [Succeeds, exec, execSetkey, hb, hmem, if_true]
  rfl

/-- A key of a length the family does not allow leaves everything but `ERR` (45 R302, 60 R401). -/
theorem setkey_fails {s : State} {key : List Byte} (h : key.length ∉ keyLengths s.family) :
    Fails (.setkey key) s .invalidKeyLength := by
  simp only [Fails, exec, execSetkey, h, if_false]
  rfl

theorem encode_setkey (key : List Byte) :
    encode (.setkey key) = ⟨commandWord .setkey 0, some (BitVec.ofNat 32 key.length), key⟩ := rfl

theorem decode_setkey {key : List Byte} (h : key.length < 2 ^ 32) :
    decode ⟨0x00000002, some (BitVec.ofNat 32 key.length), key⟩ = .ok (.setkey key) := by
  have hdecode := decode_encode (.setkey key) (fitsLen_of_length_lt h)
  rw [encode_setkey] at hdecode
  exact hdecode

/-- Settles O13: the derivation takes every key of an allowed length, `deriveA_of_length` and `deriveB_of_length`. -/
theorem setkeyBindsAKeyOfAnAllowedLength : Obligations.SetkeyBindsAKeyOfAnAllowedLength := by
  unfold Obligations.SetkeyBindsAKeyOfAnAllowedLength
  refine ⟨fun key => decode_setkey, fun s key hf hl => ?boundA,
    fun s key hf hl => ?boundB, fun s key hf hl => setkey_fails ?lengthA, fun s key hf hl => setkey_fails ?lengthB⟩
  case boundA =>
    obtain ⟨sch, hd⟩ := deriveA_of_length key hl
    exact ⟨sch, hd, setkey_succeeds_of_deriveA hf hl hd⟩
  case boundB =>
    obtain ⟨ek, hd⟩ := deriveB_of_length s.mcgSbox key hl
    exact ⟨ek, hd, setkey_succeeds_of_deriveB hf hl hd⟩
  case lengthA => simpa [hf, keyLengths] using hl
  case lengthB => simpa [hf, keyLengths] using hl

/-! ### `SETMODE` -/

theorem setmode_succeeds (s : State) (m : Mode) : Succeeds (.setmode (modeCode m)) s { s with mode := m } [] := by
  have hsel := (modeOfSel_eq_some (modeCode m) m).mpr rfl
  simp only [Succeeds, exec, execSetmode, hsel]
  rfl

theorem setmode_fails (s : State) {sel : Byte} (h : 6 ≤ sel.toNat) : Fails (.setmode sel) s .unsupportedMode := by
  simp only [Fails, exec, execSetmode, (modeOfSel_eq_none sel).mpr h]
  rfl

/-- Settles O14: SEL 0 to 5 are the codes of the six modes, `setmode_succeeds`. -/
theorem setmodeSelectsTheMode : Obligations.SetmodeSelectsTheMode := by
  unfold Obligations.SetmodeSelectsTheMode
  refine ⟨fun sel => decode_encode (.setmode sel) rfl, fun s => ?_, fun s _ => setmode_fails s, fun s t h => ?_⟩
  · have h := setmode_succeeds s
    exact ⟨h .ecb, h .cbc, h .pcbc, h .cfb, h .ofb, h .ctr⟩
  · obtain rfl := next_unique (setmode_succeeds s .ctr) h
    rfl

/-! ### `SETIV` -/

theorem setiv_nil_succeeds (s : State) : Succeeds (.setiv []) s { s with ivValid := false } [] := rfl

/-- `BS` bytes are written over `CHAIN[0..BS)` (45 R305). -/
theorem setiv_succeeds {s : State} {iv : List Byte} (h : iv.length = s.bs) :
    Succeeds (.setiv iv) s { s with chain := writeChain s.chain iv, ivValid := true } [] := by
  have hpos : iv.length ≠ 0 := h ▸ s.bs_pos.ne'
  simp only [Succeeds, exec, execSetiv, if_neg hpos, if_pos h]
  rfl

theorem setiv_fails {s : State} {iv : List Byte} (h0 : iv.length ≠ 0) (hbs : iv.length ≠ s.bs) :
    Fails (.setiv iv) s .invalidIvLength := by
  simp only [Fails, exec, execSetiv, if_neg h0, if_neg hbs]
  rfl

theorem encode_setiv (iv : List Byte) :
    encode (.setiv iv) = ⟨commandWord .setiv 0, some (BitVec.ofNat 32 iv.length), iv⟩ := rfl

theorem decode_setiv {iv : List Byte} (h : iv.length < 2 ^ 32) :
    decode ⟨0x00000005, some (BitVec.ofNat 32 iv.length), iv⟩ = .ok (.setiv iv) := by
  have hdecode := decode_encode (.setiv iv) (fitsLen_of_length_lt h)
  rw [encode_setiv] at hdecode
  exact hdecode

/-- Settles O16: the bytes of the chain written are those of `writeChain_getElem` and `writeChain_above`. -/
theorem setivWritesOrClearsTheIv : Obligations.SetivWritesOrClearsTheIv := by
  unfold Obligations.SetivWritesOrClearsTheIv
  refine ⟨fun iv => decode_setiv, setiv_nil_succeeds,
    fun s iv hl => ⟨writeChain s.chain iv, fun i hi hv => ?_, fun i hi hbs => ?_, setiv_succeeds hl⟩,
    fun s iv => setiv_fails⟩
  · rw [writeChain_getElem, List.getD_eq_getElem iv _ hv]
  · exact writeChain_above s.chain iv i hi (hl ▸ hbs)

/-! ### `RDREG` -/

/-- `RDREG` answers the register's value and writes no register, not even `ERR` (45 R306). -/
theorem rdreg_reads (s : State) (r : Register) : exec (.rdreg (registerNumber r)) s =
    .next { s with responses := s.responses ++ [⟨.ok, [s.readReg r]⟩] } := by
  have hsel := (registerOfSel_eq_some (registerNumber r) r).mpr rfl
  simp only [exec, execRdreg, hsel]
  rfl

theorem rdreg_unknown (s : State) {n : Byte} (h : 7 ≤ n.toNat) : exec (.rdreg n) s =
    .next { s with responses := s.responses ++ [⟨.unsupportedCommand, []⟩] } := by
  simp only [exec, execRdreg, (registerOfSel_eq_none n).mpr h]
  rfl

/-- Settles O17: the numbers of the registers are `registerNumber`; a word with `RSV` not 0 is illegal, whatever its
`OPC`. -/
theorem rdregReadsControlRegistersAndWritesNothing : Obligations.RdregReadsControlRegistersAndWritesNothing := by
  unfold Obligations.RdregReadsControlRegistersAndWritesNothing
  refine ⟨fun sel => decode_encode (.rdreg sel) rfl, fun s => ?registers, fun s n => rdreg_unknown s,
    fun s c rest hnext _ hrsv => ⟨_, step_of_illegalWord s c rest hnext (.inl hrsv), rfl⟩, rfl, rfl⟩
  case registers =>
    rw [← readReg_status, ← readReg_bsize]
    exact ⟨rdreg_reads s .family, rdreg_reads s .mode, rdreg_reads s .pad, rdreg_reads s .status, rdreg_reads s .err,
      rdreg_reads s .bsize, rdreg_reads s .keylen⟩

end Sys2Proof.Machine

/-! Block steps (45 R310 to R322, R333): the laws of the exclusive-or of byte sequences, the big-endian counter, what
`ENCB` and `DECB` do with a block in each mode, and the commands in ECB, which are blind to the chain. -/

namespace Sys2Proof.Machine

open Claims

/-! ### The exclusive-or of byte sequences (00 R16) -/

theorem xorBytes_comm (a b : List Byte) : xorBytes a b = xorBytes b a :=
  List.zipWith_comm_of_comm BitVec.xor_comm

theorem xorBytes_assoc (a b c : List Byte) : xorBytes (xorBytes a b) c = xorBytes a (xorBytes b c) := by
  simp only [xorBytes, List.zipWith_zipWith_left, List.zipWith_zipWith_right, BitVec.xor_assoc]

theorem xorBytes_right_comm (a b c : List Byte) : xorBytes (xorBytes a b) c = xorBytes (xorBytes a c) b := by
  rw [xorBytes_assoc, xorBytes_comm b c, xorBytes_assoc]

/-- What is exclusive-ored twice drops out, as long as it covers the sequence. -/
theorem xorBytes_cancel_right {a b : List Byte} (h : a.length ≤ b.length) : xorBytes (xorBytes a b) b = a := by
  apply List.ext_getElem
  · simpa using h
  · intro i _ _
    simp [xorBytes]

/-! ### The counter (20 R80, 45 R322) -/

theorem beNat_append_singleton (bs : List Byte) (b : Byte) : beNat (bs ++ [b]) = beNat bs * 256 + b.toNat := by
  simp [beNat]

theorem two_pow_bytes_succ (n : Nat) : 2 ^ (8 * (n + 1)) = 2 ^ (8 * n) * 256 := Nat.pow_add 2 (8 * n) 8

theorem beNat_lt (bs : List Byte) : beNat bs < 2 ^ (8 * bs.length) := by
  induction bs using List.reverseRecOn with
  | nil => exact Nat.one_pos
  | append_singleton bs b ih =>
    have hb := b.isLt
    rw [beNat_append_singleton, List.length_append, List.length_singleton, two_pow_bytes_succ]
    omega

/-- The low bytes of a number, read back (20 R80). -/
theorem beNat_natBytes (n v : Nat) : beNat (natBytes n v) = v % 2 ^ (8 * n) := by
  induction n generalizing v with
  | zero => rw [Nat.mul_zero, Nat.pow_zero, Nat.mod_one]; rfl
  | succ n ih =>
    have hmod : v % 2 ^ (8 * (n + 1)) = v % 256 + 256 * (v / 256 % 2 ^ (8 * n)) := by
      rw [two_pow_bytes_succ, Nat.mul_comm, Nat.mod_mul]
    rw [natBytes, beNat_append_singleton, ih, BitVec.toNat_ofNat, hmod, Nat.mul_comm, Nat.add_comm]

theorem natBytes_zero (n : Nat) : natBytes n 0 = List.replicate n 0 := by
  induction n with
  | zero => rfl
  | succ n ih => rw [natBytes, Nat.zero_div, ih, List.replicate_succ']; rfl

theorem beNat_replicate_ff (n : Nat) : beNat (List.replicate n 0xFF) + 1 = 2 ^ (8 * n) := by
  induction n with
  | zero => rfl
  | succ n ih =>
    rw [List.replicate_succ', beNat_append_singleton, two_pow_bytes_succ, ← ih]
    exact (Nat.succ_mul _ 256).symm

theorem beNat_incBytes (x : List Byte) : beNat (incBytes x) = (beNat x + 1) % 2 ^ (8 * x.length) := by
  rw [incBytes, beNat_natBytes, Nat.mod_mod]

/-- The counter wraps from all ones to zero (45 R322). -/
theorem incBytes_replicate_ff (n : Nat) : incBytes (List.replicate n 0xFF) = List.replicate n 0x00 := by
  rw [incBytes, List.length_replicate, beNat_replicate_ff, Nat.mod_self, natBytes_zero]

theorem incBytes_iterate (v : List Byte) (i : Nat) :
    (incBytes^[i] v).length = v.length ∧ beNat (incBytes^[i] v) = (beNat v + i) % 2 ^ (8 * v.length) := by
  induction i with
  | zero => exact ⟨rfl, (Nat.mod_eq_of_lt (beNat_lt v)).symm⟩
  | succ i ih =>
    obtain ⟨hlen, hval⟩ := ih
    rw [Function.iterate_succ_apply', incBytes_length, beNat_incBytes, hlen, hval, Nat.mod_add_mod, Nat.add_assoc]
    exact ⟨rfl, rfl⟩

/-- Settles O42: two counters of one value are congruent modulo 2^(8·BS), so their distance is a multiple of it. -/
theorem counterValuesAreDistinct : Obligations.CounterValuesAreDistinct := by
  unfold Obligations.CounterValuesAreDistinct
  refine ⟨incBytes_iterate, fun v i j hij hlt heq => ?_⟩
  have hcongr : beNat v + i ≡ beNat v + j [MOD 2 ^ (8 * v.length)] := by
    rw [Nat.ModEq, ← (incBytes_iterate v i).2, ← (incBytes_iterate v j).2, heq]
  have hdvd := (Nat.modEq_iff_dvd' hij.le).mp hcongr.add_left_cancel'
  exact absurd (Nat.le_of_dvd (Nat.sub_pos_of_lt hij) hdvd) (Nat.not_le.mpr hlt)

/-! ### Decryption undoes encryption (45 R333 a) -/

/-- `D` undoes `E` in both families (42 R224, 44 R279). -/
theorem State.engine_dec_enc (s : State) (b : List Byte) (hb : b.length = s.bs) :
    s.engine.dec (s.engine.enc b) = b := by
  unfold State.bs State.engine at *
  cases hf : s.family <;> simp only [hf, blockSize] at hb ⊢
  · exact onWords_onWords_of_leftInverse (decWordsA_encWordsA _) b hb
  · exact onRegs_onRegs_of_leftInverse (decRegsB_encRegsB _ _) b hb

/-- Settles O40: `D` undoes `E` where the mode applies it, and the chaining value or the keystream drops out of the
exclusive-or. -/
theorem decryptionStepInvertsEncryptionStep : Obligations.DecryptionStepInvertsEncryptionStep := by
  unfold Obligations.DecryptionStepInvertsEncryptionStep
  intro s m ch b hch hb
  have hchain : xorBytes (xorBytes b ch) ch = b := xorBytes_cancel_right (hb.trans hch.symm).le
  have hstream : xorBytes (xorBytes b (s.engine.enc ch)) (s.engine.enc ch) = b :=
    xorBytes_cancel_right (hb.trans (s.engine_enc_length ch hch).symm).le
  have hblock : s.engine.dec (s.engine.enc (xorBytes b ch)) = xorBytes b ch :=
    s.engine_dec_enc _ (by simp [hb, hch])
  cases m with
  | ecb => simp only [encStep, decStep, s.engine_dec_enc b hb]
  | cbc | pcbc => simp only [encStep, decStep, hblock, hchain]
  | cfb | ofb | ctr => simp only [encStep, decStep, hstream]

/-! ### Error propagation (45 R333 b) -/

/-- Settles O41: the change commutes out of the exclusive-or; the chaining values compared are the next ciphertext block
or made of the old one alone, the same on both sides. -/
theorem ciphertextChangesPropagateAsTheModeSays : Obligations.CiphertextChangesPropagateAsTheModeSays := by
  unfold Obligations.CiphertextChangesPropagateAsTheModeSays
  refine ⟨fun e ch c c' d _ _ => ⟨?cbc, rfl⟩, fun e ch c c' d _ => ⟨?cfb, rfl⟩, fun e m ch c d hm _ => ?stream⟩
  case cbc => exact (xorBytes_assoc (e.dec c') c d).symm
  case cfb => exact xorBytes_right_comm c d (e.enc ch)
  case stream => rcases hm with rfl | rfl <;> exact ⟨xorBytes_right_comm c d (e.enc ch), rfl⟩

/-! ### The block commands -/

/-- Past the checks, `ENCB` answers the output of the mode's step and writes its chaining value (45 R330). -/
theorem encb_succeeds {s : State} {m : Mode} {b : List Byte} (hm : s.mode = m) (hk : s.keyValid = true)
    (hb : b.length = s.bs) (hiv : IvReady s) :
    Succeeds (.encb b) s { s with chain := writeChain s.chain (encStep s.engine m s.ch b).ch }
      (encStep s.engine m s.ch b).out := by
  subst hm
  have hchecks := (s.cipherError_eq_none (encbLengthError s.bs b.length)).mpr ⟨hk, by simp [encbLengthError, hb], hiv⟩
  simp only [Succeeds, exec, execEncb, hchecks]
  rfl

/-- Past the checks, `DECB` answers the output of the mode's step and writes its chaining value (45 R331). -/
theorem decb_succeeds {s : State} {m : Mode} {b : List Byte} (hm : s.mode = m) (hk : s.keyValid = true)
    (hb : b.length = s.bs) (hiv : IvReady s) :
    Succeeds (.decb b) s { s with chain := writeChain s.chain (decStep s.engine m s.ch b).ch }
      (decStep s.engine m s.ch b).out := by
  subst hm
  have hchecks := (s.cipherError_eq_none (decbLengthError s.bs b.length)).mpr ⟨hk, by simp [decbLengthError, hb], hiv⟩
  simp only [Succeeds, exec, execDecb, hchecks]
  rfl

/-- Both block commands with an IV, by the mode's step (45 R318 to R322). -/
theorem blockCommands_succeed {s : State} {m : Mode} {b : List Byte} (hk : s.keyValid = true)
    (hiv : s.ivValid = true) (hb : b.length = s.bs) (hm : s.mode = m) :
    Succeeds (.encb b) s { s with chain := writeChain s.chain (encStep s.engine m s.ch b).ch }
      (encStep s.engine m s.ch b).out ∧
    Succeeds (.decb b) s { s with chain := writeChain s.chain (decStep s.engine m s.ch b).ch }
      (decStep s.engine m s.ch b).out :=
  ⟨encb_succeeds hm hk hb (.inr hiv), decb_succeeds hm hk hb (.inr hiv)⟩

/-- Settles O38: `encStep` and `decStep` of the three modes are the rules' expressions. -/
theorem feedbackModesChainTheCiphertextSide : Obligations.FeedbackModesChainTheCiphertextSide := by
  unfold Obligations.FeedbackModesChainTheCiphertextSide
  exact fun s b hk hiv hb =>
    ⟨blockCommands_succeed hk hiv hb, blockCommands_succeed hk hiv hb, blockCommands_succeed hk hiv hb⟩

/-- Settles O39: `blockCommands_succeed` in OFB and CTR, and the laws of the counter. -/
theorem keystreamModesAreSymmetric : Obligations.KeystreamModesAreSymmetric := by
  unfold Obligations.KeystreamModesAreSymmetric
  refine ⟨fun s b hk hiv hb => ⟨blockCommands_succeed hk hiv hb, blockCommands_succeed hk hiv hb⟩,
    fun x => ⟨incBytes_length x, beNat_incBytes x⟩, incBytes_replicate_ff, fun e e' m ch b he hm => ?_⟩
  rcases hm with rfl | rfl | rfl <;> simp only [encStep, decStep, he, and_self]

/-! ### ECB (45 R317, R323) -/

/-- Drawing `RND` bytes leaves `CH`, so writing it back changes nothing. -/
@[simp] theorem State.rndDrop_setCh_ch (s : State) (n : Nat) : (s.rndDrop n).setCh s.ch = s.rndDrop n :=
  (s.rndDrop n).setCh_ch

/-- The state with another chain and another `IV_VALID`. -/
def State.withIv (s : State) (chain : Vector (BitVec 8) 16) (v : Bool) : State :=
  { s with chain := chain, ivValid := v }

section

variable (s : State) (chain : Vector (BitVec 8) 16) (v : Bool)

@[simp] theorem State.withIv_mode : (s.withIv chain v).mode = s.mode := rfl
@[simp] theorem State.withIv_pad : (s.withIv chain v).pad = s.pad := rfl
@[simp] theorem State.withIv_bs : (s.withIv chain v).bs = s.bs := rfl
@[simp] theorem State.withIv_engine : (s.withIv chain v).engine = s.engine := rfl
@[simp] theorem State.withIv_padded (msg : List Byte) : (s.withIv chain v).padded msg = s.padded msg := rfl

end

/-- The command answers, keeps the chain and `IV_VALID`, and answers the same from any other chain and `IV_VALID`. -/
def IvBlind (f : State → Host.Outcome State Fault Refusal) (s : State) : Prop :=
  ∃ t, f s = .next t ∧ t.chain = s.chain ∧ t.ivValid = s.ivValid ∧
    ∀ chain v, f (s.withIv chain v) = .next (t.withIv chain v)

/-- A command is blind if it ends in an update that carries every chain and `IV_VALID` through. -/
theorem IvBlind.of_update {f : State → Host.Outcome State Fault Refusal} {s : State} (g : State → State)
    (hf : ∀ chain v, f (s.withIv chain v) = .next (g (s.withIv chain v)))
    (hg : ∀ chain v, g (s.withIv chain v) = (g s).withIv chain v) : IvBlind f s := by
  have hself : g s = (g s).withIv s.chain s.ivValid := hg s.chain s.ivValid
  exact ⟨g s, hf s.chain s.ivValid, by rw [hself]; rfl, by rw [hself]; rfl,
    fun chain v => by rw [hf, hg]⟩

section

variable {s : State} (hm : s.mode = .ecb)
include hm

/-- In ECB no check reads `IV_VALID` (45 R316, R323). -/
theorem State.cipherError_withIv (e : Option Status) (chain : Vector (BitVec 8) 16) (v : Bool) :
    (s.withIv chain v).cipherError e = s.cipherError e := by
  simp [State.cipherError, State.ivMissing, State.withIv, modeNeedsIv, hm]

theorem State.encryptMessage_ch_of_ecb (msg : List Byte) : (s.encryptMessage msg).ch = s.ch := by
  rw [State.encryptMessage, hm, runBlocks_encStep_ecb]

theorem State.decryptMessage_ch_of_ecb (text : List Byte) : (s.decryptMessage text).ch = s.ch := by
  rw [State.decryptMessage, hm, runBlocks_decStep_ecb]

theorem State.encryptMessage_out_withIv (msg : List Byte) (chain : Vector (BitVec 8) 16) (v : Bool) :
    ((s.withIv chain v).encryptMessage msg).out = (s.encryptMessage msg).out := by
  simp only [State.encryptMessage, State.withIv_mode, State.withIv_engine, State.withIv_bs, State.withIv_padded, hm]
  exact runBlocks_out_of_chainless (encStep_ecb_out _) _ _ _

theorem State.decryptMessage_out_withIv (text : List Byte) (chain : Vector (BitVec 8) 16) (v : Bool) :
    ((s.withIv chain v).decryptMessage text).out = (s.decryptMessage text).out := by
  simp only [State.decryptMessage, State.withIv_mode, State.withIv_engine, State.withIv_bs, hm]
  exact runBlocks_out_of_chainless (decStep_ecb_out _) _ _ _

theorem execEncb_ivBlind (b : List Byte) : IvBlind (execEncb b) s := by
  cases hc : s.cipherError (encbLengthError s.bs b.length) with
  | some e => exact .of_update (·.raise e) (by simp [execEncb, s.cipherError_withIv hm, hc]) fun _ _ => rfl
  | none =>
    exact .of_update (·.finish (s.engine.enc b)) (by simp [execEncb, s.cipherError_withIv hm, hc, hm, encStep])
      fun _ _ => rfl

theorem execDecb_ivBlind (b : List Byte) : IvBlind (execDecb b) s := by
  cases hc : s.cipherError (decbLengthError s.bs b.length) with
  | some e => exact .of_update (·.raise e) (by simp [execDecb, s.cipherError_withIv hm, hc]) fun _ _ => rfl
  | none =>
    exact .of_update (·.finish (s.engine.dec b)) (by simp [execDecb, s.cipherError_withIv hm, hc, hm, decStep])
      fun _ _ => rfl

theorem execEncm_ivBlind (msg : List Byte) : IvBlind (execEncm msg) s := by
  cases hc : s.cipherError none with
  | some e => exact .of_update (·.raise e) (by simp [execEncm, s.cipherError_withIv hm, hc]) fun _ _ => rfl
  | none =>
    refine .of_update (fun u => (u.rndDrop (fillLength s.pad s.bs msg.length)).finish (s.encryptMessage msg).out)
      (fun chain v => ?_) fun _ _ => rfl
    have hch := State.encryptMessage_ch_of_ecb (s := s.withIv chain v) hm msg
    simp [execEncm, s.cipherError_withIv hm, hc, hch, s.encryptMessage_out_withIv hm]

theorem execDecm_ivBlind (text : List Byte) : IvBlind (execDecm text) s := by
  have hch chain v := State.decryptMessage_ch_of_ecb (s := s.withIv chain v) hm text
  cases hc : s.cipherError (decmLengthError s.bs text.length) with
  | some e => exact .of_update (·.raise e) (by simp [execDecm, s.cipherError_withIv hm, hc]) fun _ _ => rfl
  | none =>
    cases hu : unpadMessage s.pad s.bs (s.decryptMessage text).out with
    | none =>
      exact .of_update (·.raise .paddingValidationFailed)
        (by simp [execDecm, s.cipherError_withIv hm, hc, hch, s.decryptMessage_out_withIv hm, hu]) fun _ _ => rfl
    | some m =>
      exact .of_update (·.finish m)
        (by simp [execDecm, s.cipherError_withIv hm, hc, hch, s.decryptMessage_out_withIv hm, hu]) fun _ _ => rfl

theorem exec_ivBlind {i : Instr} (hi : IsCipher i) : IvBlind (exec i) s := by
  rcases hi with ⟨b, rfl⟩ | ⟨b, rfl⟩ | ⟨msg, rfl⟩ | ⟨text, rfl⟩
  exacts [execEncb_ivBlind hm b, execDecb_ivBlind hm b, execEncm_ivBlind hm msg, execDecm_ivBlind hm text]

end

/-- Settles O37: the engine by the family, a block by `encb_succeeds` and `decb_succeeds` with `CH` written back, and
`exec_ivBlind` for the last clause. -/
theorem ecbNeitherReadsNorWritesTheChain : Obligations.EcbNeitherReadsNorWritesTheChain := by
  unfold Obligations.EcbNeitherReadsNorWritesTheChain
  refine ⟨fun s b hf => ?familyA, fun s b hf => ?familyB, fun s b hm hk hb => ?block, fun s i hm => exec_ivBlind hm⟩
  case familyA => simp only [State.engine, hf, and_self]
  case familyB => simp only [State.engine, hf, and_self]
  case block =>
    have henc := encb_succeeds hm hk hb (.inl hm)
    have hdec := decb_succeeds hm hk hb (.inl hm)
    simp only [encStep, decStep, State.ch, writeChain_take] at henc hdec
    exact ⟨henc, hdec⟩

end Sys2Proof.Machine

/-! The padding schemes (46 R351 to R359, R362): what each appends to a message, what each removal takes off a sequence,
and that removal undoes padding. -/

namespace Sys2Proof.Machine

theorem blockSize_lt (f : Family) : blockSize f < 2 ^ 8 := (blockSize_le f).trans_lt (by decide)

/-! ### The pad length (46 R351) -/

section

variable {bs : Nat} (hbs : 0 < bs) (len : Nat)
include hbs

theorem one_le_padLength : 1 ≤ padLength bs len := Nat.sub_pos_of_lt (Nat.mod_lt len hbs)

theorem add_padLength_mod : (len + padLength bs len) % bs = 0 := by
  have hlt := Nat.mod_lt len hbs
  rw [padLength, ← Nat.mod_add_mod, Nat.add_sub_cancel' hlt.le, Nat.mod_self]

end

theorem padLength_le (bs len : Nat) : padLength bs len ≤ bs := Nat.sub_le bs _

/-! ### What a scheme appends (46 R352, R354, R356, R358) -/

/-- The `n` pad bytes of a scheme; ISO10126 alone reads the fill bytes. -/
def padBytes (p : Padding) (fill : List Byte) (n : Nat) : List Byte :=
  match p with
  | .zeros => List.replicate n 0
  | .ansix923 => List.replicate (n - 1) 0 ++ [BitVec.ofNat 8 n]
  | .pkcs7 => List.replicate n (BitVec.ofNat 8 n)
  | .iso10126 => fill ++ [BitVec.ofNat 8 n]

theorem padMessage_eq_append (p : Padding) (bs : Nat) (fill m : List Byte) :
    padMessage p bs fill m = m ++ padBytes p fill (padLength bs m.length) := by
  cases p with
  | zeros | pkcs7 => rfl
  | ansix923 | iso10126 => exact List.append_assoc _ _ _

theorem padBytes_length {p : Padding} {fill : List Byte} {n : Nat} (hn : 1 ≤ n)
    (hfill : p = .iso10126 → fill.length = n - 1) : (padBytes p fill n).length = n := by
  cases p with
  | zeros | pkcs7 => exact List.length_replicate
  | ansix923 => simp [padBytes, Nat.sub_add_cancel hn]
  | iso10126 => simp [padBytes, hfill rfl, Nat.sub_add_cancel hn]

theorem padBytes_getLast? {p : Padding} (hp : p ≠ .zeros) (fill : List Byte) {n : Nat} (hn : 1 ≤ n) :
    (padBytes p fill n).getLast? = some (BitVec.ofNat 8 n) := by
  cases p with
  | zeros => exact absurd rfl hp
  | pkcs7 => simp [padBytes, List.getLast?_replicate, Nat.ne_of_gt hn]
  | ansix923 | iso10126 => exact List.getLast?_concat

theorem padMessage_length {p : Padding} {bs : Nat} {fill m : List Byte} (hbs : 0 < bs)
    (hfill : p = .iso10126 → fill.length = padLength bs m.length - 1) :
    (padMessage p bs fill m).length = m.length + padLength bs m.length := by
  rw [padMessage_eq_append, List.length_append, padBytes_length (one_le_padLength hbs _) hfill]

/-- Settles O43: the pad bytes fill up the last block, `add_padLength_mod`, and end in their number,
`padBytes_getLast?`. -/
theorem everyPaddedMessageIsWholeBlocks : Obligations.EveryPaddedMessageIsWholeBlocks := by
  unfold Obligations.EveryPaddedMessageIsWholeBlocks
  intro f p m fill bs n x hfill
  have hpos : 1 ≤ n := one_le_padLength (blockSize_pos f) m.length
  have hlen : x.length = m.length + n := padMessage_length (blockSize_pos f) fun _ => hfill
  refine ⟨hpos, padLength_le bs m.length, fun haligned => ?_, rfl, hlen, ?_, ?_, fun hp => ?_⟩
  · simp only [n, haligned, Nat.sub_zero]
  · rw [hlen]
    exact add_padLength_mod (blockSize_pos f) m.length
  · exact List.length_pos_iff.mp (by omega)
  · have hlast : (padBytes p fill n).getLast? = some (BitVec.ofNat 8 n) := padBytes_getLast? hp fill hpos
    have hx : x = m ++ padBytes p fill n := padMessage_eq_append p bs fill m
    rw [hx, List.getLast?_append, hlast, Option.some_or]

/-- Settles O44: each scheme's bytes are those of its definition; the fill bytes drawn are the ones the host is known to
supply, `State.rndBytes_known`. -/
theorem paddingAppendsWhatTheSchemeSays : Obligations.PaddingAppendsWhatTheSchemeSays := by
  unfold Obligations.PaddingAppendsWhatTheSchemeSays
  intro s m n
  refine ⟨fun hp => ?zeros, fun hp => ?ansix923, fun hp => ?pkcs7, fun hp => ?drawn, fun hp fill hfill => ?known⟩
  case zeros | ansix923 | pkcs7 | drawn =>
    simp only [State.padded, hp]
    rfl
  case known =>
    have hdrawn := ({ s with rnd := fill } : State).rndBytes_known (n - 1) hfill.ge
    rw [List.take_of_length_le hfill.le] at hdrawn
    simp only [State.padded, hp]
    exact congrArg (fun drawn => m ++ drawn ++ _) hdrawn

/-! ### Removal of trailing zeros (46 R353) -/

theorem unpadZeros_eq_rdropWhile (x : List Byte) : unpadZeros x = x.rdropWhile (· == 0) := rfl

theorem unpadZeros_concat (x : List Byte) (b : Byte) :
    unpadZeros (x ++ [b]) = if b = 0 then unpadZeros x else x ++ [b] := by
  simp only [unpadZeros_eq_rdropWhile, List.rdropWhile_concat, beq_iff_eq]

theorem unpadZeros_append_zeros (r : List Byte) (n : Nat) : unpadZeros (r ++ List.replicate n 0) = unpadZeros r := by
  induction n with
  | zero => rw [List.replicate_zero, List.append_nil]
  | succ n ih => rw [List.replicate_succ', ← List.append_assoc, unpadZeros_concat, if_pos rfl, ih]

theorem unpadZeros_eq_self {r : List Byte} (h : r.getLast? ≠ some 0) : unpadZeros r = r := by
  cases r using List.reverseRecOn with
  | nil => rfl
  | append_singleton r b =>
    rw [unpadZeros_concat, if_neg]
    rintro rfl
    exact h List.getLast?_concat

/-- What is removed are zeros, and no zero is left at the end. -/
theorem unpadZeros_spec (x : List Byte) :
    (unpadZeros x).getLast? ≠ some 0 ∧ ∃ n, x = unpadZeros x ++ List.replicate n 0 := by
  induction x using List.reverseRecOn with
  | nil => exact ⟨nofun, 0, rfl⟩
  | append_singleton x b ih =>
    obtain ⟨hlast, n, hx⟩ := ih
    rw [unpadZeros_concat]
    split
    case isTrue hb =>
      refine ⟨hlast, n + 1, ?_⟩
      rw [List.replicate_succ', ← List.append_assoc, ← hx, hb]
    case isFalse hb =>
      exact ⟨by simpa using hb, 0, (List.append_nil _).symm⟩

theorem unpadZeros_eq_iff (x r : List Byte) :
    unpadZeros x = r ↔ r.getLast? ≠ some 0 ∧ ∃ n, x = r ++ List.replicate n 0 := by
  constructor
  · rintro rfl
    exact unpadZeros_spec x
  · rintro ⟨hlast, n, rfl⟩
    rw [unpadZeros_append_zeros, unpadZeros_eq_self hlast]

/-! ### Removal by a length byte (46 R355, R357, R359) -/

theorem readPadLength_eq_some {bs n : Nat} {x : List Byte} (hbs : bs < 2 ^ 8) :
    readPadLength bs x = some n ↔ 1 ≤ n ∧ n ≤ bs ∧ n ≤ x.length ∧ x.getLast? = some (BitVec.ofNat 8 n) := by
  unfold readPadLength
  cases x.getLast? with
  | none => simp
  | some b =>
    simp only [Option.ite_none_right_eq_some, Option.some.injEq]
    constructor
    · rintro ⟨⟨h1, hle, hx⟩, rfl⟩
      exact ⟨h1, hle, hx, by simp⟩
    · rintro ⟨h1, hle, hx, rfl⟩
      have hn : (BitVec.ofNat 8 n).toNat = n := Nat.mod_eq_of_lt (by omega)
      rw [hn]
      exact ⟨⟨h1, hle, hx⟩, rfl⟩

theorem unpadWith_append {check : Nat → List Byte → Bool} {bs : Nat} {pad : List Byte} (hbs : bs < 2 ^ 8)
    (hpos : 1 ≤ pad.length) (hle : pad.length ≤ bs) (hlast : pad.getLast? = some (BitVec.ofNat 8 pad.length))
    (hcheck : check pad.length pad = true) (r : List Byte) : unpadWith check bs (r ++ pad) = some r := by
  have hread : readPadLength bs (r ++ pad) = some pad.length :=
    (readPadLength_eq_some hbs).mpr ⟨hpos, hle, by simp, by rw [List.getLast?_append, hlast, Option.some_or]⟩
  simp [unpadWith, hread, lastBytes, hcheck]

/-- A removal with a length byte takes off the last `n` bytes, `n` being the last of them, if they pass the check. -/
theorem unpadWith_eq_some {check : Nat → List Byte → Bool} {bs : Nat} {x r : List Byte} (hbs : bs < 2 ^ 8) :
    unpadWith check bs x = some r ↔ ∃ n fill, 1 ≤ n ∧ n ≤ bs ∧ fill.length = n - 1 ∧
      check n (fill ++ [BitVec.ofNat 8 n]) = true ∧ x = r ++ fill ++ [BitVec.ofNat 8 n] := by
  constructor
  · intro h
    unfold unpadWith at h
    split at h
    case h_1 => cases h
    case h_2 n hread =>
      obtain ⟨h1, hle, hx, hlast⟩ := (readPadLength_eq_some hbs).mp hread
      obtain ⟨hcheck, hr⟩ := Option.ite_none_right_eq_some.mp h
      obtain rfl := Option.some.inj hr
      have hpad : (lastBytes n x).dropLast ++ [BitVec.ofNat 8 n] = lastBytes n x := by
        refine List.dropLast_append_getLast? _ ?_
        rw [lastBytes, List.getLast?_drop, if_neg (by omega), hlast]
        rfl
      refine ⟨n, (lastBytes n x).dropLast, h1, hle, ?_, by rwa [hpad], ?_⟩
      · rw [List.length_dropLast, lastBytes, List.length_drop, Nat.sub_sub_self hx]
      · rw [List.append_assoc, hpad, lastBytes, List.take_append_drop]
  · rintro ⟨n, fill, h1, hle, hfill, hcheck, rfl⟩
    have hn : (fill ++ [BitVec.ofNat 8 n]).length = n := by
      rw [List.length_append, List.length_singleton, hfill, Nat.sub_add_cancel h1]
    rw [List.append_assoc]
    exact unpadWith_append hbs (by rwa [hn]) (by rwa [hn]) (by rw [hn]; exact List.getLast?_concat) (by rwa [hn]) r

/-- The same, when the check asks for one value `c n` in every byte before the length byte. -/
theorem unpadWith_eq_some_of_constant {check : Nat → List Byte → Bool} {bs : Nat} {x r : List Byte} (c : Nat → Byte)
    (hbs : bs < 2 ^ 8) (hcheck : ∀ n fill, n ≤ bs →
      (check n (fill ++ [BitVec.ofNat 8 n]) = true ↔ ∀ b ∈ fill, b = c n)) :
    unpadWith check bs x = some r ↔
      ∃ n, 1 ≤ n ∧ n ≤ bs ∧ x = r ++ List.replicate (n - 1) (c n) ++ [BitVec.ofNat 8 n] := by
  rw [unpadWith_eq_some hbs]
  refine exists_congr fun n => ⟨?_, ?_⟩
  · rintro ⟨fill, h1, hle, hfill, hpass, rfl⟩
    rw [List.eq_replicate_iff.mpr ⟨hfill, (hcheck n fill hle).mp hpass⟩]
    exact ⟨h1, hle, rfl⟩
  · rintro ⟨h1, hle, rfl⟩
    exact ⟨_, h1, hle, List.length_replicate, (hcheck n _ hle).mpr fun _ => List.eq_of_mem_replicate, rfl⟩

theorem unpadAnsi_eq_some {bs : Nat} {x r : List Byte} (hbs : bs < 2 ^ 8) : unpadAnsi bs x = some r ↔
    ∃ n, 1 ≤ n ∧ n ≤ bs ∧ x = r ++ List.replicate (n - 1) 0 ++ [BitVec.ofNat 8 n] :=
  unpadWith_eq_some_of_constant (fun _ => 0) hbs fun n fill _ => by simp

theorem unpadPkcs7_eq_some {bs : Nat} {x r : List Byte} (hbs : bs < 2 ^ 8) : unpadPkcs7 bs x = some r ↔
    ∃ n, 1 ≤ n ∧ n ≤ bs ∧ x = r ++ List.replicate n (BitVec.ofNat 8 n) := by
  have hvalue {n : Nat} (hle : n ≤ bs) (b : Byte) : b.toNat = n ↔ b = BitVec.ofNat 8 n := by
    rw [← BitVec.toNat_inj, BitVec.toNat_ofNat, Nat.mod_eq_of_lt (hle.trans_lt hbs)]
  rw [unpadPkcs7, unpadWith_eq_some_of_constant (BitVec.ofNat 8) hbs fun n fill hle => by
    simp [hvalue hle, show n < 256 from hle.trans_lt hbs]]
  refine exists_congr fun n => and_congr_right fun h1 => ?_
  rw [List.append_assoc, ← List.replicate_succ', Nat.sub_add_cancel h1]

theorem unpadIso_eq_some {bs : Nat} {x r : List Byte} (hbs : bs < 2 ^ 8) : unpadIso bs x = some r ↔
    ∃ n fill, 1 ≤ n ∧ n ≤ bs ∧ fill.length = n - 1 ∧ x = r ++ fill ++ [BitVec.ofNat 8 n] := by
  simp only [unpadIso, unpadWith_eq_some hbs, true_and]

/-- Settles O45: `unpadZeros_eq_iff`, and the equation of each removal with a length byte. -/
theorem paddingRemovalFollowsTheScheme : Obligations.PaddingRemovalFollowsTheScheme := by
  unfold Obligations.PaddingRemovalFollowsTheScheme
  intro f x r bs
  have hbs : bs < 2 ^ 8 := blockSize_lt f
  exact ⟨Option.some_inj.trans (unpadZeros_eq_iff x r), unpadAnsi_eq_some hbs, unpadPkcs7_eq_some hbs,
    unpadIso_eq_some hbs, Option.some_ne_none _⟩

/-! ### Removal after padding (46 R362) -/

/-- Removal gives back what a scheme with a length byte padded. -/
theorem unpadMessage_padMessage {p : Padding} (hp : p ≠ .zeros) {bs : Nat} (hpos : 0 < bs) (hbs : bs < 2 ^ 8)
    {fill m : List Byte} (hfill : p = .iso10126 → fill.length = padLength bs m.length - 1) :
    unpadMessage p bs (padMessage p bs fill m) = some m := by
  have h1 := one_le_padLength hpos m.length
  have hle := padLength_le bs m.length
  cases p with
  | zeros => exact absurd rfl hp
  | ansix923 => exact (unpadAnsi_eq_some hbs).mpr ⟨_, h1, hle, rfl⟩
  | pkcs7 => exact (unpadPkcs7_eq_some hbs).mpr ⟨_, h1, hle, rfl⟩
  | iso10126 => exact (unpadIso_eq_some hbs).mpr ⟨_, fill, h1, hle, hfill rfl, rfl⟩

/-- The proviso of Zeros: the message does not end in 00. -/
theorem unpadZeros_padZeros_eq_iff (bs : Nat) (m : List Byte) :
    unpadZeros (padZeros bs m) = m ↔ m = [] ∨ m.getLast? ≠ some 0 := by
  have hlast : m.getLast? ≠ some 0 ↔ m = [] ∨ m.getLast? ≠ some 0 :=
    ⟨.inr, fun h => h.elim (fun hnil => hnil ▸ nofun) id⟩
  rw [unpadZeros_eq_iff, ← hlast]
  exact and_iff_left ⟨_, rfl⟩

/-- Settles O46: an empty sequence has no length byte; `unpadMessage_padMessage` and `unpadZeros_padZeros_eq_iff`. -/
theorem unpaddingInvertsPadding : Obligations.UnpaddingInvertsPadding := by
  unfold Obligations.UnpaddingInvertsPadding
  exact ⟨fun f => ⟨rfl, rfl, rfl, rfl⟩, fun f m fill hfill =>
    ⟨fun p hp => unpadMessage_padMessage hp (blockSize_pos f) (blockSize_lt f) fun _ => hfill,
      Option.some_inj.trans (unpadZeros_padZeros_eq_iff _ m)⟩⟩

end Sys2Proof.Machine

/-! The message commands (46 R360, R361, R363): decryption block by block undoes encryption, and with the padding
removed `DECM` returns the message of `ENCM` under the same family, key, mode, padding and IV. -/

namespace Sys2Proof.Machine

open Claims

/-! ### The blocks of a message, put together and cut again (46 R360, R361) -/

theorem blocksOf_append_block {bs : Nat} (hbs : 0 < bs) {b : List Byte} (hb : b.length = bs) (x : List Byte) :
    blocksOf bs (b ++ x) = b :: blocksOf bs x := by
  subst hb
  rw [blocksOf, List.length_append, Nat.add_div_left _ hbs, chunks, List.take_left, List.drop_left, blocksOf]

theorem blocksOf_flatten {bs : Nat} {x : List Byte} (hx : x.length % bs = 0) : (blocksOf bs x).flatten = x :=
  chunks_flatten bs _ x (Nat.mul_div_cancel' (Nat.dvd_of_mod_eq_zero hx)).symm

theorem length_of_mem_blocksOf {bs : Nat} {x b : List Byte} (h : b ∈ blocksOf bs x) : b.length = bs :=
  (chunks_length bs _ x (Nat.mul_div_le x.length bs)).2 b h

/-- Decrypting what was encrypted, from the same chaining value, gives the blocks back and ends in the same chaining
value, since each step undoes its step (45 R333 a). -/
theorem State.runBlocks_decStep_encStep (s : State) (m : Mode) {ch : List Byte} (hch : ch.length = s.bs)
    {blocks : List (List Byte)} (hblocks : ∀ b ∈ blocks, b.length = s.bs) :
    runBlocks (decStep s.engine m) ch (blocksOf s.bs (runBlocks (encStep s.engine m) ch blocks).out) =
      ⟨blocks.flatten, (runBlocks (encStep s.engine m) ch blocks).ch⟩ := by
  induction blocks generalizing ch with
  | nil => simp [runBlocks, blocksOf, chunks]
  | cons b blocks ih =>
    obtain ⟨hb, hblocks⟩ := List.forall_mem_cons.mp hblocks
    obtain ⟨hout, hnext⟩ := encStep_length s.engine s.bs s.engine_enc_length m ch b hch hb
    simp only [runBlocks, blocksOf_append_block s.bs_pos hout, decryptionStepInvertsEncryptionStep s m ch b hch hb,
      ih hnext hblocks, List.flatten_cons]

/-! ### The padded message of `ENCM` (46 R360) -/

/-- ISO10126 draws one byte less than the pad length (46 R358). -/
theorem State.drawn_length {s : State} (hp : s.pad = .iso10126) (len : Nat) :
    (s.rndBytes (fillLength s.pad s.bs len)).length = padLength s.bs len - 1 := by
  rw [State.rndBytes_length, hp, fillLength]

theorem State.padded_length (s : State) (msg : List Byte) :
    (s.padded msg).length = msg.length + padLength s.bs msg.length :=
  padMessage_length s.bs_pos fun hp => State.drawn_length hp _

theorem State.padded_mod (s : State) (msg : List Byte) : (s.padded msg).length % s.bs = 0 := by
  rw [State.padded_length]
  exact add_padLength_mod s.bs_pos _

/-- The scheme's removal gives the message back, for Zeros with the proviso of 46 R362. -/
theorem State.unpadMessage_padded {s : State} {msg : List Byte}
    (hzeros : s.pad = .zeros → msg = [] ∨ msg.getLast? ≠ some 0) :
    unpadMessage s.pad s.bs (s.padded msg) = some msg := by
  by_cases hp : s.pad = .zeros
  · rw [State.padded, hp]
    exact congrArg some ((unpadZeros_padZeros_eq_iff s.bs msg).mpr (hzeros hp))
  · exact unpadMessage_padMessage hp s.bs_pos (blockSize_lt s.family) fun hiso => State.drawn_length hiso _

/-- Encryption gives as many bytes as the padded message has, and a chaining value of `BS` bytes. -/
theorem State.encryptMessage_length (s : State) (msg : List Byte) :
    (s.encryptMessage msg).out.length = (s.padded msg).length ∧ (s.encryptMessage msg).ch.length = s.bs :=
  s.runBlocks_message _ (encStep_length s.engine s.bs s.engine_enc_length s.mode) _ (s.padded_mod msg)

/-! ### The message commands past their checks -/

theorem encm_completes {s : State} (hk : s.keyValid = true) (hiv : IvReady s) (msg : List Byte) :
    exec (.encm msg) s = .next (((s.rndDrop (fillLength s.pad s.bs msg.length)).setCh
      (s.encryptMessage msg).ch).finish (s.encryptMessage msg).out) := by
  have hchecks := (s.cipherError_eq_none none).mpr ⟨hk, rfl, hiv⟩
  simp only [exec, execEncm, hchecks]

theorem decm_completes {s : State} (hk : s.keyValid = true) (hiv : IvReady s) {text msg : List Byte}
    (htext : text.length % s.bs = 0) (hunpad : unpadMessage s.pad s.bs (s.decryptMessage text).out = some msg) :
    exec (.decm text) s = .next ((s.setCh (s.decryptMessage text).ch).finish msg) := by
  have hchecks := (s.cipherError_eq_none (decmLengthError s.bs text.length)).mpr
    ⟨hk, by simp [decmLengthError, htext], hiv⟩
  simp only [exec, execDecm, hchecks, hunpad]

/-! ### The round trip (46 R363) -/

/-- Two states under the same `FAMILY`, key, `MODE` and `PAD`. -/
structure State.SameSession (s t : State) : Prop where
  family : t.family = s.family
  engine : t.engine = s.engine
  keyValid : t.keyValid = s.keyValid
  mode : t.mode = s.mode
  pad : t.pad = s.pad

theorem State.SameSession.bs {s t : State} (h : s.SameSession t) : t.bs = s.bs := congrArg blockSize h.family

/-- Decryption from the `CH` that encryption began with gives the padded message, and the `CH` encryption ended with. -/
theorem State.SameSession.decryptMessage_encryptMessage {s t : State} (h : s.SameSession t) (hch : t.ch = s.ch)
    (msg : List Byte) :
    t.decryptMessage (s.encryptMessage msg).out = ⟨s.padded msg, (s.encryptMessage msg).ch⟩ := by
  rw [State.decryptMessage, h.engine, h.mode, h.bs, hch, State.encryptMessage,
    s.runBlocks_decStep_encStep s.mode s.ch_length fun _ => length_of_mem_blocksOf, blocksOf_flatten (s.padded_mod msg)]

/-- `DECM` returns the message that `ENCM` encrypted, and ends with the same `CH`. -/
theorem State.SameSession.decm_returns {s t : State} (h : s.SameSession t) (hch : t.ch = s.ch)
    (hk : s.keyValid = true) (hiv : IvReady t) {msg : List Byte}
    (hzeros : s.pad = .zeros → msg = [] ∨ msg.getLast? ≠ some 0) :
    ∃ t', exec (.decm (s.encryptMessage msg).out) t = .next t' ∧ t'.responses = t.responses ++ [⟨.ok, msg⟩] ∧
      t'.ch = (s.encryptMessage msg).ch := by
  obtain ⟨hout, hlast⟩ := s.encryptMessage_length msg
  have hdec := h.decryptMessage_encryptMessage hch msg
  have hrun := decm_completes (s := t) (text := (s.encryptMessage msg).out) (msg := msg) (h.keyValid.trans hk) hiv
    (by rw [hout, h.bs, s.padded_mod]) (by rw [hdec, h.pad, h.bs, State.unpadMessage_padded hzeros])
  rw [hdec] at hrun
  exact ⟨_, hrun, by simp, t.ch_setCh _ (hlast.trans h.bs.symm)⟩

/-- `ENCM` stays in the session, answers the encrypted message and leaves the last `CH`. -/
theorem encm_returns {s : State} (hk : s.keyValid = true) (hiv : IvReady s) (msg : List Byte) :
    ∃ t, exec (.encm msg) s = .next t ∧ t.responses = s.responses ++ [⟨.ok, (s.encryptMessage msg).out⟩] ∧
      s.SameSession t ∧ t.ch = (s.encryptMessage msg).ch :=
  ⟨_, encm_completes hk hiv msg, by simp, ⟨rfl, rfl, rfl, rfl, rfl⟩,
    (s.rndDrop _).ch_setCh _ (s.encryptMessage_length msg).2⟩

/-- `SETIV` with the `CH` of a state of the same session restores it (45 R305). -/
theorem State.SameSession.setiv_restores {s t : State} (h : s.SameSession t) :
    ∃ t', exec (.setiv s.ch) t = .next t' ∧ s.SameSession t' ∧ t'.ch = s.ch ∧ t'.ivValid = true := by
  have hlen : s.ch.length = t.bs := s.ch_length.trans h.bs.symm
  exact ⟨_, setiv_succeeds hlen, ⟨h.family, h.engine, h.keyValid, h.mode, h.pad⟩, t.ch_setCh s.ch hlen, rfl⟩

/-- Settles O49: `ENCM` and `SETIV` stay in the session, and `DECM` starts from the `CH` that `ENCM` began with: `SETIV`
restores it, and in ECB it never moved. -/
theorem messagesRoundTrip : Obligations.MessagesRoundTrip := by
  unfold Obligations.MessagesRoundTrip
  intro s msg hk hiv hzeros
  obtain ⟨s1, henc, hc, hsame1, hch1⟩ := encm_returns hk hiv msg
  obtain ⟨s2, hset, hsame2, hch2, hiv2⟩ := hsame1.setiv_restores
  obtain ⟨s3, hdec, hmsg, hch3⟩ := hsame2.decm_returns hch2 hk (.inr hiv2) hzeros
  refine ⟨_, s1, s2, s3, henc, hc, hset, hdec, hmsg, hch3.trans hch1.symm, fun hm => ?ecb⟩
  case ecb =>
    have hch : s1.ch = s.ch := hch1.trans (State.encryptMessage_ch_of_ecb hm msg)
    rw [hch1]
    exact hsame1.decm_returns hch hk (.inl (hsame1.mode.trans hm)) hzeros

end Sys2Proof.Machine

/-! Errors (60 R400, R410 to R413, R420): each check that fails stops its command with its own code, and every answer of
every command ends in one of five ways, from which who raises what and what a failure leaves are read off. -/

namespace Sys2Proof.Machine

open Claims

/-! ### A check that fails is the one reported (60 R420) -/

/-- The length check of a block or message command (45 R315); the other commands have none in `cipherError`. -/
def State.lengthCheck (s : State) : Instr → Option Status
  | .encb b => encbLengthError s.bs b.length
  | .decb b => decbLengthError s.bs b.length
  | .decm text => decmLengthError s.bs text.length
  | _ => none

theorem cipher_fails_of_check {s : State} {i : Instr} {e : Status} (hi : IsCipher i)
    (he : s.cipherError (s.lengthCheck i) = some e) : Fails i s e := by
  rcases hi with ⟨b, rfl⟩ | ⟨b, rfl⟩ | ⟨msg, rfl⟩ | ⟨text, rfl⟩ <;> simp only [State.lengthCheck] at he
  · simp only [Fails, exec, execEncb, he]; rfl
  · simp only [Fails, exec, execDecb, he]; rfl
  · simp only [Fails, exec, execEncm, he]; rfl
  · simp only [Fails, exec, execDecm, he]; rfl

theorem cipher_fails_missingKey {s : State} {i : Instr} (hi : IsCipher i) (hk : s.keyValid = false) :
    Fails i s .missingKey :=
  cipher_fails_of_check hi ((s.cipherError_eq_some _ _).mpr (.inl ⟨hk, rfl⟩))

theorem cipher_fails_length {s : State} {i : Instr} {e : Status} (hi : IsCipher i) (hk : s.keyValid = true)
    (hlen : s.lengthCheck i = some e) : Fails i s e :=
  cipher_fails_of_check hi ((s.cipherError_eq_some _ _).mpr (.inr (.inl ⟨hk, hlen⟩)))

theorem cipher_fails_missingIv {s : State} {i : Instr} (hi : IsCipher i) (hk : s.keyValid = true)
    (hm : s.mode ≠ .ecb) (hiv : s.ivValid = false) (hlen : s.lengthCheck i = none) : Fails i s .missingIv :=
  cipher_fails_of_check hi ((s.cipherError_eq_some _ _).mpr (.inr (.inr ⟨hk, hlen, hm, hiv, rfl⟩)))

theorem setpad_fails (s : State) {sel : Byte} (h : 4 ≤ sel.toNat) : Fails (.setpad sel) s .unsupportedPadding := by
  simp only [Fails, exec, execSetpad, (padOfSel_eq_none sel).mpr h]
  rfl

/-- `DECM` past its checks, when the padding does not come off: the chain its blocks wrote stays (60 R413). -/
theorem decm_paddingFails {s : State} (hk : s.keyValid = true) (hiv : IvReady s) {text : List Byte}
    (htext : text.length % s.bs = 0) (hunpad : unpadMessage s.pad s.bs (s.decryptMessage text).out = none) :
    exec (.decm text) s = .next ((s.setCh (s.decryptMessage text).ch).raise .paddingValidationFailed) := by
  have hchecks := (s.cipherError_eq_none (decmLengthError s.bs text.length)).mpr
    ⟨hk, by simp [decmLengthError, htext], hiv⟩
  simp only [exec, execDecm, hchecks, hunpad]

theorem isCipher_encb (b : List Byte) : IsCipher (.encb b) := .inl ⟨b, rfl⟩
theorem isCipher_decb (b : List Byte) : IsCipher (.decb b) := .inr (.inl ⟨b, rfl⟩)
theorem isCipher_encm (msg : List Byte) : IsCipher (.encm msg) := .inr (.inr (.inl ⟨msg, rfl⟩))
theorem isCipher_decm (text : List Byte) : IsCipher (.decm text) := .inr (.inr (.inr ⟨text, rfl⟩))

theorem decb_fails_misaligned {s : State} {d : List Byte} (hk : s.keyValid = true) (h : d.length % s.bs ≠ 0) :
    Fails (.decb d) s .misalignedCiphertext :=
  cipher_fails_length (isCipher_decb d) hk (by simp [State.lengthCheck, decbLengthError, h])

theorem five_mod_bs (s : State) : 5 % s.bs ≠ 0 := by
  unfold State.bs
  cases s.family <;> decide

/-- Settles O35: each check's own failure lemma, by its place in `State.cipherError`; R421's length is 5, no multiple of
either block size. -/
theorem errorsAreReportedInTheOrderOfTheChecks : Obligations.ErrorsAreReportedInTheOrderOfTheChecks := by
  unfold Obligations.ErrorsAreReportedInTheOrderOfTheChecks
  refine ⟨fun s c rest hnext hw => ⟨_, step_of_illegalWord s c rest hnext hw, rfl⟩,
    fun s n => ⟨selfam_fails s, setmode_fails s, setpad_fails s, fun h => ⟨_, rdreg_unknown s h, rfl⟩⟩,
    fun s i => cipher_fails_missingKey, fun s d => ⟨setkey_fails, setiv_fails⟩,
    fun s d hk => ⟨fun h => ⟨decb_fails_misaligned hk h, ?decmLength⟩, fun h0 h => ?decbLength, fun h => ?encbLength⟩,
    fun s d hk hm hiv => ⟨?encmIv, fun h => ⟨?encbIv, ?decbIv⟩, fun h => ?decmIv⟩,
    fun s d hk hiv h hunpad => ⟨_, decm_paddingFails hk hiv h hunpad, rfl⟩,
    fun s d hd _ _ => ⟨cipher_fails_missingKey (isCipher_decb d),
      fun hk => decb_fails_misaligned hk (hd ▸ five_mod_bs s)⟩⟩
  case decmLength => exact cipher_fails_length (isCipher_decm d) hk (by simp [State.lengthCheck, decmLengthError, h])
  case decbLength => exact cipher_fails_length (isCipher_decb d) hk (by simp [State.lengthCheck, decbLengthError, h0, h])
  case encbLength => exact cipher_fails_length (isCipher_encb d) hk (by simp [State.lengthCheck, encbLengthError, h])
  case encmIv => exact cipher_fails_missingIv (isCipher_encm d) hk hm hiv rfl
  case encbIv =>
    exact cipher_fails_missingIv (isCipher_encb d) hk hm hiv (by simp [State.lengthCheck, encbLengthError, h])
  case decbIv =>
    exact cipher_fails_missingIv (isCipher_decb d) hk hm hiv (by simp [State.lengthCheck, decbLengthError, h])
  case decmIv =>
    exact cipher_fails_missingIv (isCipher_decm d) hk hm hiv (by simp [State.lengthCheck, decmLengthError, h])

/-! ### How a command ends -/

/-- What a command that answers can leave, with the response it gives: success, an error that changes nothing but `ERR`,
the padding failure of `DECM`, and `RDREG`'s two answers, which leave `ERR` (60 R410 to R413). -/
inductive Ending (i : Instr) (s : State) : State → Response → Prop
  | success (u : State) (dout : List Byte) (hi : ¬ IsRdreg i) (hu : u.responses = s.responses) :
      Ending i s (u.finish dout) ⟨.ok, dout⟩
  | failure (code : Status) (hi : ¬ IsRdreg i) (hcode : code ∈ codesOf i) (hpad : code ≠ .paddingValidationFailed) :
      Ending i s (s.raise code) ⟨code, []⟩
  | paddingFailure (text : List Byte) (hi : i = .decm text) :
      Ending i s ((s.setCh (s.decryptMessage text).ch).raise .paddingValidationFailed) ⟨.paddingValidationFailed, []⟩
  | read (dout : List Byte) (hi : IsRdreg i) : Ending i s (s.respond .ok dout) ⟨.ok, dout⟩
  | readFailure (hi : IsRdreg i) : Ending i s (s.respond .unsupportedCommand []) ⟨.unsupportedCommand, []⟩

theorem ok_mem_codesOf (i : Instr) : .ok ∈ codesOf i := by cases i <;> exact List.mem_cons_self

/-- A failing check of a block or message command reports one of the command's codes, never a padding failure. -/
theorem mem_codesOf_of_cipherError {s : State} {i : Instr} {e : Status} (hi : IsCipher i)
    (he : s.cipherError (s.lengthCheck i) = some e) : e ∈ codesOf i ∧ e ≠ .paddingValidationFailed := by
  rcases (s.cipherError_eq_some _ e).mp he with ⟨-, rfl⟩ | ⟨-, hlen⟩ | ⟨-, -, -, -, rfl⟩
  case inl => rcases hi with ⟨_, rfl⟩ | ⟨_, rfl⟩ | ⟨_, rfl⟩ | ⟨_, rfl⟩ <;> simp [codesOf]
  case inr.inr => rcases hi with ⟨_, rfl⟩ | ⟨_, rfl⟩ | ⟨_, rfl⟩ | ⟨_, rfl⟩ <;> simp [codesOf]
  case inr.inl =>
    rcases hi with ⟨b, rfl⟩ | ⟨b, rfl⟩ | ⟨msg, rfl⟩ | ⟨text, rfl⟩
    · simp only [State.lengthCheck, encbLengthError] at hlen
      split at hlen <;> cases hlen
      simp [codesOf]
    · simp only [State.lengthCheck, decbLengthError] at hlen
      split at hlen
      · cases hlen; simp [codesOf]
      · split at hlen <;> cases hlen
        simp [codesOf]
    · cases hlen
    · simp only [State.lengthCheck, decmLengthError] at hlen
      split at hlen <;> cases hlen
      simp [codesOf]

theorem ending_of_cipherError {s : State} {i : Instr} {e : Status} (hi : IsCipher i) (hr : ¬ IsRdreg i)
    (he : s.cipherError (s.lengthCheck i) = some e) : Ending i s (s.raise e) ⟨e, []⟩ :=
  have ⟨hcode, hpad⟩ := mem_codesOf_of_cipherError hi he
  .failure e hr hcode hpad

/-- Every command that answers ends in one of the five ways. -/
theorem exec_ending {i : Instr} {s t : State} (h : exec i s = .next t) : ∃ r, Ending i s t r := by
  by_cases hi : IsRdreg i
  case pos =>
    obtain ⟨sel, rfl⟩ := hi
    rcases execRdreg_cases h with ⟨-, rfl⟩ | ⟨r, -, rfl⟩
    · exact ⟨_, .readFailure ⟨sel, rfl⟩⟩
    · exact ⟨_, .read _ ⟨sel, rfl⟩⟩
  case neg =>
    cases i with
    | rdreg sel => exact absurd ⟨sel, rfl⟩ hi
    | selfam sel =>
      rcases execSelfam_cases h with ⟨-, rfl⟩ | ⟨f, -, rfl⟩
      · exact ⟨_, .failure _ hi (by simp [codesOf]) nofun⟩
      · exact ⟨_, .success _ _ hi rfl⟩
    | setkey key =>
      rcases execSetkey_cases h with ⟨-, rfl⟩ | ⟨-, -, sch, -, rfl⟩ | ⟨-, -, ek, -, rfl⟩
      · exact ⟨_, .failure _ hi (by simp [codesOf]) nofun⟩
      · exact ⟨_, .success _ _ hi rfl⟩
      · exact ⟨_, .success _ _ hi rfl⟩
    | setmode sel =>
      rcases execSetmode_cases h with ⟨-, rfl⟩ | ⟨m, -, rfl⟩
      · exact ⟨_, .failure _ hi (by simp [codesOf]) nofun⟩
      · exact ⟨_, .success _ _ hi rfl⟩
    | setpad sel =>
      rcases execSetpad_cases h with ⟨-, rfl⟩ | ⟨p, -, rfl⟩
      · exact ⟨_, .failure _ hi (by simp [codesOf]) nofun⟩
      · exact ⟨_, .success _ _ hi rfl⟩
    | setiv iv =>
      rcases execSetiv_cases h with ⟨-, rfl⟩ | ⟨-, rfl⟩ | ⟨-, -, rfl⟩
      · exact ⟨_, .success _ _ hi rfl⟩
      · exact ⟨_, .success _ _ hi rfl⟩
      · exact ⟨_, .failure _ hi (by simp [codesOf]) nofun⟩
    | encb b =>
      rcases execEncb_cases h with ⟨e, he, rfl⟩ | ⟨-, -, rfl⟩
      · exact ⟨_, ending_of_cipherError (isCipher_encb b) hi he⟩
      · exact ⟨_, .success _ _ hi rfl⟩
    | decb b =>
      rcases execDecb_cases h with ⟨e, he, rfl⟩ | ⟨-, -, rfl⟩
      · exact ⟨_, ending_of_cipherError (isCipher_decb b) hi he⟩
      · exact ⟨_, .success _ _ hi rfl⟩
    | encm msg =>
      rcases execEncm_cases h with ⟨e, he, rfl⟩ | ⟨-, rfl⟩
      · exact ⟨_, ending_of_cipherError (isCipher_encm msg) hi he⟩
      · exact ⟨_, .success _ _ hi rfl⟩
    | decm text =>
      rcases execDecm_cases h with ⟨e, he, rfl⟩ | ⟨-, -, -, rfl⟩ | ⟨-, -, msg, -, rfl⟩
      · exact ⟨_, ending_of_cipherError (isCipher_decm text) hi he⟩
      · exact ⟨_, .paddingFailure text rfl⟩
      · exact ⟨_, .success _ _ hi rfl⟩
    | gfmul a b => cases h; exact ⟨_, .success s _ hi rfl⟩
    | rot sel x => cases h; exact ⟨_, .success s _ hi rfl⟩
    | pht a b => cases h; exact ⟨_, .success s _ hi rfl⟩

namespace Ending

variable {i : Instr} {s t : State} {r : Response} (h : Ending i s t r)
include h

theorem responses_eq : t.responses = s.responses ++ [r] := by
  cases h with
  | success u dout _ hu => rw [State.finish_responses, hu]
  | failure | paddingFailure | read | readFailure => rfl

theorem status_mem_codesOf : r.status ∈ codesOf i := by
  cases h with
  | success | read => exact ok_mem_codesOf i
  | failure _ _ hcode => exact hcode
  | paddingFailure text hi => subst hi; simp [codesOf]
  | readFailure hi => obtain ⟨sel, rfl⟩ := hi; simp [codesOf]

theorem err_eq_status (hi : ¬ IsRdreg i) : t.err = r.status := by
  cases h with
  | success | failure | paddingFailure => rfl
  | read _ hr | readFailure hr => exact absurd hr hi

theorem err_eq_of_isRdreg (hi : IsRdreg i) : t.err = s.err := by
  cases h with
  | success _ _ hr | failure _ hr => exact absurd hi hr
  | paddingFailure text hd => subst hd; obtain ⟨sel, hd⟩ := hi; cases hd
  | read | readFailure => rfl

end Ending

/-- Settles O50: every code a command ends with is among its own, `Ending.status_mem_codesOf`. -/
theorem statusCodesAreTheListedOnes : Obligations.StatusCodesAreTheListedOnes := by
  unfold Obligations.StatusCodesAreTheListedOnes
  refine ⟨rfl, rfl, rfl, rfl, rfl, rfl, rfl, rfl, rfl, rfl, rfl, rfl, fun i s t h => ?_,
    fun s c rest hnext hw => ⟨_, step_of_illegalWord s c rest hnext hw, rfl⟩⟩
  obtain ⟨r, hend⟩ := exec_ending h
  exact ⟨r, hend.responses_eq, hend.status_mem_codesOf⟩

/-- Settles O51: `ERR` in each ending of a command, and in `step_of_illegalWord`. -/
theorem errReportsTheLastCommandButRdreg : Obligations.ErrReportsTheLastCommandButRdreg := by
  unfold Obligations.ErrReportsTheLastCommandButRdreg
  refine ⟨fun i s t h => ?_, fun s c rest hnext hw => ⟨_, step_of_illegalWord s c rest hnext hw, rfl⟩⟩
  obtain ⟨r, hend⟩ := exec_ending h
  exact ⟨r, hend.responses_eq, hend.err_eq_status, hend.err_eq_of_isRdreg⟩

/-- Settles O52: of the endings with another status than 0, only the padding failure writes the chain, and in ECB it
writes `CH` back. -/
theorem onlyPaddingFailuresKeepAPartialUpdate : Obligations.OnlyPaddingFailuresKeepAPartialUpdate := by
  unfold Obligations.OnlyPaddingFailuresKeepAPartialUpdate
  intro i s t r h hr hne
  obtain ⟨r', hend⟩ := exec_ending h
  obtain rfl : r' = r := by simpa using hend.responses_eq.symm.trans hr
  cases hend with
  | success | read => exact absurd rfl hne
  | failure code hi _ hpad => exact ⟨rfl, fun _ => ⟨fun hrd => absurd hrd hi, fun _ => rfl⟩, fun hp => absurd hp hpad⟩
  | readFailure hi => exact ⟨rfl, fun _ => ⟨fun _ => rfl, fun hn => absurd hi hn⟩, nofun⟩
  | paddingFailure text hi =>
    refine ⟨rfl, fun hp => absurd rfl hp, fun _ => ⟨text, hi, rfl, fun hm => ?_⟩⟩
    rw [State.decryptMessage_ch_of_ecb hm, State.setCh_ch, State.raise_chain]

end Sys2Proof.Machine

/-! The session after reset (70 R452): selecting the family that is selected already, with no key and no IV to clear. -/

namespace Sys2Proof.Machine

open Claims

/-- Every field that `SELFAM` writes has the value it writes (45 R301). -/
theorem selfam_family_succeeds_self {s : State} (hkey : s.keyValid = false) (hlen : s.keyLen = 0)
    (hiv : s.ivValid = false) : Succeeds (.selfam (familyCode s.family)) s s [] := by
  have hself : { s with family := s.family, keyValid := false, keyLen := 0, ivValid := false } = s := by
    cases s; cases hkey; cases hlen; cases hiv; rfl
  have hsel := selfam_succeeds s s.family
  rwa [hself] at hsel

/-- Settles O10: reset selects Cipher A with no key and no IV, so `selfam_family_succeeds_self` applies. -/
theorem selfamAfterResetChangesNothing : Obligations.SelfamAfterResetChangesNothing := by
  unfold Obligations.SelfamAfterResetChangesNothing
  exact ⟨rfl, rfl, rfl, selfam_family_succeeds_self (s := State.reset) rfl rfl rfl⟩

end Sys2Proof.Machine

/-! Transactions (30 section 1, 60 R446): the transaction of an instruction decodes to it and no other transaction does,
and a legal command word has a step exactly when its `LEN` and `DIN` are framed. -/

namespace Sys2Proof

open Machine Claims

/-- Settles O2: the word is legal and the framing right, and the operands read back, `decode_encode`. -/
theorem decodeInvertsEncode : Obligations.DecodeInvertsEncode := by
  unfold Obligations.DecodeInvertsEncode
  exact decode_encode

/-! ### The transaction that decodes is the one encoded -/

/-- What the operands read keep: the operation, all of `DIN`, and `SEL` where it is a field (30 R104, R109). -/
theorem operands_eq_ok {op : Opcode} {sel : Byte} {din : List Byte} {i : Instr} (h : operands op sel din = .ok i) :
    i.opcode = op ∧ i.din = din ∧ i.sel = if op.selIsField then sel else 0 := by
  unfold operands at h
  split at h <;> cases h <;> simp [Instr.opcode, Instr.din, Instr.sel, Opcode.selIsField, wordsToBytes]

/-- A command word is made of its fields (30 R100). -/
theorem commandWord_eq_of_fields {w : Word} {op : Opcode} {sel : Byte} (hrsv : w.extractLsb' 16 16 = 0)
    (hsel : w.extractLsb' 8 8 = sel) (hopc : w.extractLsb' 0 8 = op.byte) : commandWord op sel = w := by
  have hhigh (k : Nat) (hk : k + 8 ≤ 16) : w.extractLsb' (16 + k) 8 = 0 := by
    apply BitVec.eq_of_getLsbD_eq
    intro i hi
    have hbit := congrArg (·.getLsbD (k + i)) hrsv
    simpa [hi, show k + i < 16 by omega, Nat.add_assoc] using hbit
  rw [← beWord_wordBytes w, hhigh 8 le_rfl, hhigh 0 (by decide), hsel, hopc]
  simp [beWord, commandWord]

/-- `LEN`, where the operation has one, is the number of `DIN` bytes (30 R103). -/
theorem dinLen_of_hasLen {op : Opcode} (h : op.hasLen = true) (n : Nat) : op.dinLen n = n := by
  cases op with
  | setkey | setiv | encb | decb | encm | decm => rfl
  | selfam | setmode | setpad | rdreg | gfmul | rot | pht => cases h

/-- Right framing, with a `LEN` word and without one (30 R102, R103). -/
theorem checkFraming_eq_ok_cases {c : Command} {op : Opcode} (h : checkFraming op c = .ok ()) :
    (op.hasLen = false ∧ c.len = none ∧ c.din.length = op.dinLen 0) ∨
    (op.hasLen = true ∧ ∃ n, c.len = some n ∧ c.din.length = n.toNat) := by
  obtain ⟨hlen, hdin⟩ := (checkFraming_eq_ok op c).mp h
  cases hn : c.len with
  | none => exact .inl ⟨by rw [← hlen, hn]; rfl, rfl, by rw [hdin, hn]; rfl⟩
  | some n =>
    have hhas : op.hasLen = true := by rw [← hlen, hn]; rfl
    exact .inr ⟨hhas, n, rfl, by rw [hdin, hn, dinLen_of_hasLen hhas]; rfl⟩

theorem wf_of_din_length_lt {i : Instr} (h : i.opcode.hasLen = true → i.din.length < 2 ^ 32) : i.wf = true := by
  cases i with
  | selfam | setmode | setpad | rdreg | gfmul | rot | pht => rfl
  | setkey din | setiv din | encb din | decb din | encm din | decm din => exact fitsLen_of_length_lt (h rfl)

/-- Settles O4: the word is made of its fields, with `SEL` 0 where it is none, and `LEN` counts `DIN`. -/
theorem encodeInvertsDecode : Obligations.EncodeInvertsDecode := by
  unfold Obligations.EncodeInvertsDecode
  intro c i hdec
  obtain ⟨op, hword, hframing, hoperands⟩ := (decode_eq_ok c i).mp hdec
  obtain ⟨hrsv, hopc, hzero⟩ := (decodeWord_eq_ok c op).mp hword
  obtain ⟨rfl, hdin, hisel⟩ := operands_eq_ok hoperands
  have hsel : c.sel = i.sel := by
    rw [hisel]
    split
    case isTrue => rfl
    case isFalse hfield => exact hzero.resolve_left hfield
  have hcw : commandWord i.opcode i.sel = c.cw := commandWord_eq_of_fields hrsv hsel hopc
  rcases checkFraming_eq_ok_cases hframing with ⟨hno, hlen, -⟩ | ⟨hhas, n, hlen, hcount⟩
  · exact ⟨by rw [encode, hcw, hno, hdin, if_neg Bool.false_ne_true, ← hlen],
      wf_of_din_length_lt fun hhas => absurd hhas (by simp [hno])⟩
  · refine ⟨?_, wf_of_din_length_lt fun _ => by rw [hdin, hcount]; exact n.isLt⟩
    rw [encode, hcw, hhas, hdin, if_pos rfl, hcount, BitVec.ofNat_toNat, BitVec.setWidth_eq, ← hlen]

/-! ### Framing -/

theorem byte_mem_lenOpcodes (op : Opcode) : op.byte ∈ lenOpcodes ↔ op.hasLen = true := by
  cases op <;> decide

/-- `Framed` is the decoder's framing check of the operation the word names (30 R102, R103). -/
theorem framed_iff_checkFraming {c : Command} {op : Opcode} (hopc : c.opc = op.byte) :
    Framed c ↔ checkFraming op c = .ok () := by
  simp only [checkFraming_eq_ok, Framed, show c.cw.extractLsb' 0 8 = op.byte from hopc, byte_mem_lenOpcodes]
  cases op <;> cases c.len <;> simp [Opcode.hasLen, Opcode.dinLen, Opcode.byte]

/-- A legal word decodes when it is framed, and is no command when it is not (30 R103). -/
theorem decode_of_decodeWord_ok {c : Command} {op : Opcode} (hword : decodeWord c = .ok op) :
    (Framed c → ∃ i, decode c = .ok i) ∧ (¬ Framed c → ∃ e, decode c = .error e ∧ e.illegal = false) := by
  rw [framed_iff_checkFraming ((decodeWord_eq_ok c op).mp hword).2.1]
  constructor
  · intro hframing
    obtain ⟨i, hi⟩ := operands_of_framing op c hframing
    exact ⟨i, (decode_eq_ok c i).mpr ⟨op, hword, hframing, hi⟩⟩
  · intro hframing
    cases he : checkFraming op c with
    | ok => exact absurd he hframing
    | error e => exact ⟨e, by simp [decode, hword, he], checkFraming_error op c e he⟩

/-- Settles O8: each word is that of its instruction, whose transaction decodes, as words and as bytes. -/
theorem writtenWordsDecode : Obligations.WrittenWordsDecode := by
  unfold Obligations.WrittenWordsDecode
  exact ⟨decode_encode (.selfam 1) rfl, decode_encode (.setiv [0xF0, 0xF1]) rfl,
    decodeBytes_toBytes_append _ _ (decode_encode (.encb [0xAB]) rfl) [0x77],
    decodeBytes_toBytes_append _ _ (decode_encode (.decm []) rfl) [],
    decodeBytes_toBytes_append _ _ (decode_encode (.rot 0xF8 0x12345678) rfl) []⟩

end Sys2Proof

/-! Commands (41 R193, R194, R200; 45 R304, R330, R331; 46 R360, R361): the tables of a Cipher A schedule entry by entry,
`SETPAD`, and the block and message commands past their checks. -/

namespace Sys2Proof.Machine

open Claims

/-! ### The Cipher A schedule -/

/-- The two words of a round-key pair stand side by side (41 R193). -/
theorem roundKeys_getElem (me mo : KeyVec) (i : Nat) (hi : i < 20) :
    (roundKeys me mo)[2 * i] = (roundKeyPair me mo i).1 ∧ (roundKeys me mo)[2 * i + 1] = (roundKeyPair me mo i).2 := by
  simp [roundKeys, show (2 * i + 1) / 2 = i by omega, show (2 * i + 1) % 2 = 1 by omega]

theorem keySBoxes_get (svec : KeyVec) (i : Fin 4) (x : Fin 256) :
    ((keySBoxes svec).get i).get x = (hq (timesRho (BitVec.ofFin x)) svec).get i := by
  simp only [keySBoxes, tabulate_get]

/-- Settles O28: `deriveA_isSome` for the lengths, `deriveA_eq_some` for the words of the key, and each table entry by
entry. -/
theorem scheduleAHoldsRoundKeysAndSBoxes : Obligations.ScheduleAHoldsRoundKeysAndSBoxes := by
  unfold Obligations.ScheduleAHoldsRoundKeysAndSBoxes
  refine ⟨fun key => Option.isSome_iff_exists.symm.trans (deriveA_isSome key), fun key sch h => ?_⟩
  obtain ⟨m, me, mo, svec, hm, hme, hmo, hsvec, rfl⟩ := deriveA_eq_some h
  exact ⟨m, me, mo, svec, hm, hme, hmo, hsvec, roundKeys_getElem me mo, keySBoxes_get svec⟩

/-! ### `SETPAD` -/

theorem setpad_succeeds (s : State) (p : Padding) : Succeeds (.setpad (padCode p)) s { s with pad := p } [] := by
  have hsel := (padOfSel_eq_some (padCode p) p).mpr rfl
  simp only [Succeeds, exec, execSetpad, hsel]
  rfl

/-- Settles O15: SEL 0 to 3 are the codes of the four paddings, `setpad_succeeds`. -/
theorem setpadSelectsThePadding : Obligations.SetpadSelectsThePadding := by
  unfold Obligations.SetpadSelectsThePadding
  refine ⟨fun s => ?_, fun s _ => setpad_fails s, fun s t h => ?_⟩
  · have h := setpad_succeeds s
    exact ⟨h .zeros, h .ansix923, h .pkcs7, h .iso10126⟩
  · obtain rfl := next_unique (setpad_succeeds s .pkcs7) h
    rfl

/-! ### Block and message commands -/

theorem State.encStep_length (s : State) (m : Mode) {b : List Byte} (hb : b.length = s.bs) :
    (encStep s.engine m s.ch b).out.length = s.bs ∧ (encStep s.engine m s.ch b).ch.length = s.bs :=
  Machine.encStep_length s.engine s.bs s.engine_enc_length m s.ch b s.ch_length hb

theorem State.decStep_length (s : State) (m : Mode) {b : List Byte} (hb : b.length = s.bs) :
    (decStep s.engine m s.ch b).out.length = s.bs ∧ (decStep s.engine m s.ch b).ch.length = s.bs :=
  Machine.decStep_length s.engine s.bs s.engine_enc_length s.engine_dec_length m s.ch b s.ch_length hb

/-- Settles O36: a block step gives a block and a chaining value of `BS` bytes, which `CHAIN[0..BS)` takes. -/
theorem singleBlockCommandsComplete : Obligations.SingleBlockCommandsComplete := by
  unfold Obligations.SingleBlockCommandsComplete
  intro s b hk hb hiv
  obtain ⟨heout, hech⟩ := s.encStep_length s.mode hb
  obtain ⟨hdout, hdch⟩ := s.decStep_length s.mode hb
  exact ⟨⟨_, _, heout, fun i hi hbs => writeChain_above _ _ i hi (hech.trans_le hbs), encb_succeeds rfl hk hb hiv⟩,
    ⟨_, _, hdout, fun i hi hbs => writeChain_above _ _ i hi (hdch.trans_le hbs), decb_succeeds rfl hk hb hiv⟩⟩

/-- ISO10126 alone draws bytes, one less than the pad length (46 R358). -/
theorem fillLength_eq (p : Padding) (bs len : Nat) :
    fillLength p bs len = if p = .iso10126 then padLength bs len - 1 else 0 := by
  cases p <;> rfl

/-- Settles O47: `encm_completes`, with `fillLength` bytes drawn. -/
theorem encmPadsAndEncryptsTheMessage : Obligations.EncmPadsAndEncryptsTheMessage := by
  unfold Obligations.EncmPadsAndEncryptsTheMessage
  intro s msg hk hiv n drawn r
  refine ⟨(s.encryptMessage_length msg).1.trans (s.padded_length msg), ?_⟩
  have hdrawn : fillLength s.pad s.bs msg.length = drawn := fillLength_eq s.pad s.bs msg.length
  have hrun := encm_completes hk hiv msg
  rw [hdrawn] at hrun
  exact hrun

/-- Decryption gives as many bytes as the message has, and a chaining value of `BS` bytes. -/
theorem State.decryptMessage_length (s : State) {text : List Byte} (htext : text.length % s.bs = 0) :
    (s.decryptMessage text).out.length = text.length ∧ (s.decryptMessage text).ch.length = s.bs :=
  s.runBlocks_message _ (Machine.decStep_length s.engine s.bs s.engine_enc_length s.engine_dec_length s.mode) _ htext

/-- Settles O48: `decm_completes` where the padding comes off, `decm_paddingFails` where it does not. -/
theorem decmDecryptsAndRemovesThePadding : Obligations.DecmDecryptsAndRemovesThePadding := by
  unfold Obligations.DecmDecryptsAndRemovesThePadding
  exact fun s text hk hiv htext => ⟨(s.decryptMessage_length htext).1, fun msg => decm_completes hk hiv htext,
    decm_paddingFails hk hiv htext⟩

end Sys2Proof.Machine

/-! What commands and steps keep (10 R34, R38, R48; 60 R446): what each command can write, said once; from it the frame
of every command, the draws of `RND`, and the key state, which every step keeps coherent. -/

namespace Sys2Proof.Machine

open Claims

/-! ### What a command writes besides `ERR` and its response -/

/-- The state `u` that command `i` can leave from `s`, up to `ERR` and the response (10 R48). -/
inductive Effect (s : State) : Instr → State → Prop
  | nothing (i : Instr) : Effect s i s
  | selectFamily (f : Family) :
      Effect s (.selfam (familyCode f)) { s with family := f, keyValid := false, keyLen := 0, ivValid := false }
  | bindA (key : List Byte) (sch : ScheduleA) (hl : key.length ∈ keyLengths s.family) (hf : s.family = .a)
      (hd : deriveA key = some sch) : Effect s (.setkey key) (s.bindA sch (BitVec.ofNat 8 key.length))
  | bindB (key : List Byte) (ek : TableB) (hl : key.length ∈ keyLengths s.family) (hf : s.family = .b)
      (hd : deriveB s.mcgSbox key = some ek) : Effect s (.setkey key) (s.bindB ek (BitVec.ofNat 8 key.length))
  | selectMode (m : Mode) : Effect s (.setmode (modeCode m)) { s with mode := m }
  | selectPadding (p : Padding) : Effect s (.setpad (padCode p)) { s with pad := p }
  | clearIv : Effect s (.setiv []) { s with ivValid := false }
  | supplyIv (iv : List Byte) (hl : iv.length = s.bs) : Effect s (.setiv iv) { s.setCh iv with ivValid := true }
  | advanceChain (i : Instr) (v : List Byte) (hi : IsCipher i) (hl : v.length = s.bs)
      (hecb : s.mode = .ecb → v = s.ch) : Effect s i (s.setCh v)
  | drawAndAdvanceChain (msg v : List Byte) (hl : v.length = s.bs) (hecb : s.mode = .ecb → v = s.ch) :
      Effect s (.encm msg) ((s.rndDrop (fillLength s.pad s.bs msg.length)).setCh v)

/-- Command `i` leaves from `s` what one of its effects does, with some `ERR` and some responses. -/
def Affects (i : Instr) (s t : State) : Prop :=
  ∃ u err responses, Effect s i u ∧ t = { u with err := err, responses := responses }

theorem encStep_ch_of_ecb {m : Mode} (hm : m = .ecb) (e : BlockEngine) (ch b : List Byte) :
    (encStep e m ch b).ch = ch := by
  rw [hm, encStep]

theorem decStep_ch_of_ecb {m : Mode} (hm : m = .ecb) (e : BlockEngine) (ch b : List Byte) :
    (decStep e m ch b).ch = ch := by
  rw [hm, decStep]

/-- Every command that answers has one of its effects. -/
theorem exec_affects {i : Instr} {s t : State} (h : exec i s = .next t) : Affects i s t := by
  cases i with
  | selfam sel =>
    rcases execSelfam_cases h with ⟨-, rfl⟩ | ⟨f, rfl, rfl⟩
    · exact ⟨s, _, _, .nothing _, rfl⟩
    · exact ⟨_, _, _, .selectFamily f, rfl⟩
  | setkey key =>
    rcases execSetkey_cases h with ⟨-, rfl⟩ | ⟨hl, hf, sch, hd, rfl⟩ | ⟨hl, hf, ek, hd, rfl⟩
    · exact ⟨s, _, _, .nothing _, rfl⟩
    · exact ⟨_, _, _, .bindA key sch hl hf hd, rfl⟩
    · exact ⟨_, _, _, .bindB key ek hl hf hd, rfl⟩
  | setmode sel =>
    rcases execSetmode_cases h with ⟨-, rfl⟩ | ⟨m, rfl, rfl⟩
    · exact ⟨s, _, _, .nothing _, rfl⟩
    · exact ⟨_, _, _, .selectMode m, rfl⟩
  | setpad sel =>
    rcases execSetpad_cases h with ⟨-, rfl⟩ | ⟨p, rfl, rfl⟩
    · exact ⟨s, _, _, .nothing _, rfl⟩
    · exact ⟨_, _, _, .selectPadding p, rfl⟩
  | setiv iv =>
    rcases execSetiv_cases h with ⟨rfl, rfl⟩ | ⟨hl, rfl⟩ | ⟨-, -, rfl⟩
    · exact ⟨_, _, _, .clearIv, rfl⟩
    · exact ⟨_, _, _, .supplyIv iv hl, rfl⟩
    · exact ⟨s, _, _, .nothing _, rfl⟩
  | rdreg sel =>
    rcases execRdreg_cases h with ⟨-, rfl⟩ | ⟨r, -, rfl⟩
    · exact ⟨s, _, _, .nothing _, rfl⟩
    · exact ⟨s, _, _, .nothing _, rfl⟩
  | encb b =>
    rcases execEncb_cases h with ⟨e, -, rfl⟩ | ⟨-, hb, rfl⟩
    · exact ⟨s, _, _, .nothing _, rfl⟩
    · exact ⟨_, _, _, .advanceChain _ _ (isCipher_encb b) (s.encStep_length s.mode hb).2
        fun hm => encStep_ch_of_ecb hm _ _ _, rfl⟩
  | decb b =>
    rcases execDecb_cases h with ⟨e, -, rfl⟩ | ⟨-, hb, rfl⟩
    · exact ⟨s, _, _, .nothing _, rfl⟩
    · exact ⟨_, _, _, .advanceChain _ _ (isCipher_decb b) (s.decStep_length s.mode hb).2
        fun hm => decStep_ch_of_ecb hm _ _ _, rfl⟩
  | encm msg =>
    rcases execEncm_cases h with ⟨e, -, rfl⟩ | ⟨-, rfl⟩
    · exact ⟨s, _, _, .nothing _, rfl⟩
    · exact ⟨_, _, _, .drawAndAdvanceChain msg _ (s.encryptMessage_length msg).2
        fun hm => State.encryptMessage_ch_of_ecb hm msg, rfl⟩
  | decm text =>
    have advance (htext : text.length % s.bs = 0) : Effect s (.decm text) (s.setCh (s.decryptMessage text).ch) :=
      .advanceChain _ _ (isCipher_decm text) (s.decryptMessage_length htext).2
        fun hm => State.decryptMessage_ch_of_ecb hm text
    rcases execDecm_cases h with ⟨e, -, rfl⟩ | ⟨-, htext, -, rfl⟩ | ⟨-, htext, msg, -, rfl⟩
    · exact ⟨s, _, _, .nothing _, rfl⟩
    · exact ⟨_, _, _, advance htext, rfl⟩
    · exact ⟨_, _, _, advance htext, rfl⟩
  | gfmul a b => cases h; exact ⟨s, _, _, .nothing _, rfl⟩
  | rot sel x => cases h; exact ⟨s, _, _, .nothing _, rfl⟩
  | pht a b => cases h; exact ⟨s, _, _, .nothing _, rfl⟩

/-! ### The key state (10 R34, R38) -/

/-- Only a new family or a new key touches the key state, and both leave it coherent. -/
theorem State.KeyCoherent.of_affects {i : Instr} {s t : State} (hs : s.KeyCoherent) (h : Affects i s t) :
    t.KeyCoherent := by
  obtain ⟨u, err, responses, heff, rfl⟩ := h
  cases heff with
  | nothing | selectMode | selectPadding | clearIv | supplyIv | advanceChain | drawAndAdvanceChain => exact hs
  | selectFamily => exact ⟨fun _ => rfl, nofun⟩
  | bindA key sch hl hf hd =>
    refine ⟨nofun, fun _ => ⟨key, hl, rfl, ?_⟩⟩
    simpa only [State.holdsScheduleOf, State.bindA, hf] using hd
  | bindB key ek hl hf hd =>
    refine ⟨nofun, fun _ => ⟨key, hl, rfl, ?_⟩⟩
    simpa only [State.holdsScheduleOf, State.bindB, hf] using hd

/-- Settles O57: reset leaves no key, a command one of its effects, and a rejected word nothing but `ERR`. -/
theorem everyStepKeepsTheKeyStateCoherent : Obligations.EveryStepKeepsTheKeyStateCoherent := by
  unfold Obligations.EveryStepKeepsTheKeyStateCoherent
  intro s t hs h
  rcases step_cases h with ⟨-, rfl⟩ | ⟨rest, -, rfl⟩ | ⟨c, rest, i, -, -, hexec⟩ | ⟨c, rest, e, -, -, -, rfl⟩
  · exact hs
  · exact ⟨fun _ => rfl, nofun⟩
  · have hpop : s.popAction.KeyCoherent := hs
    exact hpop.of_affects (exec_affects hexec)
  · exact hs

/-- Settles O56: after reset no key is valid and `KEYLEN` is 0. -/
theorem keyStateIsCoherentAtReset : Obligations.KeyStateIsCoherentAtReset :=
  ⟨fun _ => rfl, nofun⟩

/-- `KEYLEN` without a key, and with a key of each length its family allows (10 R38). -/
theorem State.KeyCoherent.keyLen_cases {s : State} (h : s.KeyCoherent) :
    (s.keyValid = false ∧ s.keyLen = 0) ∨
    (s.keyValid = true ∧ (s.keyLen = 16 ∨ s.family = .a ∧ (s.keyLen = 24 ∨ s.keyLen = 32))) := by
  obtain ⟨hnone, hsome⟩ := h
  cases hk : s.keyValid
  case false => exact .inl ⟨rfl, hnone hk⟩
  case true =>
    obtain ⟨key, hl, hlen, -⟩ := hsome hk
    rw [hlen]
    cases hf : s.family <;> simp only [hf, keyLengths, List.mem_cons, List.not_mem_nil, or_false] at hl
    case a => rcases hl with hl | hl | hl <;> simp [hl]
    case b => simp [hl]

theorem readReg_family_eq_zero (s : State) : s.readReg .family = 0 ↔ s.family = .a := by
  rw [State.readReg]
  cases s.family <;> decide

theorem readReg_status_getLsbD_zero (s : State) : (s.readReg .status).getLsbD 0 = s.keyValid := by
  rw [readReg_status]
  cases s.keyValid <;> cases s.ivValid <;> rfl

theorem familyCode_le (f : Family) : (familyCode f).toNat ≤ 1 := by cases f <;> decide

theorem modeCode_le (m : Mode) : (modeCode m).toNat ≤ 5 := by cases m <;> decide

theorem padCode_le (p : Padding) : (padCode p).toNat ≤ 3 := by cases p <;> decide

theorem statusCode_le (code : Status) : (statusCode code).toNat ≤ 11 := by cases code <;> decide

theorem readReg_status_le (s : State) : (s.readReg .status).toNat ≤ 3 := by
  rw [readReg_status]
  cases s.keyValid <;> cases s.ivValid <;> decide

/-- Settles O58: the bounds of the codes, and `KEYLEN` by `State.KeyCoherent.keyLen_cases`. -/
theorem controlRegistersReadLegalValues : Obligations.ControlRegistersReadLegalValues := by
  unfold Obligations.ControlRegistersReadLegalValues
  intro s h
  refine ⟨familyCode_le s.family, modeCode_le s.mode, padCode_le s.pad, readReg_status_le s, statusCode_le s.err, ?_⟩
  simp only [readReg_family_eq_zero, readReg_status_getLsbD_zero, readReg_bsize, true_and]
  show (s.keyLen = 0 ∨ s.keyLen = 16 ∨ s.family = .a ∧ (s.keyLen = 24 ∨ s.keyLen = 32)) ∧
    (s.keyLen = 0 ↔ s.keyValid = false)
  rcases h.keyLen_cases with ⟨hk, hlen⟩ | ⟨hk, hlen | ⟨hf, hlen | hlen⟩⟩ <;> simp [*]

/-! ### The frame of a command -/

/-- Settles O54: in each effect every field but those it writes is the old one; in ECB a cipher command writes `CH`
back, and no chaining value reaches above `BS`. -/
theorem eachCommandWritesOnlyItsState : Obligations.EachCommandWritesOnlyItsState := by
  unfold Obligations.EachCommandWritesOnlyItsState
  intro i s t h
  have herr : t.err ≠ s.err → ¬ IsRdreg i := by
    obtain ⟨r, hend⟩ := exec_ending h
    exact fun hne hi => hne (hend.err_eq_of_isRdreg hi)
  have habove (v : List Byte) (hl : v.length = s.bs) (j : Nat) (hj : j < 16) (hbs : s.bs ≤ j) :
      (writeChain s.chain v)[j] = s.chain[j] := writeChain_above s.chain v j hj (hl ▸ hbs)
  have hwritten (v : List Byte) (hecb : s.mode = .ecb → v = s.ch) (hne : writeChain s.chain v ≠ s.chain) :
      s.mode ≠ .ecb := fun hm => hne (by rw [hecb hm, State.ch, writeChain_take])
  obtain ⟨u, err, responses, heff, rfl⟩ := exec_affects h
  cases heff with
  | nothing | selectFamily | bindA | bindB | selectMode | selectPadding | clearIv => simpa using herr
  | supplyIv iv hl => simpa using ⟨herr, habove iv hl⟩
  | advanceChain _ v hi hl hecb => simpa using ⟨herr, fun hne => .inr ⟨hi, hwritten v hecb hne⟩, habove v hl⟩
  | drawAndAdvanceChain msg v hl hecb =>
    simpa using ⟨herr, fun hne => ⟨isCipher_encm msg, hwritten v hecb hne⟩, habove v hl⟩

/-- Settles O55: of the effects only that of `ENCM` draws, and `fillLength` is 0 but for ISO10126. -/
theorem onlyIsoPaddingDrawsRandomBytes : Obligations.OnlyIsoPaddingDrawsRandomBytes := by
  unfold Obligations.OnlyIsoPaddingDrawsRandomBytes
  intro i s t h hdraw
  obtain ⟨u, err, responses, heff, rfl⟩ := exec_affects h
  cases heff with
  | nothing | selectFamily | bindA | bindB | selectMode | selectPadding | clearIv | supplyIv | advanceChain =>
    simp at hdraw
  | drawAndAdvanceChain msg v =>
    by_cases hp : s.pad = .iso10126
    case pos => exact ⟨msg, rfl, hp, by simp [fillLength_eq, hp, padLength]⟩
    case neg => simp [fillLength_eq, hp] at hdraw

/-! ### Every command answers -/

theorem exec_answers (i : Instr) (s : State) : ∃ t, exec i s = .next t := by
  cases i with
  | selfam sel => simp only [exec, execSelfam]; split <;> exact ⟨_, rfl⟩
  | setkey key =>
    simp only [exec, execSetkey]
    split
    · split <;> exact ⟨_, rfl⟩
    · exact ⟨_, rfl⟩
  | setmode sel => simp only [exec, execSetmode]; split <;> exact ⟨_, rfl⟩
  | setpad sel => simp only [exec, execSetpad]; split <;> exact ⟨_, rfl⟩
  | setiv iv =>
    simp only [exec, execSetiv]
    split
    · exact ⟨_, rfl⟩
    · split <;> exact ⟨_, rfl⟩
  | rdreg sel => simp only [exec, execRdreg]; split <;> exact ⟨_, rfl⟩
  | encb b => simp only [exec, execEncb]; split <;> exact ⟨_, rfl⟩
  | decb b => simp only [exec, execDecb]; split <;> exact ⟨_, rfl⟩
  | encm msg => simp only [exec, execEncm]; split <;> exact ⟨_, rfl⟩
  | decm text =>
    simp only [exec, execDecm]
    split
    · exact ⟨_, rfl⟩
    · split <;> exact ⟨_, rfl⟩
  | gfmul a b => exact ⟨_, rfl⟩
  | rot sel x => exact ⟨_, rfl⟩
  | pht a b => exact ⟨_, rfl⟩

/-- Settles O53: every command answers, `exec_answers`, and ends with one response, `Ending.responses_eq`. -/
theorem everyCommandReturnsOneResponse : Obligations.EveryCommandReturnsOneResponse := by
  unfold Obligations.EveryCommandReturnsOneResponse
  intro i s
  obtain ⟨t, h⟩ := exec_answers i s
  obtain ⟨r, hend⟩ := exec_ending h
  exact ⟨t, r, h, hend.responses_eq⟩

/-! ### Which transactions have a step -/

/-- A step whose next transaction decodes runs its command (60 R446). -/
theorem step_command {s : State} {c : Command} {rest : List HostAction} {i : Instr}
    (hp : s.pending = .command c :: rest) (hd : decode c = .ok i) : step s = exec i s.popAction := by
  simp [step, State.nextAction, hp, hd]

/-- Settles O7: the decoded command is run on the queue without it. -/
theorem stepRunsTheDecodedInstruction : Obligations.StepRunsTheDecodedInstruction := by
  unfold Obligations.StepRunsTheDecodedInstruction
  refine ⟨fun s c rest i hnext hdec => ?_, step_idle⟩
  rw [step_command hnext hdec, popAction_of_next s c rest hnext]

/-- Settles O6: a framed transaction decodes and its command answers; any other is rejected with an error of framing. -/
theorem onlyFramedTransactionsHaveAStep : Obligations.OnlyFramedTransactionsHaveAStep := by
  unfold Obligations.OnlyFramedTransactionsHaveAStep
  intro s c rest hnext hlegal
  obtain ⟨op, hword⟩ := (not_illegalWord_iff c).mp hlegal
  obtain ⟨hdecodes, hrejects⟩ := decode_of_decodeWord_ok hword
  constructor
  · intro hframed
    obtain ⟨i, hdec⟩ := hdecodes hframed
    rw [step_command hnext hdec]
    exact exec_answers i _
  · intro hframed
    obtain ⟨e, hdec, he⟩ := hrejects hframed
    exact ⟨e, by rw [step_reject s c rest e hnext hdec, State.rejectCommand, he, if_neg Bool.false_ne_true]⟩

/-- A step of a conforming host answers: every action it lined up is the reset, a command that decodes, or an illegal
word (60 R446). -/
theorem step_answers_of_conforms {s : State} (h : s.HostConforms) : ∃ t, step s = .next t := by
  cases hp : s.pending with
  | nil => exact ⟨s, step_idle s hp⟩
  | cons a rest =>
    have ha : a.conforms = true := h a (by simp [hp])
    cases a with
    | reset => exact ⟨_, step_reset s rest hp⟩
    | command c =>
      simp only [HostAction.conforms, Command.conforms] at ha
      cases hdec : decode c with
      | ok i =>
        rw [step_command hp hdec]
        exact exec_answers i _
      | error e =>
        simp only [hdec] at ha
        exact ⟨_, by rw [step_reject s c rest e hp hdec, State.rejectCommand, ha, if_pos rfl]⟩

theorem exec_pending {i : Instr} {s t : State} (h : exec i s = .next t) : t.pending = s.pending := by
  obtain ⟨u, err, responses, heff, rfl⟩ := exec_affects h
  cases heff <;> rfl

/-- A step takes at most one action off the queue and adds none. -/
theorem step_pending {s t : State} (h : step s = .next t) : t.pending = s.pending.tail := by
  rcases step_cases h with ⟨hp, rfl⟩ | ⟨rest, -, rfl⟩ | ⟨c, rest, i, -, -, hexec⟩ | ⟨c, rest, e, -, -, -, rfl⟩
  · rw [hp, List.tail_nil]
  · rfl
  · exact exec_pending hexec
  · rfl

/-- Settles O59: a conforming step answers, `step_answers_of_conforms`, and what it leaves lined up was lined up. -/
theorem conformingHostsNeverStopTheCore : Obligations.ConformingHostsNeverStopTheCore := by
  unfold Obligations.ConformingHostsNeverStopTheCore
  intro s h
  obtain ⟨t, ht⟩ := step_answers_of_conforms h
  refine ⟨t, ht, fun a ha => h a (List.mem_of_mem_tail ?_)⟩
  rwa [← step_pending ht]

/-! ### Reset (70 R451) -/

/-- Settles O9: every register at its reset value, `BSIZE` that of Cipher A. -/
theorem resetHoldsTheStatedValues : Obligations.ResetHoldsTheStatedValues := by
  unfold Obligations.ResetHoldsTheStatedValues
  exact ⟨rfl, rfl, rfl, rfl, rfl, rfl, rfl, fun r => by cases r <;> rfl⟩

/-- Settles O11: the state of `step_reset`, with the action taken off the queue. -/
theorem hostResetPutsRegistersAtTheirResetValues : Obligations.HostResetPutsRegistersAtTheirResetValues := by
  unfold Obligations.HostResetPutsRegistersAtTheirResetValues
  intro s rest hp
  have hrest : s.popAction.applyReset.pending = rest := by simp [hp]
  exact ⟨_, step_reset s rest hp, rfl, rfl, rfl, rfl, rfl, rfl, rfl, rfl, hrest, rfl, rfl, rfl, rfl⟩

end Sys2Proof.Machine
